-- ==== Sys2Proof/Word.lean ====
section
/-! DEFINITION. The word types of the CORE (spec/00_scope.md R8, R9). -/

namespace Sys2Proof

/-- A byte, the unit of every buffer and stream (R9, R45). -/
abbrev Byte := BitVec 8

/-- A register, a command word and a uniform draw: `REG_W` = `DRAW_W` = 32 bits (R8). -/
abbrev Word := BitVec 32

/-- An event counter, 64 bits (R36). -/
abbrev DWord := BitVec 64

end Sys2Proof
end

