-- ==== Sys2Proof/Syntax.lean ====
section
/-! DEFINITION. The commands of the CORE: one constructor per row of spec/opcode_table.json (spec/30_encoding.md R68). -/

namespace Sys2Proof

/-- The eight commands. A command word carries no operand fields (R67), so no constructor has an argument. -/
inductive Instr where
  /-- Encode one block (R87). -/
  | encb
  /-- Encode a stream (R90). -/
  | encs
  /-- Interleave a buffer (R98). -/
  | ilv
  /-- Correct one block (R104). -/
  | corb
  /-- Decode one block (R106). -/
  | decb
  /-- Decode a stream (R108). -/
  | decs
  /-- Per-bit independent noise (R114). -/
  | jamb
  /-- Burst noise (R117). -/
  | jamr
  deriving DecidableEq, Repr

end Sys2Proof
end

