-- ==== Sys2Proof/Decode.lean ====
section
/-! DEFINITION. The decoder of command words, total on every word (spec/30_encoding.md R64, R66, R68, R69), and after it the
encoder from the same table. -/

namespace Sys2Proof

/-- Why a word is illegal (R69). -/
inductive DecodeError where
  /-- RSVD, bits 31:8, is not zero. -/
  | reservedNonzero
  /-- OPCODE, bits 7:0, is none of the eight values. -/
  | opcodeUnassigned
  deriving DecidableEq, Repr

/-- Bits 31:8 of a command word (R66). -/
def rsvdField (w : Word) : BitVec 24 := w.extractLsb' 8 24

/-- Bits 7:0 of a command word (R66). -/
def opcodeField (w : Word) : BitVec 8 := w.extractLsb' 0 8

/-- The opcode map of R68, read from OPCODE to command. -/
def instrOfOpcode (op : BitVec 8) : Option Instr :=
  if op = 0x01#8 then some .encb
  else if op = 0x10#8 then some .encs
  else if op = 0x04#8 then some .ilv
  else if op = 0x02#8 then some .corb
  else if op = 0x03#8 then some .decb
  else if op = 0x11#8 then some .decs
  else if op = 0x20#8 then some .jamb
  else if op = 0x21#8 then some .jamr
  else none

/-- The command a word encodes, or why it is illegal (R66, R69). -/
def decode (w : Word) : Except DecodeError Instr :=
  if rsvdField w ≠ 0#24 then .error .reservedNonzero
  else
    match instrOfOpcode (opcodeField w) with
    | some i => .ok i
    | none => .error .opcodeUnassigned

/-- What the decoder reads from the opcode table's `nbits`-bit row whose bits are `w`: the one word of R64, the bits above
`nbits` zero. -/
def decodeTableWord (nbits w : Nat) : Option Instr :=
  match decode (BitVec.ofNat 32 (w % 2 ^ nbits)) with
  | .ok i => some i
  | .error _ => none

/-- The opcode map of R68, read from command to OPCODE. -/
def opcodeOf : Instr → BitVec 8
  | .encb => 0x01#8
  | .encs => 0x10#8
  | .ilv => 0x04#8
  | .corb => 0x02#8
  | .decb => 0x03#8
  | .decs => 0x11#8
  | .jamb => 0x20#8
  | .jamr => 0x21#8

/-- The command word: RSVD zero above OPCODE (R66, R68). -/
def encode (i : Instr) : Word := 0#24 ++ opcodeOf i

end Sys2Proof
end

