-- ==== Sys2Proof/Machine/Bits.lean ====
section
/-! DEFINITION. Bit addressing (spec/20_memory.md R46 to R50) and the arithmetic of spec/00_scope.md R11 to R16. A buffer is
the list of its bytes, byte 0 first. -/

namespace Sys2Proof.Machine

/-- `ceil_div(a, b)` (R9). -/
def ceilDiv (a b : Nat) : Nat := (a + b - 1) / b

/-- `ValBit(v, k)`: bit k of the natural v, counted from the least significant bit (R11, R50). -/
def valBit (v k : Nat) : Bool := v.testBit k

/-- `IsPow2(n)` (R14). -/
def isPow2 (n : Nat) : Bool := 0 < n && n &&& (n - 1) == 0

/-- `BitLength(n)`: the least k with n < 2^k (R15). -/
def bitLength (n : Nat) : Nat := if n = 0 then 0 else n.log2 + 1

/-- `XOR` of a set of naturals, listed once each (R16). -/
def xorNats (ns : List Nat) : Nat := ns.foldr (· ^^^ ·) 0

/-- `XOR` of bits: the parity (R16). -/
def xorBits (bs : List Bool) : Bool := bs.foldr Bool.xor false

/-- The addresses lo ≤ a < hi, ascending. -/
def addrs (lo hi : Nat) : List Nat := List.range' lo (hi - lo)

/-- `Zeros(n)`: a buffer of n zero bytes (R13). -/
def zeros (n : Nat) : List Byte := List.replicate n 0#8

/-- `B[i .. i + n)` (R13). -/
def slice (B : List Byte) (i n : Nat) : List Byte := (B.drop i).take n

/-- Bit `7 − (a mod 8)` of a byte, counted from its least significant bit, is the one that buffer bit address a names (R46). -/
def bitInByte (a : Nat) : Nat := 7 - a % 8

/-- `BufBit(B, a)` for a below 8|B| (R47). No rule reads an address at or above 8|B|. -/
def bufBit (B : List Byte) (a : Nat) : Bool := (B.getD (a / 8) 0#8).getLsbD (bitInByte a)

/-- One byte with bit k, counted from the least significant bit, made v and its other bits unchanged (R48). -/
def setByteBit (b : Byte) (k : Nat) (v : Bool) : Byte :=
  if v then b ||| (1#8 <<< k) else b &&& ~~~(1#8 <<< k)

/-- `BufSet(B, a, v)` (R48). -/
def bufSet (B : List Byte) (a : Nat) (v : Bool) : List Byte :=
  B.set (a / 8) (setByteBit (B.getD (a / 8) 0#8) (bitInByte a) v)

/-- `BufFlip(B, a)` (R49). -/
def bufFlip (B : List Byte) (a : Nat) : List Byte := bufSet B a (!bufBit B a)

/-- A run of `BufSet`s, in list order: address and bit of each. -/
def bufSetAll (B : List Byte) (ws : List (Nat × Bool)) : List Byte :=
  ws.foldl (fun B w => bufSet B w.1 w.2) B

end Sys2Proof.Machine
end

