-- ==== Sys2Proof/Config.lean ====
section
/-! DEFINITION. The parameters the spec leaves OPEN (spec/00_scope.md R8, spec/20_memory.md R56) and the free values: what
the spec leaves unspecified and nothing in the model fixes. -/

namespace Sys2Proof

/-- The OPEN parameters of spec/00_scope.md R8 and spec/20_memory.md R56. They are a part of State that no step changes, so
a statement for every state is a statement for every value of them. -/
structure Params where
  /-- `BUF_CAP`: bytes in SRC and in DST. -/
  bufCap : Nat
  /-- `FRAME_CAP`: bytes in the largest working buffer. -/
  frameCap : Nat
  /-- `REG_BASE`: where the register block sits in the host's address space. -/
  regBase : Nat
  deriving DecidableEq, Repr

/-- The bounds of R8: 1 ≤ `BUF_CAP` ≤ 2^28 − 1 and 1 ≤ `FRAME_CAP` ≤ 2^28 − 1. `REG_BASE` may be anything. -/
abbrev Params.wf (p : Params) : Prop :=
  1 ≤ p.bufCap ∧ p.bufCap ≤ 2 ^ 28 - 1 ∧ 1 ≤ p.frameCap ∧ p.frameCap ≤ 2 ^ 28 - 1

/-- DESIGN CHOICE (log entry 1): the parameters of the state after reset, the largest capacities R8 admits. -/
def Config.resetParams : Params := { bufCap := 2 ^ 28 - 1, frameCap := 2 ^ 28 - 1, regBase := 0 }

/-- FREE VALUE (log entry 2; R42, 93 U9). The byte at an index of a buffer whose contents are unspecified since a reset. The
first argument tells one buffer of one reset from every other. -/
opaque Config.unspecifiedByte : Nat → Nat → Byte

/-- FREE VALUE (log entry 9). What a register holds after the host program gives it a value of 2^32 or more, about which the
spec says nothing. -/
opaque Config.unstatedWord : Nat → Word

end Sys2Proof
end

