-- ==== Sys2Proof/Machine/State.lean ====
section
/-! DEFINITION. The state of the CORE and of its environment as plain data (spec/10_state.md), the ways a step can stop, and
the state after reset. -/

namespace Sys2Proof.Machine

/-- The registers of spec/10_state.md R23 by name; a 64-bit counter is two of them. -/
inductive Reg where
  | cmd | status | outcome | syndrome | dpb | groups | dsize | pNum | pDen | maxBurst | bufSize | srcLen | dstLen
  | flipsLo | flipsHi | unitsLo | unitsHi | bytesInLo | bytesInHi | bytesOutLo | bytesOutHi
  deriving DecidableEq, Repr

/-- The completion codes of spec/60_exceptions.md R120. -/
inductive Code where
  | ok | illegalCommand | configError | doubleError | malformedInput | truncatedFrame | ioError
  deriving DecidableEq, Repr

/-- The four rows of the decision table of spec/42_decoder.md R101. -/
inductive BlockClass where
  | noError | parityOnly | single | double
  deriving DecidableEq, Repr

/-- The two stream primitives whose calls the host may fail (spec/20_memory.md R53, R54). -/
inductive StreamCall where
  | inRead | outWrite
  deriving DecidableEq, Repr

/-- What a byte of a buffer reads as when nothing has been written there: zero after `DST <- Zeros(BUF_CAP)`
(spec/30_encoding.md R70), a free value after reset (spec/10_state.md R42; log entry 2). -/
inductive Fill where
  | zeros
  | unspecified (key : Nat)
  deriving DecidableEq, Repr

/-- SRC or DST (spec/20_memory.md R44): the bytes written, in rising index order, over a fill. -/
structure Memory where
  fill : Fill
  cells : List Host.Cell
  deriving DecidableEq, Repr

/-- The operand registers (spec/10_state.md R28 to R34), which only the host writes (R21). -/
structure OperandRegs where
  dpb : Word
  groups : Word
  dsize : Word
  pNum : Word
  pDen : Word
  maxBurst : Word
  bufSize : Word
  srcLen : Word
  deriving DecidableEq, Repr

/-- The four event counters (spec/10_state.md R36). -/
structure Counters where
  flips : DWord
  units : DWord
  bytesIn : DWord
  bytesOut : DWord
  deriving DecidableEq, Repr

/-- One operation of the host: the statements of spec/30_encoding.md R74 and R75, the plain accesses of spec/10_state.md
R40, and reset (spec/70_reset_and_hazards.md R140). -/
inductive HostOp where
  /-- `SET <REG>, <n>`: the host writes n to register REG. -/
  | set (r : Reg) (n : Nat)
  /-- `<MNEMONIC>`: the host writes the command word to CMD. -/
  | run (i : Instr)
  /-- `CMD <word>`: the host writes an arbitrary word to CMD. -/
  | cmd (w : Word)
  /-- `FEED <bytes>`: the host appends bytes to the unread part of IN. -/
  | feed (bytes : List Byte)
  /-- `ENTROPY U=… L=…`: the entropy source's answers for the next command. -/
  | entropy (u : List Word) (l : List Nat)
  /-- `FAILIO <call>#<k>`: the host fails the k-th such call of the next command. -/
  | failIO (call : StreamCall) (k : Nat)
  /-- `LOAD b0 …`: host writes of `SRC[0 .. n)`, then `SET SRC_LEN, n`. -/
  | load (bytes : List Byte)
  /-- `TAKE`: the host reads `DST[0 .. DST_LEN)` and performs `LOAD` with those bytes. -/
  | take
  /-- `PIPE`: the host moves every byte of OUT to the end of IN and empties OUT. -/
  | pipe
  /-- `DILV <g>`: `SET GROUPS, (8 × SRC_LEN) div g`, then `ILV`. -/
  | dilv (g : Nat)
  /-- A register write of `bytes` bytes at a bus address. -/
  | busWrite (addr bytes : Nat) (w : Word)
  /-- A register read of `bytes` bytes at a bus address. -/
  | busRead (addr bytes : Nat)
  /-- A host write of one byte of SRC. -/
  | srcWrite (i : Nat) (b : Byte)
  /-- A host read of one byte of SRC. -/
  | srcRead (i : Nat)
  /-- A host read of one byte of DST. -/
  | dstRead (i : Nat)
  /-- The ILV of an illegal `DILV`, of which R75 says "ILV raises CONFIG_ERROR": CMD takes the word of ILV and the command
  raises it. Only the expansion of `dilv` writes this (log entry 16). -/
  | ilvRaising
  /-- Reset of the CORE. -/
  | reset
  deriving DecidableEq, Repr

/-- The whole state: the registers and buffers of the CORE, the streams, the host's and the entropy source's choices for the
next command, and the host operations still to come. -/
structure State where
  /-- The implementation parameters (R8), which no step changes. -/
  params : Params
  /-- The operand registers. -/
  ops : OperandRegs
  /-- CMD: the last word written (R24). -/
  cmd : Word
  /-- STATUS (R25). -/
  status : Word
  /-- OUTCOME (R26). -/
  outcome : Word
  /-- SYNDROME (R27). -/
  syndrome : Word
  /-- DST_LEN (R35). -/
  dstLen : Word
  /-- FLIPS, UNITS, BYTES_IN, BYTES_OUT (R36). -/
  cnt : Counters
  /-- SRC (R44). -/
  src : Memory
  /-- DST (R44). -/
  dst : Memory
  /-- The bytes of IN before the cursor, consumed (R39). -/
  inDone : List Byte
  /-- The bytes of IN after the cursor (R53). -/
  inRest : List Byte
  /-- OUT, oldest byte first (R39). -/
  out : List Byte
  /-- The answers to DrawU32 still to be given to the next command (R38, R74). -/
  drawsU : List Word
  /-- The answers to DrawLen still to be given to the next command (R38, R74). -/
  drawsL : List Nat
  /-- The host fails the k-th InRead of the next command for each k here (R53, R74). -/
  failIn : List Nat
  /-- The host fails the k-th OutWrite of the next command for each k here (R54, R74). -/
  failOut : List Nat
  /-- Model's own: InRead calls the running command has made; 0 between commands. -/
  inCalls : Nat
  /-- Model's own: OutWrite calls the running command has made; 0 between commands. -/
  outCalls : Nat
  /-- Model's own: the host operations still to be performed, first one first (log entry 5). -/
  pending : List HostOp
  /-- Model's own: what the last host read returned (log entry 8). -/
  busData : Word
  /-- Model's own: the next unused key of an unspecified buffer (log entry 2). -/
  fresh : Nat
  deriving DecidableEq, Repr

/-- The ways a step stops because nothing the spec describes happens. The faults of spec/60_exceptions.md are completion
codes of a command that ends, a next state, and are none of these. -/
inductive Fault where
  /-- Raised by JAMB and JAMR at a draw the entropy source does not answer: the spec's hang (R143, 93 U14). Safe: the machine
  it models makes no further step either. -/
  | entropyUnanswered
  /-- Raised by JAMR when DrawLen(m) is answered with L ≥ m: the spec's stuck (R38, 93 U8). Safe: the spec has no step. -/
  | entropyOutOfRange
  /-- Raised by a host read or write of SRC at an index at or above `BUF_CAP`, a byte that does not exist (R40, R44).
  Safe: the model stops where the spec gives nothing. -/
  | noSuchSrcByte
  deriving DecidableEq, Repr

/-- The ways a step is refused. -/
inductive Refusal where
  /-- An arm of `exec` whose instruction has no meaning yet; no arm is left that answers it. Safe. -/
  | notModelled (mnemonic : String)
  /-- Raised by a register access that is not one whole aligned 32-bit word: "the model refuses it" (R52). Safe. -/
  | registerAccessShape
  /-- Raised by a bus access below `REG_BASE`, which is not an access to this CORE (R56). Safe. -/
  | notRegisterBlock
  /-- Raised by `DILV 0`: "A host must not expand `DILV 0`, because the division has no value" (R75). Safe. -/
  | dilvByZero
  deriving DecidableEq, Repr

/-- All counters zero. -/
def Counters.zero : Counters := { flips := 0, units := 0, bytesIn := 0, bytesOut := 0 }

/-- The operand registers after reset (R42). -/
def OperandRegs.zero : OperandRegs :=
  { dpb := 0, groups := 0, dsize := 0, pNum := 0, pDen := 0, maxBurst := 0, bufSize := 0, srcLen := 0 }

/-- The state right after reset: every register 0 (R42, R140), SRC and DST unspecified (R42; log entry 2), no command
executing and nothing waiting. The streams, the environment's answers and the model's own fields: log entry 3. -/
def State.reset : State :=
  { params := Config.resetParams
    ops := OperandRegs.zero
    cmd := 0, status := 0, outcome := 0, syndrome := 0, dstLen := 0
    cnt := Counters.zero
    src := { fill := .unspecified 0, cells := [] }
    dst := { fill := .unspecified 1, cells := [] }
    inDone := [], inRest := [], out := []
    drawsU := [], drawsL := [], failIn := [], failOut := []
    inCalls := 0, outCalls := 0
    pending := [], busData := 0, fresh := 2 }

end Sys2Proof.Machine
end

