-- ==== Sys2Proof/Machine/Flags.lean ====
section
/-! DEFINITION. The fields of STATUS and OUTCOME (spec/10_state.md R25, R26, spec/60_exceptions.md R120): the CORE has no other
flags (R37). -/

namespace Sys2Proof.Machine

/-- The number of a completion code (R120). -/
def Code.byte : Code → BitVec 8
  | .ok => 0x00#8
  | .illegalCommand => 0x01#8
  | .configError => 0x02#8
  | .doubleError => 0x03#8
  | .malformedInput => 0x04#8
  | .truncatedFrame => 0x05#8
  | .ioError => 0x06#8

/-- STATUS.CODE, bits 7:0 (R25). -/
def statusCode (st : Word) : BitVec 8 := st.extractLsb' 0 8

/-- STATUS.STICKY, bit 8 (R25). -/
def statusSticky (st : Word) : Bool := st.getLsbD 8

/-- `STATUS.CODE ← c`: bits 7:0 replaced, every other bit kept. -/
def setStatusCode (st : Word) (c : Code) : Word := (st &&& 0xFFFFFF00#32) ||| (0#24 ++ c.byte)

/-- `STATUS.STICKY ← 1`: bit 8 set, every other bit kept. -/
def setStatusSticky (st : Word) : Word := st ||| 0x00000100#32

/-- STATUS after `raise F` (R127): CODE ← F, then STICKY ← 1. -/
def statusRaised (st : Word) (c : Code) : Word := setStatusSticky (setStatusCode st c)

/-- The number of a class in OUTCOME.CLASS (R26, R101). -/
def BlockClass.bits : BlockClass → BitVec 2
  | .noError => 0#2
  | .parityOnly => 1#2
  | .single => 2#2
  | .double => 3#2

/-- OUTCOME for a class: bits 1:0 CLASS, bits 31:2 read 0 (R26). -/
def outcomeWord (k : BlockClass) : Word := 0#30 ++ k.bits

/-- The row of the decision table that (errorAddr, parityCheck) selects (R101). -/
def classOf (errorAddr : Nat) (parityCheck : Bool) : BlockClass :=
  if errorAddr = 0 then (if parityCheck then .parityOnly else .noError)
  else (if parityCheck then .single else .double)

/-- CODE of a state's STATUS. -/
def State.code (s : State) : BitVec 8 := statusCode s.status

/-- STICKY of a state's STATUS. -/
def State.sticky (s : State) : Bool := statusSticky s.status

end Sys2Proof.Machine
end

