-- ==== Sys2Proof/Machine/Ops.lean ====
section
/-! DEFINITION. The named operations over memory, registers, streams and entropy that every command is written with, the
ending of a command with a fault (spec/60_exceptions.md R127) among them. There is no return from a fault (R131): the host
issues the next command. -/

namespace Sys2Proof.Machine

/-! ### Buffers SRC and DST -/

/-- What a byte that nothing has written reads as (log entry 2). -/
def Fill.byte : Fill → Nat → Byte
  | .zeros, _ => 0#8
  | .unspecified key, i => Config.unspecifiedByte key i

/-- The byte listed at an index, if one is. -/
def lookupCell (i : Nat) : List Host.Cell → Option Byte
  | [] => none
  | c :: cs => if c.1 = i then some c.2 else lookupCell i cs

/-- The list with byte b at index i, in rising order. -/
def insertCell (i : Nat) (b : Byte) : List Host.Cell → List Host.Cell
  | [] => [(i, b)]
  | c :: cs => if i < c.1 then (i, b) :: c :: cs else if i = c.1 then (i, b) :: cs else c :: insertCell i b cs

/-- The list with nothing at index i. -/
def eraseCell (i : Nat) (cs : List Host.Cell) : List Host.Cell := cs.filter (fun c => c.1 ≠ i)

/-- One byte of a buffer. -/
def Memory.read (m : Memory) (i : Nat) : Byte := (lookupCell i m.cells).getD (m.fill.byte i)

/-- One byte written. Writing what an unlisted byte of a zeroed buffer reads as leaves the byte unlisted. -/
def Memory.write (m : Memory) (i : Nat) (b : Byte) : Memory :=
  if m.fill = .zeros ∧ b = 0#8 then { m with cells := eraseCell i m.cells }
  else { m with cells := insertCell i b m.cells }

/-- `MemRead(buf, i, n)`: the n bytes from index i (R51). -/
def Memory.readBytes (m : Memory) (i n : Nat) : List Byte := (List.range n).map (fun k => m.read (i + k))

/-- `MemWrite(buf, i, |v|, v)`: the bytes v stored from index i (R51). -/
def Memory.writeBytes (m : Memory) (i : Nat) : List Byte → Memory
  | [] => m
  | b :: bs => (m.write i b).writeBytes (i + 1) bs

/-- A buffer of zeros (R70). -/
def Memory.zeroed : Memory := { fill := .zeros, cells := [] }

/-- The indices of a cell list rise strictly. -/
def risingCells : List Host.Cell → Bool
  | [] => true
  | [_] => true
  | c :: d :: cs => c.1 < d.1 && risingCells (d :: cs)

/-- The canonical form of a buffer of `cap` bytes: rising indices below `cap`, and no listed byte that a zeroed buffer
reads anyway. -/
def Memory.wf (cap : Nat) (m : Memory) : Bool :=
  risingCells m.cells && m.cells.all (fun c => c.1 < cap && (m.fill != .zeros || c.2 != 0#8))

/-! ### Registers (R23, R40) -/

/-- Every register, in offset order. -/
def allRegs : List Reg :=
  [.cmd, .status, .outcome, .syndrome, .dpb, .groups, .dsize, .pNum, .pDen, .maxBurst, .bufSize, .srcLen, .dstLen,
    .flipsLo, .flipsHi, .unitsLo, .unitsHi, .bytesInLo, .bytesInHi, .bytesOutLo, .bytesOutHi]

/-- The byte offset of a register (R23). -/
def Reg.offset : Reg → Nat
  | .cmd => 0x00
  | .status => 0x04
  | .outcome => 0x08
  | .syndrome => 0x0C
  | .dpb => 0x10
  | .groups => 0x14
  | .dsize => 0x18
  | .pNum => 0x1C
  | .pDen => 0x20
  | .maxBurst => 0x24
  | .bufSize => 0x28
  | .srcLen => 0x2C
  | .dstLen => 0x30
  | .flipsLo => 0x38
  | .flipsHi => 0x3C
  | .unitsLo => 0x40
  | .unitsHi => 0x44
  | .bytesInLo => 0x48
  | .bytesInHi => 0x4C
  | .bytesOutLo => 0x50
  | .bytesOutHi => 0x54

/-- The register at an offset; none at 0x34 and from 0x58 up (R40). -/
def regAt (off : Nat) : Option Reg := allRegs.find? (fun r => r.offset = off)

/-- Bits 31:0 of a counter (R36). -/
def loWord (c : DWord) : Word := c.extractLsb' 0 32

/-- Bits 63:32 of a counter (R36). -/
def hiWord (c : DWord) : Word := c.extractLsb' 32 32

/-- A register read by the host, without side effects (R55). -/
def State.readReg (s : State) : Reg → Word
  | .cmd => s.cmd
  | .status => s.status
  | .outcome => s.outcome
  | .syndrome => s.syndrome
  | .dpb => s.ops.dpb
  | .groups => s.ops.groups
  | .dsize => s.ops.dsize
  | .pNum => s.ops.pNum
  | .pDen => s.ops.pDen
  | .maxBurst => s.ops.maxBurst
  | .bufSize => s.ops.bufSize
  | .srcLen => s.ops.srcLen
  | .dstLen => s.dstLen
  | .flipsLo => loWord s.cnt.flips
  | .flipsHi => hiWord s.cnt.flips
  | .unitsLo => loWord s.cnt.units
  | .unitsHi => hiWord s.cnt.units
  | .bytesInLo => loWord s.cnt.bytesIn
  | .bytesInHi => hiWord s.cnt.bytesIn
  | .bytesOutLo => loWord s.cnt.bytesOut
  | .bytesOutHi => hiWord s.cnt.bytesOut

/-- A read at an offset: 0 where no register is mapped (R40). -/
def State.readOffset (s : State) (off : Nat) : Word :=
  match regAt off with
  | some r => s.readReg r
  | none => 0#32

/-- A register written by the host, CMD apart: an RW register takes the value, a write to an R register is ignored (R40).
CMD is the register that executes; `State.issue` stores it. -/
def State.writeReg (s : State) (r : Reg) (w : Word) : State :=
  match r with
  | .dpb => { s with ops := { s.ops with dpb := w } }
  | .groups => { s with ops := { s.ops with groups := w } }
  | .dsize => { s with ops := { s.ops with dsize := w } }
  | .pNum => { s with ops := { s.ops with pNum := w } }
  | .pDen => { s with ops := { s.ops with pDen := w } }
  | .maxBurst => { s with ops := { s.ops with maxBurst := w } }
  | .bufSize => { s with ops := { s.ops with bufSize := w } }
  | .srcLen => { s with ops := { s.ops with srcLen := w } }
  | .cmd | .status | .outcome | .syndrome | .dstLen => s
  | .flipsLo | .flipsHi | .unitsLo | .unitsHi | .bytesInLo | .bytesInHi | .bytesOutLo | .bytesOutHi => s

/-- The value a register holds after the host program gives it the natural n: n where it fits 32 bits, else a free value
(log entry 9). -/
def registerValue (n : Nat) : Word := if n < 2 ^ 32 then BitVec.ofNat 32 n else Config.unstatedWord n

/-- CMD ← w (R24). -/
def State.issue (s : State) (w : Word) : State := { s with cmd := w }

/-- A host read of `DST[i]`: 0 at and above DST_LEN (R40, R51). -/
def State.readDst (s : State) (i : Nat) : Byte := if i < s.dstLen.toNat then s.dst.read i else 0#8

/-! ### How a command runs and ends (R70, R127, R150) -/

/-- What a part of a command does: it goes on with a value, it raises a fault of R120, or nothing happens any more. -/
inductive Res (α : Type) where
  | ok (a : α) (s : State)
  | raised (c : Code) (s : State)
  | stuck (f : Fault)
  deriving Repr

/-- Go on with the next part only where nothing was raised: "raise ends Execute at once" (R70). -/
def Res.bind {α β : Type} (r : Res α) (f : α → State → Res β) : Res β :=
  match r with
  | .ok a s => f a s
  | .raised c s => .raised c s
  | .stuck e => .stuck e

/-- What every command word does first: the counters to 0, DST to zeros and DST_LEN to 0 (R70). -/
def State.beginCommand (s : State) : State :=
  { s with cnt := Counters.zero, dst := Memory.zeroed, dstLen := 0, inCalls := 0, outCalls := 0 }

/-- The environment's choices were for this command (R38, R74; log entries 6 and 7). -/
def State.endCommand (s : State) : State :=
  { s with drawsU := [], drawsL := [], failIn := [], failOut := [], inCalls := 0, outCalls := 0 }

/-- `R[STATUS].CODE <- 0x00` and the command ends (R70). -/
def State.complete (s : State) : State := { s with status := setStatusCode s.status .ok }.endCommand

/-- `raise F` (R127): CODE ← F, STICKY ← 1, and the command ends. Nothing else changes: no state is saved, no vector is taken,
and what the command did before stays. OUTCOME and SYNDROME were written before (R102). -/
def State.raise (s : State) (c : Code) : State := { s with status := statusRaised s.status c }.endCommand

/-- The end of a command (R150). -/
def finish (r : Res Unit) : Host.Outcome State Fault Refusal :=
  match r with
  | .ok _ s => .next s.complete
  | .raised c s => .next (s.raise c)
  | .stuck f => .fault f

/-- The frame of R70 around a legal command: begin, check the operands, run the body, end. -/
def runCommand (operandsLegal : State → Bool) (body : State → Res Unit) (s : State) : Host.Outcome State Fault Refusal :=
  let s := s.beginCommand
  if operandsLegal s then finish (body s) else finish (.raised .configError s)

/-- The result of a block command: DST, zeroed before by R70, takes the bytes and DST_LEN their number (R51). -/
def State.writeResult (s : State) (bytes : List Byte) : State :=
  { s with dst := s.dst.writeBytes 0 bytes, dstLen := BitVec.ofNat 32 bytes.length }

/-- OUTCOME and SYNDROME of a block just classified (R102). -/
def State.recordClass (s : State) (k : BlockClass) (errorAddr : Nat) : State :=
  { s with outcome := outcomeWord k, syndrome := BitVec.ofNat 32 errorAddr }

/-! ### Streams (R53, R54, R57) -/

/-- The cursor of IN past n bytes, counted in BYTES_IN (R53). -/
def State.consume (s : State) (n : Nat) : State :=
  { s with
    inDone := s.inDone ++ s.inRest.take n
    inRest := s.inRest.drop n
    cnt := { s.cnt with bytesIn := s.cnt.bytesIn + BitVec.ofNat 64 (s.inRest.take n).length } }

/-- Bytes appended to OUT, counted in BYTES_OUT (R54). -/
def State.emit (s : State) (bytes : List Byte) : State :=
  { s with
    out := s.out ++ bytes
    cnt := { s.cnt with bytesOut := s.cnt.bytesOut + BitVec.ofNat 64 bytes.length } }

/-- One InRead more. -/
def State.countInCall (s : State) : State := { s with inCalls := s.inCalls + 1 }

/-- One OutWrite more. -/
def State.countOutCall (s : State) : State := { s with outCalls := s.outCalls + 1 }

/-- `InRead(n)` (R53): the host fails it and nothing is consumed, or the next min(n, remaining) bytes. -/
def inRead (n : Nat) (s : State) : Res (List Byte) :=
  let s := s.countInCall
  if s.inCalls ∈ s.failIn then .raised .ioError s else .ok (s.inRest.take n) (s.consume n)

/-- `OutWrite(b)` (R54): the host fails it and nothing is appended, or every byte is. -/
def outWrite (bytes : List Byte) (s : State) : Res Unit :=
  let s := s.countOutCall
  if s.outCalls ∈ s.failOut then .raised .ioError s else .ok () (s.emit bytes)

/-- What remains of a unit whose OutWrite failed, `before` being FLIPS at its beginning: the unit's own flips do not, for R129
leaves of a faulting unit only its InRead and the OUTCOME and SYNDROME it wrote (log entry 15). -/
def State.failedUnit (s : State) (before : DWord) : State :=
  { s with cnt := { s.cnt with flips := before } }

/-- The OutWrite of a unit, `before` being FLIPS at its beginning (R57, R54, R129). -/
def writeUnit (before : DWord) (bytes : List Byte) (s : State) : Res Unit :=
  match outWrite bytes s with
  | .ok a t => .ok a t
  | .raised c t => .raised c (t.failedUnit before)
  | .stuck f => .stuck f

/-- `R[UNITS] <- R[UNITS] + 1` (R57). -/
def State.countUnit (s : State) : State := { s with cnt := { s.cnt with units := s.cnt.units + 1 } }

/-- The loop of every stream command (R57): read a unit of n bytes at most, end at an empty read, transform it, write it,
count it. Each pass but the last consumes a byte, so more fuel than there are unread bytes never runs out
(`streamLoop_fuel` in Laws/Stream.lean). -/
def streamLoop (n : Nat) (transform : List Byte → State → Res (List Byte)) : Nat → State → Res Unit
  | 0, s => .ok () s
  | fuel + 1, s =>
    (inRead n s).bind fun X s =>
      if X = [] then .ok () s
      else
        (transform X s).bind fun Y t =>
          (writeUnit s.cnt.flips Y t).bind fun _ u => streamLoop n transform fuel u.countUnit

/-- A stream command's body. -/
def runStream (n : Nat) (transform : List Byte → State → Res (List Byte)) (s : State) : Res Unit :=
  streamLoop n transform (s.inRest.length + 1) s

/-! ### Entropy (R38) -/

/-- `DrawU32()`: the next answer; without one nothing happens any more (R143). -/
def drawU32 (s : State) : Res Word :=
  match s.drawsU with
  | [] => .stuck .entropyUnanswered
  | u :: us => .ok u { s with drawsU := us }

/-- `DrawLen(m)`: the next answer, which must be below m (R38). -/
def drawLen (m : Nat) (s : State) : Res Nat :=
  match s.drawsL with
  | [] => .stuck .entropyUnanswered
  | l :: ls => if l < m then .ok l { s with drawsL := ls } else .stuck .entropyOutOfRange

/-- `R[FLIPS] <- R[FLIPS] + 1`. -/
def State.countFlip (s : State) : State := { s with cnt := { s.cnt with flips := s.cnt.flips + 1 } }

end Sys2Proof.Machine
end

