-- ==== Sys2Proof/Machine/Operands.lean ====
section
/-! DEFINITION. The operand forms (spec/30_encoding.md R67, R71): register values as naturals, the operand in SRC; the sizes
of a Code Block (spec/40_encoder.md R76 to R83); and the operand check of each command (R70's CheckOperands). -/

namespace Sys2Proof.Machine

/-! ### Code Block sizes -/

/-- `parityBits(d)` (R76). -/
def parityBits (d : Nat) : Nat := bitLength d + 3

/-- `totalBits(d)` (R77). -/
def totalBits (d : Nat) : Nat := 8 * d + parityBits d + 1

/-- `codeSize(d)` (R78). -/
def codeSize (d : Nat) : Nat := ceilDiv (totalBits d) 8

/-- Whether d is a deficient layout (R81). -/
def deficient (d : Nat) : Bool := 1 ≤ d && 2 ^ parityBits d ≤ 8 * d + parityBits d

/-- `frameSize(d, g)` (R82). -/
def frameSize (d g : Nat) : Nat := codeSize d * g

/-! ### Register and buffer operands -/

/-- DPB as a natural: d of ENCS and DECS (R28). -/
def State.dpb (s : State) : Nat := s.ops.dpb.toNat

/-- GROUPS as a natural: g of ENCS and DECS, groups of ILV (R29). -/
def State.groups (s : State) : Nat := s.ops.groups.toNat

/-- DSIZE as a natural: n of DECB (R30). -/
def State.dsize (s : State) : Nat := s.ops.dsize.toNat

/-- P_NUM as a natural (R31). -/
def State.pNum (s : State) : Nat := s.ops.pNum.toNat

/-- P_DEN as a natural (R31). -/
def State.pDen (s : State) : Nat := s.ops.pDen.toNat

/-- MAXBURST as a natural (R32). -/
def State.maxBurst (s : State) : Nat := s.ops.maxBurst.toNat

/-- BUFSIZE as a natural (R33). -/
def State.bufSize (s : State) : Nat := s.ops.bufSize.toNat

/-- SRC_LEN as a natural (R34). -/
def State.srcLen (s : State) : Nat := s.ops.srcLen.toNat

/-- The operand `SRC[0 .. SRC_LEN)` (R34). -/
def State.srcOperand (s : State) : List Byte := s.src.readBytes 0 s.srcLen

/-! ### Operand checks: where one is false the command raises CONFIG_ERROR (R122) -/

/-- The check of ENCB (R87). -/
def encbOperandsLegal (s : State) : Bool :=
  1 ≤ s.srcLen && s.srcLen ≤ s.params.bufCap && !deficient s.srcLen && codeSize s.srcLen ≤ s.params.bufCap

/-- The check of ENCS (R90) and of DECS (R108): an admitted d and g (R83). -/
def codecStreamOperandsLegal (s : State) : Bool :=
  1 ≤ s.dpb && !deficient s.dpb && 1 ≤ s.groups && frameSize s.dpb s.groups ≤ s.params.frameCap

/-- The check of ILV (R98), the precondition of Interleave (R92). -/
def ilvOperandsLegal (s : State) : Bool :=
  s.srcLen ≤ s.params.bufCap && s.groups != 0 && 8 * s.srcLen % s.groups == 0

/-- The check of CORB (R104). -/
def corbOperandsLegal (s : State) : Bool := s.srcLen ≤ s.params.bufCap

/-- The check of DECB (R106). -/
def decbOperandsLegal (s : State) : Bool := s.srcLen ≤ s.params.bufCap && s.dsize ≤ s.params.bufCap

/-- The check of JAMB (R114). -/
def jambOperandsLegal (s : State) : Bool :=
  1 ≤ s.pNum && s.pNum ≤ s.pDen && 1 ≤ s.bufSize && s.bufSize ≤ s.params.frameCap

/-- The check of JAMR (R117). -/
def jamrOperandsLegal (s : State) : Bool := jambOperandsLegal s && 1 ≤ s.maxBurst

end Sys2Proof.Machine
end

