-- ==== Sys2Proof/Machine/Interleaver.lean ====
section
/-! DEFINITION. The Interleaver and its command ILV (spec/41_interleaver.md). -/

namespace Sys2Proof.Machine

/-- The copies of the two loops of R92, in their order: bit `i·bs + j` of S goes to address `j·groups + i`. -/
def interleaveCopies (S : List Byte) (groups : Nat) : List (Nat × Bool) :=
  (List.range groups).flatMap fun i =>
    (List.range (8 * S.length / groups)).map fun j =>
      (j * groups + i, bufBit S (i * (8 * S.length / groups) + j))

/-- `Interleave(S, groups)` where its precondition holds (R92): groups ≥ 1 and 8|S| a multiple of groups. ILV checks the
precondition with its operands; in ENCS and DECS it always holds (R89, R99). -/
def interleave (S : List Byte) (groups : Nat) : List Byte := bufSetAll (zeros S.length) (interleaveCopies S groups)

/-- ILV (R98). -/
def execIlv (s : State) : Host.Outcome State Fault Refusal :=
  runCommand ilvOperandsLegal (fun s => .ok () (s.writeResult (interleave s.srcOperand s.groups))) s

end Sys2Proof.Machine
end

