-- ==== Sys2Proof/Machine/Encoder.lean ====
section
/-! DEFINITION. The Encoder and its commands ENCB and ENCS (spec/40_encoder.md). -/

namespace Sys2Proof.Machine

/-- The data positions of a block of T bits: the addresses 3 ≤ a < T that are no power of two, ascending (R79). -/
def dataPositions (T : Nat) : List Nat := (addrs 3 T).filter (fun a => !isPow2 a)

/-- The walk of R84: source data bit s goes to the (s+1)-th data position (R79), into a block of zeros. -/
def placeData (D : List Byte) : List Byte :=
  bufSetAll (zeros (codeSize D.length))
    ((dataPositions (totalBits D.length)).zipIdx.map fun p => (p.1, bufBit D p.2))

/-- Parity k over a block of T bits: the XOR of its data bits whose address has value bit k set (R85). -/
def groupParity (C : List Byte) (T k : Nat) : Bool :=
  xorBits (((dataPositions T).filter (fun a => valBit a k)).map (bufBit C))

/-- The Hamming parity bits of R84, k ascending: bit 2^k is set where its group has odd parity. -/
def addGroupParities (C : List Byte) (T r : Nat) : List Byte :=
  (List.range r).foldl (fun C k => if groupParity C T k then bufSet C (2 ^ k) true else C) C

/-- The extended parity bit: bit 0 becomes the XOR of addresses 1 to T − 1 (R84, R86). -/
def addExtendedParity (C : List Byte) (T : Nat) : List Byte :=
  bufSet C 0 (xorBits ((addrs 1 T).map (bufBit C)))

/-- `EncodeBlock(D)` (R84). -/
def encodeBlock (D : List Byte) : List Byte :=
  let T := totalBits D.length
  addExtendedParity (addGroupParities (placeData D) T (parityBits D.length)) T

/-- ENCB (R87). -/
def execEncb (s : State) : Host.Outcome State Fault Refusal :=
  runCommand encbOperandsLegal (fun s => .ok () (s.writeResult (encodeBlock s.srcOperand))) s

/-- `EncodeFrame(P, d, g)` (R88). -/
def encodeFrame (P : List Byte) (d g : Nat) : List Byte :=
  (List.range g).flatMap fun i => encodeBlock (slice P (i * d) d)

/-- One unit of ENCS: the short final read zero-padded, encoded and interleaved (R89, R90). -/
def encodeUnit (d g : Nat) (X : List Byte) : List Byte :=
  interleave (encodeFrame (X ++ zeros (d * g - X.length)) d g) g

/-- ENCS (R90). -/
def execEncs (s : State) : Host.Outcome State Fault Refusal :=
  runCommand codecStreamOperandsLegal
    (fun s => runStream (s.dpb * s.groups) (fun X t => .ok (encodeUnit s.dpb s.groups X) t) s) s

end Sys2Proof.Machine
end

