-- ==== Sys2Proof/Machine/Decoder.lean ====
section
/-! DEFINITION. The Decoder/Corrector and its commands CORB, DECB and DECS (spec/42_decoder.md). -/

namespace Sys2Proof.Machine

/-- `errorAddr`: the XOR of the addresses 1 to L − 1 of the set bits, L = 8|B| (R100). -/
def errorAddr (B : List Byte) : Nat := xorNats ((addrs 1 (8 * B.length)).filter (bufBit B))

/-- `parityCheck`: the XOR of every bit, address 0 and the padding included (R100). -/
def parityCheck (B : List Byte) : Bool := xorBits ((addrs 0 (8 * B.length)).map (bufBit B))

/-- `ClassifyBlock(B)` (R100). -/
def classifyBlock (B : List Byte) : Nat × Bool := (errorAddr B, parityCheck B)

/-- `CorrectBlock(B)` (R102): OUTCOME and SYNDROME are written before either raise. -/
def correctBlock (B : List Byte) (s : State) : Res (List Byte) :=
  let e := (classifyBlock B).1
  let p := (classifyBlock B).2
  let s := s.recordClass (classOf e p) e
  if e = 0 then .ok B s
  else if p = false then .raised .doubleError s
  else if 8 * B.length ≤ e then .raised .malformedInput s
  else .ok (bufFlip B e) s

/-- CORB (R104). -/
def execCorb (s : State) : Host.Outcome State Fault Refusal :=
  runCommand corbOperandsLegal
    (fun s => (correctBlock s.srcOperand s).bind fun B s => .ok () (s.writeResult B)) s

/-- `DecodeBlock(B, n)` (R105): the bits at the data positions of the whole buffer, in order, until 8n are produced or the
buffer ends; the rest stay 0. -/
def decodeBlock (B : List Byte) (n : Nat) : List Byte :=
  bufSetAll (zeros n)
    (((dataPositions (8 * B.length)).take (8 * n)).zipIdx.map fun p => (p.2, bufBit B p.1))

/-- DECB (R106). -/
def execDecb (s : State) : Host.Outcome State Fault Refusal :=
  runCommand decbOperandsLegal (fun s => .ok () (s.writeResult (decodeBlock s.srcOperand s.dsize))) s

/-- The Code Blocks of a Transmission Frame, in order (R82). -/
def frameBlocks (Fr : List Byte) (cs g : Nat) : List (List Byte) := (List.range g).map fun i => slice Fr (i * cs) cs

/-- The blocks of a frame corrected and decoded in order; a raise stops the frame (R107). -/
def decodeBlocks (d : Nat) : List (List Byte) → State → Res (List Byte)
  | [], s => .ok [] s
  | B :: Bs, s =>
    (correctBlock B s).bind fun C s =>
      (decodeBlocks d Bs s).bind fun rest s => .ok (decodeBlock C d ++ rest) s

/-- `DecodeFrame(X, d, g)` (R107): de-interleave with group count 8·codeSize(d) (R99), then block by block. -/
def decodeFrame (X : List Byte) (d g : Nat) (s : State) : Res (List Byte) :=
  decodeBlocks d (frameBlocks (interleave X (8 * codeSize d)) (codeSize d) g) s

/-- One unit of DECS: a short read is a truncated frame (R108, R125). -/
def decodeUnit (d g : Nat) (X : List Byte) (s : State) : Res (List Byte) :=
  if X.length < frameSize d g then .raised .truncatedFrame s else decodeFrame X d g s

/-- DECS (R108). -/
def execDecs (s : State) : Host.Outcome State Fault Refusal :=
  runCommand codecStreamOperandsLegal
    (fun s => runStream (frameSize s.dpb s.groups) (decodeUnit s.dpb s.groups) s) s

end Sys2Proof.Machine
end

