-- ==== Sys2Proof/Machine/Noise.lean ====
section
/-! DEFINITION. The Noise Injector and its commands JAMB and JAMR (spec/43_noise.md). -/

namespace Sys2Proof.Machine

/-- `u / 2^32 < p`, exactly (R111, R113). -/
def flipTest (s : State) (u : Word) : Bool := u.toNat * s.pDen < s.pNum * 2 ^ 32

/-- The loop of R113 over the given addresses: one draw each, flip where the draw is below p. -/
def jamBits : List Nat → List Byte → State → Res (List Byte)
  | [], Y, s => .ok Y s
  | a :: as, Y, s =>
    (drawU32 s).bind fun u s =>
      if flipTest s u then jamBits as (bufFlip Y a) s.countFlip else jamBits as Y s

/-- `JamBitsBuffer(X)` (R113). -/
def jamBitsBuffer (X : List Byte) (s : State) : Res (List Byte) := jamBits (addrs 0 (8 * X.length)) X s

/-- JAMB (R114). -/
def execJamb (s : State) : Host.Outcome State Fault Refusal :=
  runCommand jambOperandsLegal (fun s => runStream s.bufSize jamBitsBuffer s) s

/-- `Trigger(u)`: `u / 2^32 < effectiveRate`, exactly (R115). -/
def trigger (s : State) (u : Word) : Bool := u.toNat * s.pDen * (1 + s.maxBurst) < 2 * s.pNum * 2 ^ 32

/-- The bits of one burst flipped and counted (R116). -/
def flipRun : List Nat → List Byte → State → List Byte × State
  | [], Y, s => (Y, s)
  | a :: as, Y, s => flipRun as (bufFlip Y a) s.countFlip

/-- The scan of R116 from cursor c over N bits. A burst of L bits starts at c and is cut at N; the cursor moves on by
max(L, 1). Each pass moves it, so N passes reach the end (`jamBurst_fuel` in Laws/Noise.lean). -/
def jamBurst (N : Nat) : Nat → Nat → List Byte → State → Res (List Byte)
  | 0, _, Y, s => .ok Y s
  | fuel + 1, c, Y, s =>
    if c < N then
      (drawU32 s).bind fun u s =>
        if trigger s u then
          (drawLen s.maxBurst s).bind fun L s =>
            jamBurst N fuel (c + max L 1) (flipRun (addrs c (min (c + L) N)) Y s).1
              (flipRun (addrs c (min (c + L) N)) Y s).2
        else jamBurst N fuel (c + 1) Y s
    else .ok Y s

/-- `JamBurstBuffer(X)` (R116). -/
def jamBurstBuffer (X : List Byte) (s : State) : Res (List Byte) := jamBurst (8 * X.length) (8 * X.length) 0 X s

/-- JAMR (R117). -/
def execJamr (s : State) : Host.Outcome State Fault Refusal :=
  runCommand jamrOperandsLegal (fun s => runStream s.bufSize jamBurstBuffer s) s

end Sys2Proof.Machine
end

