-- ==== Sys2Proof/Machine/Dispatch.lean ====
section
/-! DEFINITION. One arm per command: the meaning each legal command word runs (spec/30_encoding.md R68, R70). -/

namespace Sys2Proof.Machine

def exec (i : Instr) (s : State) : Host.Outcome State Fault Refusal :=
  match i with
  | .encb => Sys2Proof.Machine.execEncb s
  | .encs => Sys2Proof.Machine.execEncs s
  | .ilv => Sys2Proof.Machine.execIlv s
  | .corb => Sys2Proof.Machine.execCorb s
  | .decb => Sys2Proof.Machine.execDecb s
  | .decs => Sys2Proof.Machine.execDecs s
  | .jamb => Sys2Proof.Machine.execJamb s
  | .jamr => Sys2Proof.Machine.execJamr s

end Sys2Proof.Machine
end

