-- ==== Sys2Proof/Machine/HostPort.lean ====
section
/-! DEFINITION. What each operation of the host does (spec/10_state.md R24, R40, spec/30_encoding.md R65, R70, R74, R75,
spec/70_reset_and_hazards.md R140). -/

namespace Sys2Proof.Machine

/-- A command word w that raises before it does anything else: CMD takes w, and after the clearing that begins every command it
ends with the fault (R24, R70, R127). -/
def rejectCmd (w : Word) (c : Code) (s : State) : Host.Outcome State Fault Refusal :=
  finish (.raised c (s.issue w).beginCommand)

/-- A host write of w to CMD: CMD takes w, then the command it encodes is executed (R24, R70). An illegal word raises
ILLEGAL_COMMAND after the clearing that begins every command (R70, R121). -/
def writeCmd (w : Word) (s : State) : Host.Outcome State Fault Refusal :=
  match decode w with
  | .ok i => exec i (s.issue w)
  | .error _ => rejectCmd w .illegalCommand s

/-- A host write of w to a register: CMD executes, every other register as R40 says. -/
def hostWriteReg (r : Reg) (w : Word) (s : State) : Host.Outcome State Fault Refusal :=
  if r = .cmd then writeCmd w s else .next (s.writeReg r w)

/-- The offset of a bus address in the register block, where the access is one the model has: not below `REG_BASE` (R56),
one whole aligned word (R52). -/
def busOffset (s : State) (addr bytes : Nat) : Except Refusal Nat :=
  if addr < s.params.regBase then .error .notRegisterBlock
  else if bytes ≠ 4 ∨ (addr - s.params.regBase) % 4 ≠ 0 then .error .registerAccessShape
  else .ok (addr - s.params.regBase)

/-- A register write at a bus address; where no register is mapped it is ignored (R40). -/
def busWrite (addr bytes : Nat) (w : Word) (s : State) : Host.Outcome State Fault Refusal :=
  match busOffset s addr bytes with
  | .error r => .refused r
  | .ok off =>
    match regAt off with
    | some r => hostWriteReg r w s
    | none => .next s

/-- The word a host read returned (log entry 8). -/
def State.returned (s : State) (w : Word) : State := { s with busData := w }

/-- A register read at a bus address (R40). -/
def busRead (addr bytes : Nat) (s : State) : Host.Outcome State Fault Refusal :=
  match busOffset s addr bytes with
  | .error r => .refused r
  | .ok off => .next (s.returned (s.readOffset off))

/-- A host write of one byte of SRC, at an index below `BUF_CAP` (R40). -/
def hostWriteSrc (i : Nat) (b : Byte) (s : State) : Host.Outcome State Fault Refusal :=
  if i < s.params.bufCap then .next { s with src := s.src.write i b } else .fault .noSuchSrcByte

/-- A host read of one byte of SRC, at an index below `BUF_CAP` (R40). -/
def hostReadSrc (i : Nat) (s : State) : Host.Outcome State Fault Refusal :=
  if i < s.params.bufCap then .next (s.returned (0#24 ++ s.src.read i)) else .fault .noSuchSrcByte

/-- The host operations first in the list of those to be performed: how the pseudo-instructions of R75 expand. -/
def State.expandTo (s : State) (ops : List HostOp) : State := { s with pending := ops ++ s.pending }

/-- `LOAD` (R75): host writes `SRC[i] <- bi` for i = 0 .. n − 1, then `SET SRC_LEN, n`. -/
def loadOps (bytes : List Byte) : List HostOp :=
  bytes.zipIdx.map (fun p => HostOp.srcWrite p.2 p.1) ++ [.set .srcLen bytes.length]

/-- The bytes `DST[0 .. DST_LEN)` as the host reads them (R75's `TAKE`). -/
def State.dstResult (s : State) : List Byte := (List.range s.dstLen.toNat).map s.readDst

/-- `DILV <g>` (R75): `SET GROUPS, (8 × SRC_LEN) div g`, then `ILV`. With an illegal g, one that does not divide 8·SRC_LEN,
"the expansion still runs and ILV raises CONFIG_ERROR", also where R98 alone would admit GROUPS (log entry 16). With SRC_LEN = 0
every g is legal, GROUPS becomes 0 and ILV ends as R98 says (log entry 17). -/
def dilvOps (s : State) (g : Nat) : List HostOp :=
  [.set .groups (8 * s.srcLen / g), if 8 * s.srcLen % g = 0 then .run .ilv else .ilvRaising]

/-- Reset (R140): every register to its reset value, SRC and DST unspecified afresh (R42; log entry 2). IN and OUT, and what
else belongs to the host, stay (log entry 13). -/
def State.hostReset (s : State) : State :=
  { s with
    ops := OperandRegs.zero
    cmd := 0, status := 0, outcome := 0, syndrome := 0, dstLen := 0
    cnt := Counters.zero
    src := { fill := .unspecified s.fresh, cells := [] }
    dst := { fill := .unspecified (s.fresh + 1), cells := [] }
    fresh := s.fresh + 2 }

/-- One operation of the host (R74, R75, R40, R140). -/
def hostStep (op : HostOp) (s : State) : Host.Outcome State Fault Refusal :=
  match op with
  | .set r n => hostWriteReg r (registerValue n) s
  | .run i => writeCmd (encode i) s
  | .cmd w => writeCmd w s
  | .feed bytes => .next { s with inRest := s.inRest ++ bytes }
  | .entropy u l => .next { s with drawsU := u, drawsL := l }
  | .failIO .inRead k => .next { s with failIn := k :: s.failIn }
  | .failIO .outWrite k => .next { s with failOut := k :: s.failOut }
  | .load bytes => .next (s.expandTo (loadOps bytes))
  | .take => .next (s.expandTo [.load s.dstResult])
  | .pipe => .next { s with inRest := s.inRest ++ s.out, out := [] }
  | .dilv g => if g = 0 then .refused .dilvByZero else .next (s.expandTo (dilvOps s g))
  | .busWrite addr bytes w => busWrite addr bytes w s
  | .busRead addr bytes => busRead addr bytes s
  | .srcWrite i b => hostWriteSrc i b s
  | .srcRead i => hostReadSrc i s
  | .dstRead i => .next (s.returned (0#24 ++ s.readDst i))
  | .ilvRaising => rejectCmd (encode .ilv) .configError s
  | .reset => .next s.hostReset

/-- The host operation that issues the command word w, as `withFetchWord` puts it. -/
def issueOp (w : Word) : HostOp := .cmd w

end Sys2Proof.Machine
end

