-- ==== Sys2Proof/Machine/Step.lean ====
section
/-! DEFINITION. One step: the first pending operation of the host is performed, a CMD write with the whole command it issues
(spec/10_state.md R24). The CORE fetches nothing (R22). -/

namespace Sys2Proof.Machine

/-- One step. With no host operation left the CORE waits: "After reset the CORE waits for a CMD write" (R141). -/
def step (s : State) : Host.Outcome State Fault Refusal :=
  match s.pending with
  | [] => .next s
  | op :: rest => hostStep op { s with pending := rest }

/-- The command word w as the host's next CMD write (log entry 5). -/
def State.withFetchWord (s : State) (nbits w : Nat) : State :=
  { s with pending := issueOp (BitVec.ofNat 32 (w % 2 ^ nbits)) :: s.pending }

end Sys2Proof.Machine
end

