-- ==== Sys2Proof/WellFormed.lean ====
section
/-! DEFINITION. Which command words are legal (spec/30_encoding.md R66, R69), said without the decoder, and which
instructions are well formed. -/

namespace Sys2Proof

/-- An instruction carries no operand, so each of them is well formed (R67). -/
abbrev Instr.WellFormed (_ : Instr) : Prop := True

/-- The eight OPCODE values of R68 and R70. -/
def legalOpcodes : List Nat := [0x01, 0x02, 0x03, 0x04, 0x10, 0x11, 0x20, 0x21]

/-- R66: bits 31:8 (RSVD) are zero. -/
abbrev reservedZero (w : Word) : Prop := w.toNat / 2 ^ 8 = 0

/-- R66: bits 7:0 (OPCODE) hold one of the eight values of R68. -/
abbrev opcodeAssigned (w : Word) : Prop := w.toNat % 2 ^ 8 ∈ legalOpcodes

/-- R66: "A word is legal when RSVD = 0 and OPCODE is one of the eight values of rule R68." -/
abbrev LegalWord (w : Word) : Prop := reservedZero w ∧ opcodeAssigned w

end Sys2Proof
end

