-- ==== Sys2Proof/Safety.lean ====
section
/-! DEFINITION. What the claims about the CORE are said in: the invariant of the state, the operands each command is legal on,
how a command ended, and what it left alone. -/

namespace Sys2Proof.Machine

/-! ### The invariant -/

/-- What every state the CORE can be in satisfies: legal parameters (R8), SRC and DST canonical and within `BUF_CAP`, DST
listing nothing at or above DST_LEN (R51), the reserved bits of STATUS and OUTCOME zero (R25, R26), CODE one of the seven of
R120 and recorded in STICKY (R25), SYNDROME below 2^31 (R27) and zero exactly in the classes of R101 that say so, and the
model's own fields in order. -/
structure State.Inv (s : State) : Prop where
  params : s.params.wf
  srcWf : s.src.wf s.params.bufCap = true
  dstWf : s.dst.wf s.params.bufCap = true
  dstLen : s.dstLen.toNat ≤ s.params.bufCap
  dstBelowLen : ∀ c ∈ s.dst.cells, c.1 < s.dstLen.toNat
  statusReserved : s.status.toNat < 2 ^ 9
  codeKnown : s.code.toNat ≤ 6
  codeSticky : s.code ≠ 0x00#8 → s.sticky = true
  outcomeReserved : s.outcome.toNat < 4
  syndromeBound : s.syndrome.toNat < 2 ^ 31
  syndromeClass : s.syndrome = 0#32 ↔ s.outcome.toNat < 2
  noCall : s.inCalls = 0 ∧ s.outCalls = 0
  keys : ∀ m, (m = s.src ∨ m = s.dst) → ∀ k, m.fill = .unspecified k → k < s.fresh

/-! ### Operands -/

/-- A Data Block size whose layout has room for every data bit (R81, R83). -/
abbrev admittedSize (d : Nat) : Prop := 1 ≤ d ∧ 8 * d + parityBits d < 2 ^ parityBits d

/-- The operands a command is legal on, as its rule lists its checks (R87, R90, R98, R104, R106, R108, R114, R117). -/
def LegalOperands : Instr → State → Prop
  | .encb, s => admittedSize s.srcLen ∧ s.srcLen ≤ s.params.bufCap ∧ codeSize s.srcLen ≤ s.params.bufCap
  | .encs, s => admittedSize s.dpb ∧ 1 ≤ s.groups ∧ codeSize s.dpb * s.groups ≤ s.params.frameCap
  | .ilv, s => s.srcLen ≤ s.params.bufCap ∧ 1 ≤ s.groups ∧ 8 * s.srcLen % s.groups = 0
  | .corb, s => s.srcLen ≤ s.params.bufCap
  | .decb, s => s.srcLen ≤ s.params.bufCap ∧ s.dsize ≤ s.params.bufCap
  | .decs, s => admittedSize s.dpb ∧ 1 ≤ s.groups ∧ codeSize s.dpb * s.groups ≤ s.params.frameCap
  | .jamb, s => 1 ≤ s.pNum ∧ s.pNum ≤ s.pDen ∧ 1 ≤ s.bufSize ∧ s.bufSize ≤ s.params.frameCap
  | .jamr, s => 1 ≤ s.pNum ∧ s.pNum ≤ s.pDen ∧ 1 ≤ s.maxBurst ∧ 1 ≤ s.bufSize ∧ s.bufSize ≤ s.params.frameCap

/-- The stream commands (R68). -/
abbrev isStream (i : Instr) : Prop := i = .encs ∨ i = .decs ∨ i = .jamb ∨ i = .jamr

/-- The noise commands (R110). -/
abbrev isNoise (i : Instr) : Prop := i = .jamb ∨ i = .jamr

/-- The commands that classify blocks (R26). -/
abbrev classifies (i : Instr) : Prop := i = .corb ∨ i = .decs

/-- The host fails no InRead and no OutWrite of the next command ("no IO_ERROR", R144). -/
abbrev State.ioQuiet (s : State) : Prop := s.failIn = [] ∧ s.failOut = []

/-! ### How a command ended -/

/-- CODE is OK, STICKY and bits 31:9 of STATUS are as before. -/
abbrev endsOk (s t : State) : Prop := t.code = 0x00#8 ∧ t.sticky = s.sticky ∧ t.status >>> 9 = s.status >>> 9

/-- CODE is c, STICKY is set, bits 31:9 of STATUS are as before (R127). -/
abbrev endsRaised (c : BitVec 8) (s t : State) : Prop :=
  t.code = c ∧ t.sticky = true ∧ t.status >>> 9 = s.status >>> 9

/-- DST as the host sees it holds exactly these bytes: DST_LEN is their number, and every byte above them is 0 (R51). -/
abbrev dstHolds (t : State) (bytes : List Byte) : Prop :=
  t.dstLen.toNat = bytes.length ∧ t.dstResult = bytes ∧ ∀ i, bytes.length ≤ i → t.dst.read i = 0#8

/-! ### What a command leaves alone -/

/-- What no command writes: the parameters, every operand register, CMD and every byte of SRC (R21, R51), and of the model's
own fields the pending host operations, the last read word and the key counter (log entries 5, 8 and 2). IN, OUT and the
environment's choices are no part of it: `keepsStreams`, `readsAll` and `spendsChoices` speak of those. -/
abbrev keepsHost (s t : State) : Prop :=
  t.params = s.params ∧ t.ops = s.ops ∧ t.cmd = s.cmd ∧ (∀ i, t.src.read i = s.src.read i) ∧
    t.pending = s.pending ∧ t.busData = s.busData ∧ t.fresh = s.fresh

/-- Of the environment's choices for the next command none is left, and no stream call is counted (log entries 6 and 7). -/
abbrev spendsChoices (t : State) : Prop :=
  t.drawsU = [] ∧ t.drawsL = [] ∧ t.failIn = [] ∧ t.failOut = [] ∧ t.inCalls = 0 ∧ t.outCalls = 0

/-- OUTCOME and SYNDROME as before. -/
abbrev keepsClass (s t : State) : Prop := t.outcome = s.outcome ∧ t.syndrome = s.syndrome

/-- IN, its cursor and OUT as before. -/
abbrev keepsStreams (s t : State) : Prop := t.inDone = s.inDone ∧ t.inRest = s.inRest ∧ t.out = s.out

/-- What a block command that does not classify leaves alone, its counters being 0 (R36). -/
abbrev blockFrame (s t : State) : Prop :=
  keepsHost s t ∧ keepsClass s t ∧ keepsStreams s t ∧ t.cnt = Counters.zero

/-- IN read to its end: everything unread is consumed. -/
abbrev readsAll (s t : State) : Prop := t.inDone = s.inDone ++ s.inRest ∧ t.inRest = []

/-! ### Words for the results -/

/-- The number of bits of a buffer that are 1. -/
def setBits (B : List Byte) : Nat := ((addrs 0 (8 * B.length)).filter (bufBit B)).length

/-- The number of addresses below 8n at which two buffers differ. -/
def differingBits (n : Nat) (B C : List Byte) : Nat :=
  ((addrs 0 (8 * n)).filter (fun a => bufBit B a != bufBit C a)).length

/-- A buffer with the bits at the given addresses inverted, one after the other. -/
def flipAll (B : List Byte) (A : List Nat) : List Byte := A.foldl bufFlip B

/-- A block that CorrectBlock returns (R101): no error, or a flip it can undo. -/
abbrev correctable (B : List Byte) : Prop := errorAddr B = 0 ∨ (parityCheck B = true ∧ errorAddr B < 8 * B.length)

/-- What CorrectBlock returns for such a block (R101). -/
def corrected (B : List Byte) : List Byte := if errorAddr B = 0 then B else bufFlip B (errorAddr B)

/-- The Code Blocks of the k-th interleaved frame of a stream (R107, R82). -/
def streamBlocks (x : List Byte) (d g k : Nat) : List (List Byte) :=
  frameBlocks (interleave (slice x (k * frameSize d g) (frameSize d g)) (8 * codeSize d)) (codeSize d) g

/-- C is the Code Block of the Data Block D: its length (R78), the data bits at the data positions in ascending order (R79),
each parity bit over its group (R85), the extended parity bit over addresses 1 to T − 1 (R86), and zero padding (R80). -/
structure IsCodeBlock (D C : List Byte) : Prop where
  length : C.length = codeSize D.length
  data : ∀ n a, (dataPositions (totalBits D.length))[n]? = some a → bufBit C a = bufBit D n
  parity : ∀ k < parityBits D.length,
    bufBit C (2 ^ k) = xorBits (((dataPositions (totalBits D.length)).filter (valBit · k)).map (bufBit C))
  extended : bufBit C 0 = xorBits ((addrs 1 (totalBits D.length)).map (bufBit C))
  padding : ∀ a, totalBits D.length ≤ a → a < 8 * C.length → bufBit C a = false

/-- The most bytes one InRead of a stream command asks for (R90, R108, R112). -/
def unitSize : Instr → State → Nat
  | .encs, s => s.dpb * s.groups
  | .decs, s => frameSize s.dpb s.groups
  | .jamb, s => s.bufSize
  | .jamr, s => s.bufSize
  | .encb, _ => 0
  | .ilv, _ => 0
  | .corb, _ => 0
  | .decb, _ => 0

/-! ### The scan of JAMR -/

/-- How the draws of one buffer fall out in the scan of R116: for each burst, how many draws before it do not trigger, and the
length drawn. -/
abbrev BurstPlan := List (Nat × Nat)

/-- Where each burst of a plan starts, and its length, for a scan that goes on from cursor c: "advancing the scan cursor past
the burst", by one for an empty burst (R116). -/
def burstsFrom : Nat → BurstPlan → List (Nat × Nat)
  | _, [] => []
  | c, p :: ps => (c + p.1, p.2) :: burstsFrom (c + p.1 + max p.2 1) ps

/-- The cursor after the last burst of a plan. -/
def cursorAfter : Nat → BurstPlan → Nat
  | c, [] => c
  | c, p :: ps => cursorAfter (c + p.1 + max p.2 1) ps

/-- Which draws trigger, up to and with the last burst of a plan. -/
def burstTriggers (ps : BurstPlan) : List Bool := ps.flatMap fun p => List.replicate p.1 false ++ [true]

/-- Which draws of a buffer of N bits trigger: none after the last burst. -/
def planTriggers (N : Nat) (ps : BurstPlan) : List Bool :=
  burstTriggers ps ++ List.replicate (N - cursorAfter 0 ps) false

/-- The bits of the k-th buffer that JAMB or JAMR reads (R112). -/
def State.bufferBits (s : State) (k : Nat) : Nat := 8 * min s.bufSize (s.inRest.length - k * s.bufSize)

/-- Which answers to DrawU32 trigger, by the test of R115. -/
def State.triggers (s : State) : List Bool :=
  s.drawsU.map fun u => decide (u.toNat * s.pDen * (1 + s.maxBurst) < 2 * s.pNum * 2 ^ 32)

/-- The triggers of whole buffers under their plans, one draw sequence across them (R112). -/
def State.plannedTriggers (s : State) (plans : List BurstPlan) : List Bool :=
  plans.zipIdx.flatMap fun p => planTriggers (s.bufferBits p.2) p.1

/-- The lengths drawn under plans, in order. -/
def plannedLengths (plans : List BurstPlan) : List Nat := plans.flatMap fun ps => ps.map Prod.snd

/-- Every burst of the plan for the k-th buffer starts in that buffer and has a length in the range of DrawLen (R38). -/
def State.planFits (s : State) (k : Nat) (ps : BurstPlan) : Prop :=
  ∀ b ∈ burstsFrom 0 ps, b.1 < s.bufferBits k ∧ b.2 < s.maxBurst

/-! ### The host's writes -/

/-- The host operation that writes the word w to CMD, in each of the ways the host has: `CMD w`, a mnemonic, `SET CMD, w`,
and a bus write at `REG_BASE`. -/
def IssuesWord (p : Params) (w : Word) (op : HostOp) : Prop :=
  op = .cmd w ∨ (∃ i, op = .run i ∧ w = encode i) ∨ op = .set .cmd w.toNat ∨ op = .busWrite p.regBase 4 w

/-- The offsets of the registers the host only reads (R23). -/
def readOnlyOffsets : List Nat :=
  [0x04, 0x08, 0x0C, 0x30, 0x38, 0x3C, 0x40, 0x44, 0x48, 0x4C, 0x50, 0x54]

/-- The offsets of the operand registers (R23). -/
def operandOffsets : List Nat := [0x10, 0x14, 0x18, 0x1C, 0x20, 0x24, 0x28, 0x2C]

end Sys2Proof.Machine
end

