-- ==== Sys2Proof/Certificates/Slice0/Obligations.lean ====
section
/-! DEFINITION. What the model is claimed to do, stated for the provers. The words the claims are said in stand in
Sys2Proof/Safety.lean. -/

open Sys2Proof Sys2Proof.Machine

/-! ### Reset, words and steps -/

/-- R140: what reset does, in whatever state it comes. IN and OUT stay with the host. -/
def Obligations.ResetClearsEveryRegister : Prop :=
  ∀ (s : State) (rest : List HostOp), s.pending = .reset :: rest →
    ∃ t, step s = .next t ∧ (∀ off, t.readOffset off = 0#32) ∧ t.sticky = false ∧ t.cnt = Counters.zero ∧
      t.dstLen = 0#32 ∧ (∀ i, t.readDst i = 0#8) ∧ keepsStreams s t ∧ t.params = s.params ∧ t.pending = rest

/-- R142 with R42: right after reset every register reads 0, the six commands whose operand 0 is illegal end with CONFIG_ERROR, and
CORB and DECB, with SRC_LEN = 0, end OK. -/
def Obligations.BootNeedsOperands : Prop :=
  (∀ off, State.reset.readOffset off = 0#32) ∧
    (∀ i, i = .encb ∨ i = .encs ∨ i = .ilv ∨ i = .decs ∨ i = .jamb ∨ i = .jamr →
      ∃ t, exec i State.reset = .next t ∧ endsRaised 0x02#8 State.reset t) ∧
    (∀ i, i = .corb ∨ i = .decb → ∃ t, exec i State.reset = .next t ∧ endsOk State.reset t)

/-- The state after reset meets the invariant; its parameters are the model's choice of log entry 1. -/
def Obligations.ResetMeetsInvariant : Prop := State.reset.Inv

/-- Every step, a command or another operation of the host, keeps the invariant. -/
def Obligations.EveryStepKeepsInvariant : Prop :=
  ∀ s t, s.Inv → step s = .next t → t.Inv

/-- R66, R69: a word decodes exactly when it is legal, and otherwise is rejected by name. -/
def Obligations.LegalWordsAreTheDecodedOnes : Prop :=
  ∀ w : Word, ((∃ i, decode w = .ok i) ↔ LegalWord w) ∧
    (decode w = .error .reservedNonzero ↔ ¬ reservedZero w) ∧
    (decode w = .error .opcodeUnassigned ↔ reservedZero w ∧ ¬ opcodeAssigned w)

/-- Decoding and encoding are inverse to each other, in both directions. -/
def Obligations.DecodeAndEncodeAgree : Prop :=
  (∀ i : Instr, i.WellFormed → decode (encode i) = .ok i) ∧ ∀ (w : Word) (i : Instr), decode w = .ok i → encode i = w

/-- R68: the eight command words, and two that are not. -/
def Obligations.OpcodeMapWords : Prop :=
  decode 0x00000001#32 = .ok .encb ∧ decode 0x00000010#32 = .ok .encs ∧ decode 0x00000004#32 = .ok .ilv ∧
    decode 0x00000002#32 = .ok .corb ∧ decode 0x00000003#32 = .ok .decb ∧ decode 0x00000011#32 = .ok .decs ∧
    decode 0x00000020#32 = .ok .jamb ∧ decode 0x00000021#32 = .ok .jamr ∧
    decode 0x00000101#32 = .error .reservedNonzero ∧ decode 0x00000005#32 = .error .opcodeUnassigned

/-- R24: a host write of a word to CMD stores it and, where it is legal, executes its command as this one step. -/
def Obligations.StepRunsTheIssuedCommand : Prop :=
  ∀ (s : State) (op : HostOp) (rest : List HostOp) (w : Word) (i : Instr),
    s.pending = op :: rest → IssuesWord s.params w op → decode w = .ok i →
      step s = exec i { s with pending := rest, cmd := w }

/-- R121, R69: an illegal word ends with ILLEGAL_COMMAND whatever the operands are; only CMD, STATUS, the counters and DST are
written. -/
def Obligations.IllegalWordRaisesIllegalCommand : Prop :=
  ∀ (s : State) (op : HostOp) (rest : List HostOp) (w : Word),
    s.pending = op :: rest → IssuesWord s.params w op → ¬ LegalWord w →
      ∃ t, step s = .next t ∧ t.cmd = w ∧ endsRaised 0x01#8 s t ∧ t.ops = s.ops ∧ keepsClass s t ∧ keepsStreams s t ∧
        (∀ i, t.src.read i = s.src.read i) ∧ t.cnt = Counters.zero ∧ dstHolds t [] ∧ t.params = s.params ∧
        t.pending = rest ∧ t.fresh = s.fresh

/-- R141 and log entry 5: with no operation of the host to come, the CORE waits. -/
def Obligations.IdleCoreWaits : Prop := ∀ s : State, s.pending = [] → step s = .next s

/-! ### The host's accesses -/

/-- R40, R52 and R55, one clause per access rule. Where the returned word stands is log entry 8, the name of the refusal is log
entry 10, and a read of DST at and above `BUF_CAP` is log entry 11. -/
def Obligations.HostAccessRules : Prop :=
  ∀ (s : State) (rest : List HostOp),
    (∀ off w, off % 4 = 0 → off ∈ readOnlyOffsets ∨ off = 0x34 ∨ 0x58 ≤ off →
      s.pending = .busWrite (s.params.regBase + off) 4 w :: rest → step s = .next { s with pending := rest }) ∧
    (∀ r n, r.offset ∈ readOnlyOffsets → s.pending = .set r n :: rest → step s = .next { s with pending := rest }) ∧
    (∀ off, off % 4 = 0 → off = 0x34 ∨ 0x58 ≤ off → s.pending = .busRead (s.params.regBase + off) 4 :: rest →
      step s = .next { s with pending := rest, busData := 0#32 }) ∧
    (∀ off n w, n ≠ 4 ∨ off % 4 ≠ 0 → s.pending = .busWrite (s.params.regBase + off) n w :: rest →
      step s = .refused .registerAccessShape) ∧
    (∀ off n, n ≠ 4 ∨ off % 4 ≠ 0 → s.pending = .busRead (s.params.regBase + off) n :: rest →
      step s = .refused .registerAccessShape) ∧
    (∀ i b, i < s.params.bufCap → s.pending = .srcWrite i b :: rest →
      ∃ m, step s = .next { s with pending := rest, src := m } ∧ ∀ j, m.read j = if j = i then b else s.src.read j) ∧
    (∀ i, i < s.params.bufCap → s.pending = .srcRead i :: rest →
      ∃ w : Word, step s = .next { s with pending := rest, busData := w } ∧ w.toNat = (s.src.read i).toNat) ∧
    (∀ i, s.pending = .dstRead i :: rest →
      ∃ w : Word, step s = .next { s with pending := rest, busData := w } ∧
        (i < s.dstLen.toNat → w.toNat = (s.dst.read i).toNat) ∧ (s.dstLen.toNat ≤ i → w = 0#32))

/-- R23, R28 to R34: a host write of an operand register, by name or by address, changes what that register reads and nothing
else. -/
def Obligations.HostWritesOperandRegister : Prop :=
  ∀ (s : State) (rest : List HostOp) (r : Reg) (w : Word), r.offset ∈ operandOffsets →
    s.pending = .set r w.toNat :: rest ∨ s.pending = .busWrite (s.params.regBase + r.offset) 4 w :: rest →
      ∃ o, step s = .next { s with pending := rest, ops := o } ∧
        ∀ off, ({ s with ops := o } : State).readOffset off = if off = r.offset then w else s.readOffset off

/-- R23, R36, R55: a host read of a mapped register returns it and changes nothing; a 64-bit counter is its two words. -/
def Obligations.HostReadsRegister : Prop :=
  ∀ (s : State) (rest : List HostOp) (r : Reg), s.pending = .busRead (s.params.regBase + r.offset) 4 :: rest →
    step s = .next { s with pending := rest, busData := s.readReg r } ∧
      (s.readReg .flipsLo).toNat + 2 ^ 32 * (s.readReg .flipsHi).toNat = s.cnt.flips.toNat ∧
      (s.readReg .unitsLo).toNat + 2 ^ 32 * (s.readReg .unitsHi).toNat = s.cnt.units.toNat ∧
      (s.readReg .bytesInLo).toNat + 2 ^ 32 * (s.readReg .bytesInHi).toNat = s.cnt.bytesIn.toNat ∧
      (s.readReg .bytesOutLo).toNat + 2 ^ 32 * (s.readReg .bytesOutHi).toNat = s.cnt.bytesOut.toNat

/-- R75: LOAD puts its n bytes into `SRC[0 .. n)` and n into SRC_LEN, in n + 2 steps of the model, and leaves the other bytes
of SRC and everything else alone. -/
def Obligations.LoadFillsTheOperand : Prop :=
  ∀ (s : State) (bytes : List Byte) (rest : List HostOp), s.params.wf → s.pending = .load bytes :: rest →
    bytes.length ≤ s.params.bufCap →
      ∃ m, Host.Core.run Sys2Proof.core (bytes.length + 2) s =
          .next { s with pending := rest, src := m, ops := { s.ops with srcLen := BitVec.ofNat 32 bytes.length } } ∧
        (∀ i, m.read i = (bytes[i]?).getD (s.src.read i))

/-- R75: TAKE makes the result in DST the operand in SRC. -/
def Obligations.TakeMakesTheResultTheOperand : Prop :=
  ∀ (s : State) (rest : List HostOp), s.Inv → s.pending = .take :: rest →
    ∃ t, Host.Core.run Sys2Proof.core (s.dstLen.toNat + 3) s = .next t ∧ t.srcOperand = s.dstResult ∧
      t.ops.srcLen = s.dstLen ∧ t.pending = rest ∧ t.dst = s.dst ∧ t.dstLen = s.dstLen

/-- R75, R95: DILV g undoes an interleave with g groups. R75: with an illegal g the expansion still runs, GROUPS takes the
quotient and ILV raises CONFIG_ERROR, also where R98 alone would admit the quotient (log entry 16). The rest is the model's: for
an empty operand the quotient is 0, so ILV raises CONFIG_ERROR (log entry 17); the three steps are log entry 12, the refusal of
DILV 0 is log entry 10. -/
def Obligations.DilvRestoresTheOriginal : Prop :=
  (∀ (s : State) (S : List Byte) (g : Nat) (rest : List HostOp), s.params.wf → s.pending = .dilv g :: rest →
    s.srcLen ≤ s.params.bufCap → s.srcOperand = interleave S g → 1 ≤ g → 8 * S.length % g = 0 →
      ∃ t, Host.Core.run Sys2Proof.core 3 s = .next t ∧ t.pending = rest ∧
        (S ≠ [] → endsOk s t ∧ dstHolds t S) ∧ (S = [] → endsRaised 0x02#8 s t)) ∧
  (∀ (s : State) (g : Nat) (rest : List HostOp), s.pending = .dilv g :: rest → 1 ≤ g → 8 * s.srcLen % g ≠ 0 →
    ∃ t, Host.Core.run Sys2Proof.core 3 s = .next t ∧ t.pending = rest ∧ t.cmd = encode .ilv ∧ endsRaised 0x02#8 s t ∧
      keepsClass s t ∧ keepsStreams s t ∧ dstHolds t [] ∧ (8 * s.srcLen / g < 2 ^ 32 → t.groups = 8 * s.srcLen / g)) ∧
  ∀ (s : State) (rest : List HostOp), s.pending = .dilv 0 :: rest → step s = .refused .dilvByZero

/-! ### What holds of every command -/

/-- R21, R51: no command writes an operand register, CMD, SRC or the parameters, nor, of the model's own fields, the pending
host operations, the last read word and the key counter (log entries 5, 8 and 2). What a command does to IN, OUT and the
environment's choices, the host's too, is in the statements on streams and in `EveryCommandSpendsTheChoices`. -/
def Obligations.CommandsKeepTheHostsState : Prop := ∀ i s t, exec i s = .next t → keepsHost s t

/-- Log entries 6 and 7, the model's reading of R38 and R74: every command, an illegal word too, ends with no entropy answer and
no planned I/O failure left. -/
def Obligations.EveryCommandSpendsTheChoices : Prop :=
  (∀ i s t, exec i s = .next t → spendsChoices t) ∧
    ∀ (s t : State) (op : HostOp) (rest : List HostOp) (w : Word), s.pending = op :: rest → IssuesWord s.params w op →
      step s = .next t → spendsChoices t

/-- R25, R120: every command, an illegal word too, writes CODE with one of the seven codes and sets STICKY when it is not OK;
no step but reset clears STICKY, which reset does; the reserved bits of STATUS read 0. -/
def Obligations.StickyRecordsEveryFault : Prop :=
  (∀ i s t, exec i s = .next t →
    t.code.toNat ≤ 6 ∧ (t.sticky = true ↔ s.sticky = true ∨ t.code ≠ 0x00#8) ∧ t.status >>> 9 = s.status >>> 9) ∧
  (∀ s t op rest w, s.pending = op :: rest → IssuesWord s.params w op → step s = .next t →
    t.code.toNat ≤ 6 ∧ (t.sticky = true ↔ s.sticky = true ∨ t.code ≠ 0x00#8)) ∧
  (∀ s t, step s = .next t → (∀ rest, s.pending ≠ .reset :: rest) → s.sticky = true → t.sticky = true) ∧
  (∀ s rest, s.pending = .reset :: rest → ∃ t, step s = .next t ∧ t.sticky = false) ∧
  State.reset.status >>> 9 = 0#32 ∧ ∀ s t, step s = .next t → s.status >>> 9 = 0#32 → t.status >>> 9 = 0#32

/-- R39, R36: the cursor of IN only moves forward, OUT is only appended to, BYTES_IN and BYTES_OUT count both, and block
commands touch neither. -/
def Obligations.StreamsOnlyMoveForward : Prop :=
  ∀ i s t, exec i s = .next t →
    ∃ xs ys, t.inDone = s.inDone ++ xs ∧ s.inRest = xs ++ t.inRest ∧ t.out = s.out ++ ys ∧
      t.cnt.bytesIn = BitVec.ofNat 64 xs.length ∧ t.cnt.bytesOut = BitVec.ofNat 64 ys.length ∧
      (¬ isStream i → xs = [] ∧ ys = [] ∧ t.cnt = Counters.zero)

/-- R26, R27: OUTCOME and SYNDROME are written only by CORB and DECS. -/
def Obligations.OnlyTheCorrectorWritesTheClass : Prop :=
  ∀ i s t, ¬ classifies i → exec i s = .next t → keepsClass s t

/-- R35, R51, R127: a command that faults, and every stream command, leaves DST_LEN = 0 and DST all zero. -/
def Obligations.FaultsAndStreamsLeaveNoResult : Prop :=
  ∀ i s t, exec i s = .next t → t.code ≠ 0x00#8 ∨ isStream i → dstHolds t []

/-- R143, R38: no command but JAMB and JAMR can fail to end, and those only for want of an entropy answer in range. -/
def Obligations.OnlyEntropyCanStopACommand : Prop :=
  (∀ i s, ¬ isNoise i → ∃ t, exec i s = .next t) ∧
    (∀ s, (∃ t, exec .jamb s = .next t) ∨ exec .jamb s = .fault .entropyUnanswered) ∧
    ∀ s, (∃ t, exec .jamr s = .next t) ∨ exec .jamr s = .fault .entropyUnanswered ∨ exec .jamr s = .fault .entropyOutOfRange

/-- R122: illegal operands raise CONFIG_ERROR before anything is read or written, and nothing else raises it. -/
def Obligations.ConfigErrorExactlyOnIllegalOperands : Prop :=
  (∀ i s, ¬ LegalOperands i s →
    ∃ t, exec i s = .next t ∧ endsRaised 0x02#8 s t ∧ blockFrame s t ∧ dstHolds t []) ∧
  ∀ i s t, LegalOperands i s → exec i s = .next t → t.code ≠ 0x02#8

/-- R71: the result of a block command depends on SRC_LEN, its operand bytes, and for ILV on GROUPS, for DECB on DSIZE. -/
def Obligations.BlockResultsDependOnListedOperands : Prop :=
  ∀ i s u t, ¬ isStream i → s.params.bufCap = u.params.bufCap → s.ops.srcLen = u.ops.srcLen →
    s.srcOperand = u.srcOperand → (i = .ilv → s.ops.groups = u.ops.groups) → (i = .decb → s.ops.dsize = u.ops.dsize) →
      exec i s = .next t →
        ∃ v, exec i u = .next v ∧ v.code = t.code ∧ v.dstLen = t.dstLen ∧ (∀ k, v.readDst k = t.readDst k) ∧
          (i = .corb → t.code ≠ 0x02#8 → v.outcome = t.outcome ∧ v.syndrome = t.syndrome)

/-- R71: what a stream command writes depends on its listed operands, IN and the answers of the environment. DECS writes OUTCOME
and SYNDROME where it classifies a block, which it does where it reads a whole frame. -/
def Obligations.StreamResultsDependOnListedOperands : Prop :=
  ∀ i s u t, isStream i → s.params.frameCap = u.params.frameCap →
    (i = .encs ∨ i = .decs → s.ops.dpb = u.ops.dpb ∧ s.ops.groups = u.ops.groups) →
    (isNoise i → s.ops.pNum = u.ops.pNum ∧ s.ops.pDen = u.ops.pDen ∧ s.ops.bufSize = u.ops.bufSize) →
    (i = .jamr → s.ops.maxBurst = u.ops.maxBurst) →
    s.inRest = u.inRest → s.failIn = u.failIn → s.failOut = u.failOut → s.drawsU = u.drawsU → s.drawsL = u.drawsL →
      exec i s = .next t →
        ∃ v ys, exec i u = .next v ∧ v.code = t.code ∧ v.cnt = t.cnt ∧ v.inRest = t.inRest ∧
          t.out = s.out ++ ys ∧ v.out = u.out ++ ys ∧
          (i = .decs →
            (LegalOperands .decs s ∧ 1 ∉ s.failIn ∧ frameSize s.dpb s.groups ≤ s.inRest.length →
              v.outcome = t.outcome ∧ v.syndrome = t.syndrome) ∧
            (¬ (LegalOperands .decs s ∧ 1 ∉ s.failIn ∧ frameSize s.dpb s.groups ≤ s.inRest.length) →
              keepsClass s t ∧ keepsClass u v))

/-! ### The Encoder -/

/-- R81: how many data positions a layout has, and which sizes are deficient. -/
def Obligations.DataPositionsOfALayout : Prop :=
  (∀ d, admittedSize d → deficient d = false ∧ (dataPositions (totalBits d)).length = 8 * d) ∧
    (∀ d, deficient d = true → (dataPositions (totalBits d)).length = 8 * d - 1) ∧
    ∀ d b m, 1 ≤ d → b = bitLength d → d + m = 2 ^ b → (deficient d = true ↔ 8 * m ≤ b + 3)

/-- R87: ENCB puts the Code Block of the operand into DST. -/
def Obligations.EncbWritesTheCodeBlock : Prop :=
  ∀ s : State, s.params.wf → LegalOperands .encb s →
    ∃ t C, exec .encb s = .next t ∧ endsOk s t ∧ blockFrame s t ∧ dstHolds t C ∧ IsCodeBlock s.srcOperand C

/-- R86: in what EncodeBlock returns every parity group and the whole block have even parity, so ClassifyBlock finds nothing. -/
def Obligations.CodeBlocksHaveZeroSyndrome : Prop :=
  ∀ D : List Byte, admittedSize D.length →
    bufBit (encodeBlock D) 0 = xorBits ((addrs 1 (totalBits D.length)).map (bufBit (encodeBlock D))) ∧
      xorBits ((addrs 0 (8 * codeSize D.length)).map (bufBit (encodeBlock D))) = false ∧
      (∀ k < parityBits D.length,
        xorBits (((addrs 0 (8 * codeSize D.length)).filter (valBit · k)).map (bufBit (encodeBlock D))) = false) ∧
      classifyBlock (encodeBlock D) = (0, false)

/-- R90, R89: ENCS writes one interleaved frame per d·g bytes of IN, the last one padded with zeros: bit j of Code Block i of
frame k is at address j·g + i of that frame. -/
def Obligations.EncsWritesInterleavedFrames : Prop :=
  ∀ s : State, LegalOperands .encs s → s.ioQuiet →
    ∃ t ys, exec .encs s = .next t ∧ endsOk s t ∧ keepsHost s t ∧ keepsClass s t ∧ readsAll s t ∧ dstHolds t [] ∧
      t.out = s.out ++ ys ∧ ys.length = ceilDiv s.inRest.length (s.dpb * s.groups) * frameSize s.dpb s.groups ∧
      (∀ k < ceilDiv s.inRest.length (s.dpb * s.groups), ∀ i < s.groups, ∀ j < 8 * codeSize s.dpb,
        bufBit ys (8 * (k * frameSize s.dpb s.groups) + (j * s.groups + i)) =
          bufBit (encodeBlock
            (slice (s.inRest ++ zeros (s.dpb * s.groups)) ((k * s.groups + i) * s.dpb) s.dpb)) j) ∧
      t.cnt = { flips := 0, units := BitVec.ofNat 64 (ceilDiv s.inRest.length (s.dpb * s.groups)),
                bytesIn := BitVec.ofNat 64 s.inRest.length, bytesOut := BitVec.ofNat 64 ys.length }

/-! ### The Interleaver -/

/-- R98, R92: ILV moves bit i·bs + j of the operand to address j·groups + i of the result. -/
def Obligations.IlvTransposesTheOperand : Prop :=
  ∀ s : State, s.params.wf → LegalOperands .ilv s →
    ∃ t O, exec .ilv s = .next t ∧ endsOk s t ∧ blockFrame s t ∧ dstHolds t O ∧ O.length = s.srcLen ∧
      ∀ i < s.groups, ∀ j < 8 * s.srcLen / s.groups,
        bufBit O (j * s.groups + i) = bufBit s.srcOperand (i * (8 * s.srcLen / s.groups) + j)

/-- R94: the length stays, the map is a bijection of the addresses, and the number of set bits stays. -/
def Obligations.InterleavePermutesTheBits : Prop :=
  ∀ (S : List Byte) (groups : Nat), 1 ≤ groups → 8 * S.length % groups = 0 →
    (interleave S groups).length = S.length ∧ setBits (interleave S groups) = setBits S ∧
      ∀ b < 8 * S.length, ∃ a, a < 8 * S.length ∧ bufBit (interleave S groups) b = bufBit S a ∧
        ∃ i j, i < groups ∧ j < 8 * S.length / groups ∧ a = i * (8 * S.length / groups) + j ∧ b = j * groups + i ∧
          ∀ i' j', i' < groups → j' < 8 * S.length / groups → b = j' * groups + i' → i' = i ∧ j' = j

/-- R95: the inverse is the interleave with the swapped count, which is always legal; the empty buffer stays empty. -/
def Obligations.InterleaveInverseIsTheSwappedCount : Prop :=
  (∀ (S : List Byte) (groups : Nat), S ≠ [] → 1 ≤ groups → 8 * S.length % groups = 0 →
    1 ≤ 8 * S.length / groups ∧ 8 * S.length % (8 * S.length / groups) = 0 ∧
      interleave (interleave S groups) (8 * S.length / groups) = S) ∧
  ∀ groups, 1 ≤ groups → interleave [] groups = []

/-- R96: the same count twice restores the buffer for a square matrix, and not in general. -/
def Obligations.SameCountTwiceRestoresSquares : Prop :=
  (∀ (S : List Byte) (groups : Nat), groups * groups = 8 * S.length → interleave (interleave S groups) groups = S) ∧
    ∃ (S : List Byte) (groups : Nat), 1 ≤ groups ∧ 8 * S.length % groups = 0 ∧
      interleave (interleave S groups) groups ≠ S

/-- R97: the identity cases. -/
def Obligations.InterleaveIdentityCases : Prop :=
  (∀ S : List Byte, interleave S 1 = S) ∧ (∀ S : List Byte, 1 ≤ S.length → interleave S (8 * S.length) = S) ∧
    ∀ groups, 1 ≤ groups → interleave [] groups = []

/-! ### The Corrector and the Decoder -/

/-- R102, R101: CORB records the class and the syndrome, and then returns the block, flips the one bit, or raises. -/
def Obligations.CorbFollowsTheDecisionTable : Prop :=
  ∀ s : State, s.params.wf → LegalOperands .corb s →
    ∃ t, exec .corb s = .next t ∧ keepsHost s t ∧ keepsStreams s t ∧ t.cnt = Counters.zero ∧
      t.syndrome.toNat = errorAddr s.srcOperand ∧
      (errorAddr s.srcOperand = 0 → endsOk s t ∧ dstHolds t s.srcOperand ∧
        t.outcome = if parityCheck s.srcOperand = true then 1#32 else 0#32) ∧
      (errorAddr s.srcOperand ≠ 0 → parityCheck s.srcOperand = true → t.outcome = 2#32 ∧
        (errorAddr s.srcOperand < 8 * s.srcLen → endsOk s t ∧
          ∃ C, dstHolds t C ∧ C.length = s.srcLen ∧ ∀ a < 8 * s.srcLen,
            (bufBit C a = bufBit s.srcOperand a ↔ a ≠ errorAddr s.srcOperand)) ∧
        (8 * s.srcLen ≤ errorAddr s.srcOperand → endsRaised 0x04#8 s t ∧ dstHolds t [])) ∧
      (errorAddr s.srcOperand ≠ 0 → parityCheck s.srcOperand = false →
        t.outcome = 3#32 ∧ endsRaised 0x03#8 s t ∧ dstHolds t [])

/-- R104: whenever the bit length is a power of two the syndrome names a bit, so MALFORMED_INPUT cannot occur. -/
def Obligations.PowerOfTwoLengthsAreNeverMalformed : Prop :=
  (∀ B : List Byte, (∃ k, 8 * B.length = 2 ^ k) → errorAddr B < 8 * B.length) ∧
    ∀ s t : State, (∃ k, 8 * s.srcLen = 2 ^ k) → exec .corb s = .next t → t.code ≠ 0x04#8

/-- R103: flipping a set A of bits of a Code Block makes ClassifyBlock answer the XOR of A without 0, and the parity of |A|. -/
def Obligations.FlipsOfACodeBlockAreClassifiedByTheirXor : Prop :=
  ∀ (D : List Byte) (A : List Nat), admittedSize D.length → A.Nodup → (∀ a ∈ A, a < 8 * codeSize D.length) →
    classifyBlock (flipAll (encodeBlock D) A) = (xorNats (A.filter (fun a => a ≠ 0)), decide (A.length % 2 = 1))

/-- R103, 90 C1: CORB on a Code Block with one flipped bit: a flip of any address but 0, padding included, is undone with the
address as syndrome; a flip of address 0 is PARITY_ONLY and the block comes back with it. -/
def Obligations.SingleFlipsAreUndoneExceptAtBitZero : Prop :=
  ∀ (s : State) (D : List Byte) (a : Nat), s.params.wf → LegalOperands .corb s → admittedSize D.length →
    a < 8 * codeSize D.length → s.srcOperand = bufFlip (encodeBlock D) a →
      ∃ t, exec .corb s = .next t ∧ endsOk s t ∧ t.syndrome.toNat = a ∧
        (a = 0 → t.outcome = 1#32 ∧ dstHolds t (bufFlip (encodeBlock D) 0)) ∧
        (a ≠ 0 → t.outcome = 2#32 ∧ dstHolds t (encodeBlock D))

/-- R103: CORB on a Code Block with two flipped bits raises DOUBLE_ERROR, whichever two they are. -/
def Obligations.DoubleFlipsAreDetected : Prop :=
  ∀ (s : State) (D : List Byte) (a b : Nat), s.params.wf → LegalOperands .corb s → admittedSize D.length →
    a < 8 * codeSize D.length → b < 8 * codeSize D.length → a ≠ b →
    s.srcOperand = flipAll (encodeBlock D) [a, b] →
      ∃ t, exec .corb s = .next t ∧ endsRaised 0x03#8 s t ∧ t.outcome = 3#32 ∧ t.syndrome.toNat = a ^^^ b ∧ dstHolds t []

/-- R106, R105: DECB delivers the bits at the data positions of the whole operand, in order, and zeros after them. -/
def Obligations.DecbDeliversTheDataPositions : Prop :=
  ∀ s : State, s.params.wf → LegalOperands .decb s →
    ∃ t O, exec .decb s = .next t ∧ endsOk s t ∧ blockFrame s t ∧ dstHolds t O ∧ O.length = s.dsize ∧
      ∀ n < 8 * s.dsize,
        bufBit O n = (((dataPositions (8 * s.srcLen))[n]?).map (bufBit s.srcOperand)).getD false

/-- R105, R103: decoding a Code Block gives its data back, also when its extended parity bit is flipped. -/
def Obligations.DecodeUndoesEncode : Prop :=
  ∀ D : List Byte, admittedSize D.length →
    decodeBlock (encodeBlock D) D.length = D ∧ decodeBlock (bufFlip (encodeBlock D) 0) D.length = D

/-- R108, R107: DECS on whole frames whose blocks can all be corrected delivers their data in order; OUTCOME and SYNDROME are
those of the last block. -/
def Obligations.DecsDecodesWholeFrames : Prop :=
  ∀ s : State, s.params.wf → LegalOperands .decs s → s.ioQuiet →
    s.inRest.length % frameSize s.dpb s.groups = 0 →
    (∀ k < s.inRest.length / frameSize s.dpb s.groups, ∀ B ∈ streamBlocks s.inRest s.dpb s.groups k, correctable B) →
      ∃ t ys, exec .decs s = .next t ∧ endsOk s t ∧ keepsHost s t ∧ readsAll s t ∧ dstHolds t [] ∧ t.out = s.out ++ ys ∧
        ys = (List.range (s.inRest.length / frameSize s.dpb s.groups)).flatMap (fun k =>
          (streamBlocks s.inRest s.dpb s.groups k).flatMap (fun B => decodeBlock (corrected B) s.dpb)) ∧
        (s.inRest = [] → keepsClass s t) ∧
        (∀ B, s.inRest ≠ [] →
          (streamBlocks s.inRest s.dpb s.groups (s.inRest.length / frameSize s.dpb s.groups - 1)).getLast? = some B →
          t.syndrome.toNat = errorAddr B ∧ t.outcome = outcomeWord (classOf (errorAddr B) (parityCheck B))) ∧
        t.cnt = { flips := 0, units := BitVec.ofNat 64 (s.inRest.length / frameSize s.dpb s.groups),
                  bytesIn := BitVec.ofNat 64 s.inRest.length, bytesOut := BitVec.ofNat 64 ys.length }

/-- R109: DECS on what ENCS wrote, with the same DPB and GROUPS, delivers the input and then zeros up to the next multiple of
d·g. -/
def Obligations.DecsUndoesEncs : Prop :=
  ∀ (s t u : State) (ys : List Byte), LegalOperands .encs s → s.ioQuiet → exec .encs s = .next t → t.out = s.out ++ ys →
    LegalOperands .decs u → u.ioQuiet → u.dpb = s.dpb → u.groups = s.groups → u.inRest = ys →
      ∃ v, exec .decs u = .next v ∧ endsOk u v ∧ readsAll u v ∧
        v.out = u.out ++ s.inRest ++
          zeros ((s.dpb * s.groups - s.inRest.length % (s.dpb * s.groups)) % (s.dpb * s.groups)) ∧
        (v.out = u.out ++ s.inRest ↔ s.inRest.length % (s.dpb * s.groups) = 0)

/-- R91: a burst in K encoded frames is undone by DECS: flips at any addresses A within a run of at most g consecutive bits,
across a frame boundary too. -/
def Obligations.BurstsUpToTheGroupCountAreCorrected : Prop :=
  ∀ (s : State) (x : List Byte) (A : List Nat) (K c n : Nat), LegalOperands .decs s → s.ioQuiet →
    x.length = K * (s.dpb * s.groups) → n ≤ s.groups → c + n ≤ 8 * (K * frameSize s.dpb s.groups) →
    A.Nodup → (∀ a ∈ A, c ≤ a ∧ a < c + n) →
    s.inRest = flipAll ((List.range K).flatMap (fun k =>
        encodeUnit s.dpb s.groups (slice x (k * (s.dpb * s.groups)) (s.dpb * s.groups)))) A →
      ∃ t, exec .decs s = .next t ∧ endsOk s t ∧ readsAll s t ∧ t.out = s.out ++ x

/-- R125, R147: where the input ends inside a frame, DECS has written every complete frame and raises TRUNCATED_FRAME. u is the
run on the complete frames alone. -/
def Obligations.TruncatedFrameAfterTheWholeOnes : Prop :=
  ∀ (s u : State) (X Y : List Byte), LegalOperands .decs s → s.ioQuiet → s.inRest = X ++ Y →
    X.length % frameSize s.dpb s.groups = 0 → 0 < Y.length → Y.length < frameSize s.dpb s.groups →
    exec .decs { s with inRest := X } = .next u → u.code = 0x00#8 →
      ∃ t, exec .decs s = .next t ∧ endsRaised 0x05#8 s t ∧ keepsHost s t ∧ readsAll s t ∧ t.out = u.out ∧
        t.outcome = u.outcome ∧ t.syndrome = u.syndrome ∧ dstHolds t [] ∧
        t.cnt = { u.cnt with bytesIn := BitVec.ofNat 64 (X.length + Y.length) }

/-- R107, R128, R129: DECS stops at the first block of a frame that cannot be corrected: earlier frames stay on OUT, the frame
of that block writes nothing and stays consumed, later blocks are not classified. -/
def Obligations.DecsAbortsAtAnUncorrectableBlock : Prop :=
  ∀ (s u : State) (X Y B : List Byte) (i : Nat), s.params.wf → LegalOperands .decs s → s.ioQuiet → s.inRest = X ++ Y →
    X.length % frameSize s.dpb s.groups = 0 → frameSize s.dpb s.groups ≤ Y.length →
    exec .decs { s with inRest := X } = .next u → u.code = 0x00#8 →
    (streamBlocks Y s.dpb s.groups 0)[i]? = some B →
    (∀ j < i, ∀ C, (streamBlocks Y s.dpb s.groups 0)[j]? = some C → correctable C) → ¬ correctable B →
      ∃ t, exec .decs s = .next t ∧ endsRaised (if parityCheck B = true then 0x04#8 else 0x03#8) s t ∧ keepsHost s t ∧
        t.out = u.out ∧ t.inRest = Y.drop (frameSize s.dpb s.groups) ∧
        t.syndrome.toNat = errorAddr B ∧ t.outcome = (if parityCheck B = true then 2#32 else 3#32) ∧
        t.cnt = { u.cnt with bytesIn := BitVec.ofNat 64 (X.length + frameSize s.dpb s.groups) }

/-! ### Streams -/

/-- R90, R108, R112: a stream command on an empty IN writes nothing and ends OK. -/
def Obligations.EmptyInputEndsOk : Prop :=
  ∀ i s, isStream i → LegalOperands i s → s.inRest = [] → 1 ∉ s.failIn →
    ∃ t, exec i s = .next t ∧ endsOk s t ∧ blockFrame s t ∧ dstHolds t []

/-- R53, R128: where the host fails InRead number k + 1, the one at the end of input included, the command has done k units, as u
does on those alone, and raises IO_ERROR having consumed nothing more. -/
def Obligations.FailedInReadKeepsEarlierUnits : Prop :=
  ∀ (i : Instr) (s u : State) (k : Nat), isStream i → LegalOperands i s → s.failOut = [] → (k + 1) ∈ s.failIn →
    (∀ j ∈ s.failIn, 1 ≤ j → k + 1 ≤ j) → k ≤ ceilDiv s.inRest.length (unitSize i s) →
    exec i { s with inRest := s.inRest.take (k * unitSize i s), failIn := [] } = .next u → u.code = 0x00#8 →
      ∃ t, exec i s = .next t ∧ endsRaised 0x06#8 s t ∧ keepsHost s t ∧ t.out = u.out ∧ t.inDone = u.inDone ∧
        t.inRest = s.inRest.drop (k * unitSize i s) ∧ t.cnt = u.cnt ∧ t.outcome = u.outcome ∧ t.syndrome = u.syndrome ∧
        dstHolds t []

/-- R54, R128, R129: where the host fails OutWrite number k + 1, the bytes of that unit stay consumed, nothing of it is on OUT,
and for DECS OUTCOME and SYNDROME are those of its last block. u is the run on the k units before, w the run with that unit,
both with no failure. FLIPS is that of the units before (R129; log entry 15). -/
def Obligations.FailedOutWriteKeepsEarlierUnits : Prop :=
  ∀ (i : Instr) (s u w : State) (k : Nat), isStream i → LegalOperands i s → s.failIn = [] → (k + 1) ∈ s.failOut →
    (∀ j ∈ s.failOut, 1 ≤ j → k + 1 ≤ j) → k * unitSize i s < s.inRest.length →
    exec i { s with inRest := s.inRest.take (k * unitSize i s), failOut := [] } = .next u →
    exec i { s with inRest := s.inRest.take ((k + 1) * unitSize i s), failOut := [] } = .next w → w.code = 0x00#8 →
      ∃ t, exec i s = .next t ∧ endsRaised 0x06#8 s t ∧ keepsHost s t ∧ dstHolds t [] ∧ t.out = u.out ∧
        t.inDone = w.inDone ∧ t.inRest = s.inRest.drop ((k + 1) * unitSize i s) ∧
        t.outcome = w.outcome ∧ t.syndrome = w.syndrome ∧ (¬ classifies i → keepsClass s t) ∧
        t.cnt.units = BitVec.ofNat 64 k ∧ t.cnt.bytesOut = u.cnt.bytesOut ∧
        t.cnt.bytesIn = BitVec.ofNat 64 (min ((k + 1) * unitSize i s) s.inRest.length) ∧
        t.cnt.flips = u.cnt.flips ∧ (¬ isNoise i → t.cnt.flips = 0#64)

/-! ### The Noise Injector -/

/-- R114, R113, R112: JAMB draws once per bit in stream order and flips bit a exactly where draw a, as a fraction of 2^32, is
below p; FLIPS counts them. -/
def Obligations.JambFlipsWhereTheDrawIsBelowP : Prop :=
  ∀ s : State, LegalOperands .jamb s → s.ioQuiet → 8 * s.inRest.length ≤ s.drawsU.length →
    ∃ t ys, exec .jamb s = .next t ∧ endsOk s t ∧ keepsHost s t ∧ keepsClass s t ∧ readsAll s t ∧ dstHolds t [] ∧
      t.out = s.out ++ ys ∧ ys.length = s.inRest.length ∧
      (∀ a u, a < 8 * s.inRest.length → s.drawsU[a]? = some u →
        (bufBit ys a ≠ bufBit s.inRest a ↔ u.toNat * s.pDen < s.pNum * 2 ^ 32)) ∧
      t.cnt = { flips := BitVec.ofNat 64 (differingBits s.inRest.length s.inRest ys),
                units := BitVec.ofNat 64 (ceilDiv s.inRest.length s.bufSize),
                bytesIn := BitVec.ofNat 64 s.inRest.length, bytesOut := BitVec.ofNat 64 s.inRest.length }

/-- R114: with p = 1 every bit is inverted, whatever the draws. -/
def Obligations.JambWithCertaintyInvertsEveryByte : Prop :=
  ∀ s : State, LegalOperands .jamb s → s.ioQuiet → 8 * s.inRest.length ≤ s.drawsU.length → s.pNum = s.pDen →
    ∃ t, exec .jamb s = .next t ∧ endsOk s t ∧ t.out = s.out ++ s.inRest.map (fun b => ~~~b) ∧
      t.cnt.flips = BitVec.ofNat 64 (8 * s.inRest.length)

/-- R118: for both policies, a command that ends OK has read all of IN and written as many bytes. -/
def Obligations.NoiseKeepsTheLength : Prop :=
  ∀ i s t, isNoise i → exec i s = .next t → t.code = 0x00#8 →
    readsAll s t ∧ ∃ ys, t.out = s.out ++ ys ∧ ys.length = s.inRest.length

/-- R36, R113, R116: FLIPS of a noise command that ends OK is the number of bits in which its output differs from its input. -/
def Obligations.FlipsCountsTheDifferingBits : Prop :=
  ∀ i s t ys, isNoise i → exec i s = .next t → t.code = 0x00#8 → t.out = s.out ++ ys →
    t.cnt.flips = BitVec.ofNat 64 (differingBits s.inRest.length s.inRest ys)

/-- R117, R38: with an in-range answer for every bit JAMR completes; with MAXBURST = 1 it flips nothing. -/
def Obligations.JamrCompletes : Prop :=
  ∀ s : State, LegalOperands .jamr s → s.ioQuiet → 8 * s.inRest.length ≤ s.drawsU.length →
    8 * s.inRest.length ≤ s.drawsL.length → (∀ l ∈ s.drawsL, l < s.maxBurst) →
      ∃ t ys, exec .jamr s = .next t ∧ endsOk s t ∧ keepsHost s t ∧ keepsClass s t ∧ readsAll s t ∧ dstHolds t [] ∧
        t.out = s.out ++ ys ∧ ys.length = s.inRest.length ∧
        t.cnt.units = BitVec.ofNat 64 (ceilDiv s.inRest.length s.bufSize) ∧
        (s.maxBurst = 1 → ys = s.inRest ∧ t.cnt.flips = 0#64)

/-- R116, R115: in one buffer, where only draw c is below the effective rate and the length drawn is L, exactly the bits c to
c + L − 1 within the buffer are inverted. -/
def Obligations.JamrFlipsTheTriggeredRun : Prop :=
  ∀ (s : State) (c L : Nat) (ls : List Nat), LegalOperands .jamr s → s.ioQuiet → s.inRest ≠ [] →
    s.inRest.length ≤ s.bufSize → 8 * s.inRest.length ≤ s.drawsU.length → c < 8 * s.inRest.length →
    s.drawsL = L :: ls → L < s.maxBurst →
    (∀ n u, s.drawsU[n]? = some u → (u.toNat * s.pDen * (1 + s.maxBurst) < 2 * s.pNum * 2 ^ 32 ↔ n = c)) →
      ∃ t ys, exec .jamr s = .next t ∧ endsOk s t ∧ readsAll s t ∧ t.out = s.out ++ ys ∧ ys.length = s.inRest.length ∧
        (∀ a < 8 * s.inRest.length, (bufBit ys a ≠ bufBit s.inRest a ↔ c ≤ a ∧ a < c + L)) ∧
        t.cnt.flips = BitVec.ofNat 64 (min L (8 * s.inRest.length - c))

/-- R116, R112, R115: JAMR follows its draws, in one sequence across all buffers. In buffer k, whose bursts the k-th plan lists
with the draws before each, exactly the bits of the bursts within the buffer are inverted: the cursor moves past each burst,
by one past an empty one, and every buffer starts a scan of its own. -/
def Obligations.JamrFollowsTheBurstPlans : Prop :=
  ∀ (s : State) (plans : List BurstPlan) (us : List Bool) (ls : List Nat), LegalOperands .jamr s → s.ioQuiet →
    plans.length = ceilDiv s.inRest.length s.bufSize → (∀ k ps, plans[k]? = some ps → s.planFits k ps) →
    s.triggers = s.plannedTriggers plans ++ us → s.drawsL = plannedLengths plans ++ ls →
      ∃ t ys, exec .jamr s = .next t ∧ endsOk s t ∧ keepsHost s t ∧ keepsClass s t ∧ readsAll s t ∧ dstHolds t [] ∧
        t.out = s.out ++ ys ∧ ys.length = s.inRest.length ∧
        (∀ k ps a, plans[k]? = some ps → a < s.bufferBits k →
          (bufBit ys (8 * (k * s.bufSize) + a) ≠ bufBit s.inRest (8 * (k * s.bufSize) + a) ↔
            ∃ b ∈ burstsFrom 0 ps, b.1 ≤ a ∧ a < b.1 + b.2)) ∧
        t.cnt = { flips := BitVec.ofNat 64 (differingBits s.inRest.length s.inRest ys)
                  units := BitVec.ofNat 64 (ceilDiv s.inRest.length s.bufSize)
                  bytesIn := BitVec.ofNat 64 s.inRest.length, bytesOut := BitVec.ofNat 64 s.inRest.length }

/-- R143, R38, 93 U8 and U14: JAMB stops wherever there are fewer answers than bits; JAMB and JAMR stop where the first draw is
not answered; and JAMR stops where the first draw triggers and no length is answered, or one out of range. -/
def Obligations.MissingEntropyStopsTheCommand : Prop :=
  (∀ i s, isNoise i → LegalOperands i s → 1 ∉ s.failIn → s.inRest ≠ [] → s.drawsU = [] →
    exec i s = .fault .entropyUnanswered) ∧
  (∀ s : State, LegalOperands .jamb s → s.ioQuiet → s.drawsU.length < 8 * s.inRest.length →
    exec .jamb s = .fault .entropyUnanswered) ∧
  ∀ (s : State) (u : Word) (us : List Word), LegalOperands .jamr s → 1 ∉ s.failIn → s.inRest ≠ [] → s.drawsU = u :: us →
    u.toNat * s.pDen * (1 + s.maxBurst) < 2 * s.pNum * 2 ^ 32 →
      (s.drawsL = [] → exec .jamr s = .fault .entropyUnanswered) ∧
      ∀ l ls, s.drawsL = l :: ls → s.maxBurst ≤ l → exec .jamr s = .fault .entropyOutOfRange

/-- R143, R38, 93 U8 and U14: JAMR stops wherever its answers run out. The draws follow the plans of the buffers before, then the
plan ps in the buffer reached, then j draws that do not trigger, with bits of that buffer still to scan: it stops where no
further draw is answered, and where a further draw triggers and no length is answered, or one out of range. -/
def Obligations.JamrStopsWhereTheAnswersRunOut : Prop :=
  ∀ (s : State) (plans : List BurstPlan) (ps : BurstPlan) (j : Nat), LegalOperands .jamr s → s.ioQuiet →
    plans.length < ceilDiv s.inRest.length s.bufSize → (∀ k qs, plans[k]? = some qs → s.planFits k qs) →
    s.planFits plans.length ps → cursorAfter 0 ps + j < s.bufferBits plans.length →
      (∀ ls, s.triggers = s.plannedTriggers plans ++ (burstTriggers ps ++ List.replicate j false) →
        s.drawsL = plannedLengths (plans ++ [ps]) ++ ls → exec .jamr s = .fault .entropyUnanswered) ∧
      (∀ us, s.triggers = s.plannedTriggers plans ++ (burstTriggers ps ++ List.replicate j false) ++ true :: us →
        (s.drawsL = plannedLengths (plans ++ [ps]) → exec .jamr s = .fault .entropyUnanswered) ∧
        ∀ l ls, s.drawsL = plannedLengths (plans ++ [ps]) ++ l :: ls → s.maxBurst ≤ l →
          exec .jamr s = .fault .entropyOutOfRange)
end

