-- ==== Sys2Proof/Laws/Bits.lean ====
section
/-! SUPPORT. The laws of bit addressing: what BufBit reads after BufSet, BufFlip and a run of BufSets, when two buffers are
equal, and the linearity of the two XORs. -/

namespace Sys2Proof.Machine

/-! ### Lengths -/

@[simp] theorem zeros_length (n : Nat) : (zeros n).length = n := by simp [zeros]

@[simp] theorem bufSet_length (B : List Byte) (a : Nat) (v : Bool) : (bufSet B a v).length = B.length := by simp [bufSet]

@[simp] theorem bufFlip_length (B : List Byte) (a : Nat) : (bufFlip B a).length = B.length := by simp [bufFlip]

@[simp] theorem bufSetAll_length (B : List Byte) (ws : List (Nat × Bool)) : (bufSetAll B ws).length = B.length := by
  induction ws generalizing B with
  | nil => rfl
  | cons w ws ih => exact (ih _).trans (bufSet_length _ _ _)

theorem slice_length (B : List Byte) (i n : Nat) : (slice B i n).length = min n (B.length - i) := by simp [slice]

@[simp] theorem addrs_length (lo hi : Nat) : (addrs lo hi).length = hi - lo := by simp [addrs]

theorem mem_addrs {lo hi a : Nat} : a ∈ addrs lo hi ↔ lo ≤ a ∧ a < hi := by
  simp only [addrs, List.mem_range'_1]
  omega

theorem addrs_nodup (lo hi : Nat) : (addrs lo hi).Nodup := List.nodup_range'

/-! ### One bit -/

theorem bitInByte_lt (a : Nat) : bitInByte a < 8 := by unfold bitInByte; omega

theorem setByteBit_getLsbD (b : Byte) (v : Bool) {k j : Nat} (hk : k < 8) (hj : j < 8) :
    (setByteBit b k v).getLsbD j = if j = k then v else b.getLsbD j := by
  have hmask : (1#8 <<< k).getLsbD j = decide (j = k) := by
    simp only [BitVec.getLsbD_shiftLeft, BitVec.getLsbD_one, hj]
    by_cases h : j = k
    · subst h; simp
    · simp only [h, decide_false, decide_true, Bool.true_and]
      by_cases h2 : j < k
      · simp [h2]
      · have : j - k ≠ 0 := by omega
        simp [this]
  cases v
  · simp only [setByteBit, Bool.false_eq_true, if_false, BitVec.getLsbD_and, BitVec.getLsbD_not, hmask, hj]
    by_cases h : j = k <;> simp [h]
  · simp only [setByteBit, if_true, BitVec.getLsbD_or, hmask]
    by_cases h : j = k <;> simp [h]

theorem bufBit_of_length_le {B : List Byte} {a : Nat} (h : 8 * B.length ≤ a) : bufBit B a = false := by
  have : B.length ≤ a / 8 := by omega
  simp [bufBit, List.getD_eq_getElem?_getD, List.getElem?_eq_none this]

@[simp] theorem bufBit_zeros (n a : Nat) : bufBit (zeros n) a = false := by
  unfold bufBit zeros
  by_cases h : a / 8 < n <;> simp [h, List.getD]

/-- Two addresses name the same bit only if they are equal. -/
theorem bit_place_inj {a b : Nat} (hd : a / 8 = b / 8) (hm : bitInByte a = bitInByte b) : a = b := by
  unfold bitInByte at hm; omega

/-- BufBit after BufSet (R47, R48). -/
theorem bufBit_bufSet {B : List Byte} {a : Nat} (v : Bool) (ha : a < 8 * B.length) (b : Nat) :
    bufBit (bufSet B a v) b = if b = a then v else bufBit B b := by
  have hlen : a / 8 < B.length := by omega
  unfold bufBit bufSet
  by_cases hd : b / 8 = a / 8
  · rw [hd]
    simp only [List.getD_eq_getElem?_getD, List.getElem?_set_self hlen, Option.getD_some]
    rw [setByteBit_getLsbD _ _ (bitInByte_lt a) (bitInByte_lt b)]
    by_cases hm : bitInByte b = bitInByte a
    · simp [bit_place_inj hd hm]
    · have : b ≠ a := fun h => hm (by rw [h])
      simp [hm, this]
  · have : b ≠ a := fun h => hd (by rw [h])
    simp [this, List.getElem?_set_ne (Ne.symm hd)]

/-- BufBit after BufFlip (R49). -/
theorem bufBit_bufFlip {B : List Byte} {a : Nat} (ha : a < 8 * B.length) (b : Nat) :
    bufBit (bufFlip B a) b = if b = a then !bufBit B b else bufBit B b := by
  rw [bufFlip, bufBit_bufSet _ ha]
  by_cases h : b = a <;> simp [h]

/-- BufBit after a run of BufSets whose addresses are in the buffer and all different. -/
theorem bufBit_bufSetAll {B : List Byte} {ws : List (Nat × Bool)} (hin : ∀ w ∈ ws, w.1 < 8 * B.length)
    (hnd : (ws.map Prod.fst).Nodup) (b : Nat) :
    bufBit (bufSetAll B ws) b = ((ws.find? (fun w => w.1 = b)).map Prod.snd).getD (bufBit B b) := by
  induction ws generalizing B with
  | nil => rfl
  | cons w ws ih =>
    have hw : w.1 < 8 * B.length := hin w (by simp)
    simp only [List.map_cons, List.nodup_cons] at hnd
    have hstep : bufBit (bufSetAll B (w :: ws)) b = bufBit (bufSetAll (bufSet B w.1 w.2) ws) b := rfl
    rw [hstep, ih (fun x hx => by simpa using hin x (by simp [hx])) hnd.2, bufBit_bufSet _ hw]
    by_cases h : w.1 = b
    · have hnone : ws.find? (fun x => decide (x.1 = b)) = none := by
        rw [List.find?_eq_none]
        intro x hx
        have : x.1 ≠ w.1 := fun e => hnd.1 (e ▸ List.mem_map_of_mem hx)
        simpa [h] using fun e : x.1 = b => this (e.trans h.symm)
      simp [h, hnone]
    · simp [h, Ne.symm h]

/-- An address that a run of BufSets does not write keeps its bit. -/
theorem bufBit_bufSetAll_not_mem {B : List Byte} {ws : List (Nat × Bool)} {b : Nat}
    (hin : ∀ w ∈ ws, w.1 < 8 * B.length) (hb : b ∉ ws.map Prod.fst) : bufBit (bufSetAll B ws) b = bufBit B b := by
  induction ws generalizing B with
  | nil => rfl
  | cons w ws ih =>
    simp only [List.map_cons, List.mem_cons, not_or] at hb
    have hstep : bufBit (bufSetAll B (w :: ws)) b = bufBit (bufSetAll (bufSet B w.1 w.2) ws) b := rfl
    rw [hstep, ih (fun x hx => by simpa using hin x (by simp [hx])) hb.2, bufBit_bufSet _ (hin w (by simp)), if_neg hb.1]

/-- The bit that a run of BufSets with different addresses writes is the bit read afterwards. -/
theorem bufBit_bufSetAll_mem {B : List Byte} {ws : List (Nat × Bool)} (hin : ∀ w ∈ ws, w.1 < 8 * B.length)
    (hnd : (ws.map Prod.fst).Nodup) {a : Nat} {v : Bool} (hm : (a, v) ∈ ws) : bufBit (bufSetAll B ws) a = v := by
  induction ws generalizing B with
  | nil => cases hm
  | cons w ws ih =>
    simp only [List.map_cons, List.nodup_cons] at hnd
    have hstep : bufBit (bufSetAll B (w :: ws)) a = bufBit (bufSetAll (bufSet B w.1 w.2) ws) a := rfl
    have hin' : ∀ x ∈ ws, x.1 < 8 * (bufSet B w.1 w.2).length := fun x hx => by simpa using hin x (by simp [hx])
    rcases List.mem_cons.1 hm with h | h
    · subst h
      rw [hstep, bufBit_bufSetAll_not_mem hin' hnd.1, bufBit_bufSet _ (hin (a, v) (by simp)), if_pos rfl]
    · exact hstep.trans (ih hin' hnd.2 h)

/-- Two buffers of one length are equal when all their bits are. -/
theorem buf_ext {B C : List Byte} (hl : B.length = C.length) (h : ∀ a < 8 * B.length, bufBit B a = bufBit C a) : B = C := by
  apply List.ext_getElem hl
  intro n h1 h2
  apply BitVec.eq_of_getLsbD_eq
  intro j hj
  have ha : 8 * n + (7 - j) < 8 * B.length := by omega
  have hd : (8 * n + (7 - j)) / 8 = n := by omega
  have hm : bitInByte (8 * n + (7 - j)) = j := by unfold bitInByte; omega
  have := h _ ha
  unfold bufBit at this
  rw [hd, hm] at this
  simpa [List.getD_eq_getElem?_getD, h1, h2] using this

/-! ### Concatenation -/

theorem bufBit_append_left {B C : List Byte} {a : Nat} (h : a < 8 * B.length) : bufBit (B ++ C) a = bufBit B a := by
  have : a / 8 < B.length := by omega
  simp [bufBit, List.getD_eq_getElem?_getD, List.getElem?_append_left this]

theorem bufBit_append_right (B C : List Byte) (a : Nat) : bufBit (B ++ C) (8 * B.length + a) = bufBit C a := by
  have hd : (8 * B.length + a) / 8 = B.length + a / 8 := by omega
  have hm : bitInByte (8 * B.length + a) = bitInByte a := by unfold bitInByte; omega
  simp only [bufBit, hd, hm, List.getD_eq_getElem?_getD]
  rw [List.getElem?_append_right (by omega), Nat.add_sub_cancel_left]

theorem bufBit_slice {B : List Byte} {i n a : Nat} (h : a < 8 * n) : bufBit (slice B i n) a = bufBit B (8 * i + a) := by
  have hd : (8 * i + a) / 8 = i + a / 8 := by omega
  have hm : bitInByte (8 * i + a) = bitInByte a := by unfold bitInByte; omega
  have hn : a / 8 < n := by omega
  simp [bufBit, slice, hd, hm, List.getD_eq_getElem?_getD, hn]

/-! ### The two XORs -/

@[simp] theorem xorBits_nil : xorBits [] = false := rfl

@[simp] theorem xorBits_cons (b : Bool) (bs : List Bool) : xorBits (b :: bs) = Bool.xor b (xorBits bs) := rfl

@[simp] theorem xorBits_append (as bs : List Bool) : xorBits (as ++ bs) = Bool.xor (xorBits as) (xorBits bs) := by
  induction as with
  | nil => simp
  | cons a as ih => simp [ih]

/-- "it is 1 exactly when an odd number of them are 1" (R16). -/
theorem xorBits_eq_odd (bs : List Bool) : xorBits bs = decide ((bs.count true) % 2 = 1) := by
  induction bs with
  | nil => rfl
  | cons b bs ih =>
    cases b
    · simp [ih]
    · simp only [xorBits_cons, ih, List.count_cons_self, Bool.true_xor]
      rcases Nat.mod_two_eq_zero_or_one (bs.count true) with h | h <;> simp [h, Nat.add_mod]

@[simp] theorem xorNats_nil : xorNats [] = 0 := rfl

@[simp] theorem xorNats_cons (n : Nat) (ns : List Nat) : xorNats (n :: ns) = n ^^^ xorNats ns := rfl

@[simp] theorem xorNats_append (ms ns : List Nat) : xorNats (ms ++ ns) = xorNats ms ^^^ xorNats ns := by
  induction ms with
  | nil => simp
  | cons m ms ih => simp [ih, Nat.xor_assoc]

theorem xorNats_lt_two_pow {ns : List Nat} {k : Nat} (h : ∀ n ∈ ns, n < 2 ^ k) : xorNats ns < 2 ^ k := by
  induction ns with
  | nil => simp
  | cons n ns ih =>
    exact Nat.xor_lt_two_pow (h n (by simp)) (ih fun m hm => h m (by simp [hm]))

/-- Value bit k of an XOR is the parity of the value bits k. -/
theorem valBit_xorNats (ns : List Nat) (k : Nat) : valBit (xorNats ns) k = xorBits (ns.map (valBit · k)) := by
  induction ns with
  | nil => simp [valBit]
  | cons n ns ih => simpa [valBit, Nat.testBit_xor] using ih

/-! ### Powers of two and lengths of numbers -/

theorem isPow2_iff {n : Nat} : isPow2 n = true ↔ ∃ k, n = 2 ^ k := by
  unfold isPow2
  constructor
  · intro h
    simp only [Bool.and_eq_true, decide_eq_true_eq, beq_iff_eq] at h
    exact ⟨n.log2, by
      have := (Nat.and_sub_one_eq_zero_iff_isPowerOfTwo (by omega)).1 h.2
      obtain ⟨k, rfl⟩ := this
      simp⟩
  · rintro ⟨k, rfl⟩
    simp only [Bool.and_eq_true, decide_eq_true_eq, beq_iff_eq]
    exact ⟨Nat.two_pow_pos k, (Nat.and_sub_one_eq_zero_iff_isPowerOfTwo (by positivity)).2 ⟨k, rfl⟩⟩

/-- BitLength is "the least k with n < 2^k" (R15). -/
theorem bitLength_le_iff (n k : Nat) : bitLength n ≤ k ↔ n < 2 ^ k := by
  unfold bitLength
  split
  · subst_vars; simp
  · rw [Nat.add_one_le_iff, Nat.log2_lt (by omega)]

end Sys2Proof.Machine
end

