-- ==== Sys2Proof/Laws/State.lean ====
section
/-! SUPPORT. One lemma per field per update of State, each true by rfl. -/

namespace Sys2Proof.Machine

/-! ### State.issue -/

@[simp] theorem State.issue_params (s : State) (w : Word) : (s.issue w).params = s.params := rfl
@[simp] theorem State.issue_ops (s : State) (w : Word) : (s.issue w).ops = s.ops := rfl
@[simp] theorem State.issue_cmd (s : State) (w : Word) : (s.issue w).cmd = w := rfl
@[simp] theorem State.issue_status (s : State) (w : Word) : (s.issue w).status = s.status := rfl
@[simp] theorem State.issue_outcome (s : State) (w : Word) : (s.issue w).outcome = s.outcome := rfl
@[simp] theorem State.issue_syndrome (s : State) (w : Word) : (s.issue w).syndrome = s.syndrome := rfl
@[simp] theorem State.issue_dstLen (s : State) (w : Word) : (s.issue w).dstLen = s.dstLen := rfl
@[simp] theorem State.issue_cnt (s : State) (w : Word) : (s.issue w).cnt = s.cnt := rfl
@[simp] theorem State.issue_src (s : State) (w : Word) : (s.issue w).src = s.src := rfl
@[simp] theorem State.issue_dst (s : State) (w : Word) : (s.issue w).dst = s.dst := rfl
@[simp] theorem State.issue_inDone (s : State) (w : Word) : (s.issue w).inDone = s.inDone := rfl
@[simp] theorem State.issue_inRest (s : State) (w : Word) : (s.issue w).inRest = s.inRest := rfl
@[simp] theorem State.issue_out (s : State) (w : Word) : (s.issue w).out = s.out := rfl
@[simp] theorem State.issue_drawsU (s : State) (w : Word) : (s.issue w).drawsU = s.drawsU := rfl
@[simp] theorem State.issue_drawsL (s : State) (w : Word) : (s.issue w).drawsL = s.drawsL := rfl
@[simp] theorem State.issue_failIn (s : State) (w : Word) : (s.issue w).failIn = s.failIn := rfl
@[simp] theorem State.issue_failOut (s : State) (w : Word) : (s.issue w).failOut = s.failOut := rfl
@[simp] theorem State.issue_inCalls (s : State) (w : Word) : (s.issue w).inCalls = s.inCalls := rfl
@[simp] theorem State.issue_outCalls (s : State) (w : Word) : (s.issue w).outCalls = s.outCalls := rfl
@[simp] theorem State.issue_pending (s : State) (w : Word) : (s.issue w).pending = s.pending := rfl
@[simp] theorem State.issue_busData (s : State) (w : Word) : (s.issue w).busData = s.busData := rfl
@[simp] theorem State.issue_fresh (s : State) (w : Word) : (s.issue w).fresh = s.fresh := rfl

/-! ### State.beginCommand -/

@[simp] theorem State.beginCommand_params (s : State) : (s.beginCommand).params = s.params := rfl
@[simp] theorem State.beginCommand_ops (s : State) : (s.beginCommand).ops = s.ops := rfl
@[simp] theorem State.beginCommand_cmd (s : State) : (s.beginCommand).cmd = s.cmd := rfl
@[simp] theorem State.beginCommand_status (s : State) : (s.beginCommand).status = s.status := rfl
@[simp] theorem State.beginCommand_outcome (s : State) : (s.beginCommand).outcome = s.outcome := rfl
@[simp] theorem State.beginCommand_syndrome (s : State) : (s.beginCommand).syndrome = s.syndrome := rfl
@[simp] theorem State.beginCommand_dstLen (s : State) : (s.beginCommand).dstLen = 0 := rfl
@[simp] theorem State.beginCommand_cnt (s : State) : (s.beginCommand).cnt = Counters.zero := rfl
@[simp] theorem State.beginCommand_src (s : State) : (s.beginCommand).src = s.src := rfl
@[simp] theorem State.beginCommand_dst (s : State) : (s.beginCommand).dst = Memory.zeroed := rfl
@[simp] theorem State.beginCommand_inDone (s : State) : (s.beginCommand).inDone = s.inDone := rfl
@[simp] theorem State.beginCommand_inRest (s : State) : (s.beginCommand).inRest = s.inRest := rfl
@[simp] theorem State.beginCommand_out (s : State) : (s.beginCommand).out = s.out := rfl
@[simp] theorem State.beginCommand_drawsU (s : State) : (s.beginCommand).drawsU = s.drawsU := rfl
@[simp] theorem State.beginCommand_drawsL (s : State) : (s.beginCommand).drawsL = s.drawsL := rfl
@[simp] theorem State.beginCommand_failIn (s : State) : (s.beginCommand).failIn = s.failIn := rfl
@[simp] theorem State.beginCommand_failOut (s : State) : (s.beginCommand).failOut = s.failOut := rfl
@[simp] theorem State.beginCommand_inCalls (s : State) : (s.beginCommand).inCalls = 0 := rfl
@[simp] theorem State.beginCommand_outCalls (s : State) : (s.beginCommand).outCalls = 0 := rfl
@[simp] theorem State.beginCommand_pending (s : State) : (s.beginCommand).pending = s.pending := rfl
@[simp] theorem State.beginCommand_busData (s : State) : (s.beginCommand).busData = s.busData := rfl
@[simp] theorem State.beginCommand_fresh (s : State) : (s.beginCommand).fresh = s.fresh := rfl

/-! ### State.endCommand -/

@[simp] theorem State.endCommand_params (s : State) : (s.endCommand).params = s.params := rfl
@[simp] theorem State.endCommand_ops (s : State) : (s.endCommand).ops = s.ops := rfl
@[simp] theorem State.endCommand_cmd (s : State) : (s.endCommand).cmd = s.cmd := rfl
@[simp] theorem State.endCommand_status (s : State) : (s.endCommand).status = s.status := rfl
@[simp] theorem State.endCommand_outcome (s : State) : (s.endCommand).outcome = s.outcome := rfl
@[simp] theorem State.endCommand_syndrome (s : State) : (s.endCommand).syndrome = s.syndrome := rfl
@[simp] theorem State.endCommand_dstLen (s : State) : (s.endCommand).dstLen = s.dstLen := rfl
@[simp] theorem State.endCommand_cnt (s : State) : (s.endCommand).cnt = s.cnt := rfl
@[simp] theorem State.endCommand_src (s : State) : (s.endCommand).src = s.src := rfl
@[simp] theorem State.endCommand_dst (s : State) : (s.endCommand).dst = s.dst := rfl
@[simp] theorem State.endCommand_inDone (s : State) : (s.endCommand).inDone = s.inDone := rfl
@[simp] theorem State.endCommand_inRest (s : State) : (s.endCommand).inRest = s.inRest := rfl
@[simp] theorem State.endCommand_out (s : State) : (s.endCommand).out = s.out := rfl
@[simp] theorem State.endCommand_drawsU (s : State) : (s.endCommand).drawsU = [] := rfl
@[simp] theorem State.endCommand_drawsL (s : State) : (s.endCommand).drawsL = [] := rfl
@[simp] theorem State.endCommand_failIn (s : State) : (s.endCommand).failIn = [] := rfl
@[simp] theorem State.endCommand_failOut (s : State) : (s.endCommand).failOut = [] := rfl
@[simp] theorem State.endCommand_inCalls (s : State) : (s.endCommand).inCalls = 0 := rfl
@[simp] theorem State.endCommand_outCalls (s : State) : (s.endCommand).outCalls = 0 := rfl
@[simp] theorem State.endCommand_pending (s : State) : (s.endCommand).pending = s.pending := rfl
@[simp] theorem State.endCommand_busData (s : State) : (s.endCommand).busData = s.busData := rfl
@[simp] theorem State.endCommand_fresh (s : State) : (s.endCommand).fresh = s.fresh := rfl

/-! ### State.complete -/

@[simp] theorem State.complete_params (s : State) : (s.complete).params = s.params := rfl
@[simp] theorem State.complete_ops (s : State) : (s.complete).ops = s.ops := rfl
@[simp] theorem State.complete_cmd (s : State) : (s.complete).cmd = s.cmd := rfl
@[simp] theorem State.complete_status (s : State) : (s.complete).status = setStatusCode s.status .ok := rfl
@[simp] theorem State.complete_outcome (s : State) : (s.complete).outcome = s.outcome := rfl
@[simp] theorem State.complete_syndrome (s : State) : (s.complete).syndrome = s.syndrome := rfl
@[simp] theorem State.complete_dstLen (s : State) : (s.complete).dstLen = s.dstLen := rfl
@[simp] theorem State.complete_cnt (s : State) : (s.complete).cnt = s.cnt := rfl
@[simp] theorem State.complete_src (s : State) : (s.complete).src = s.src := rfl
@[simp] theorem State.complete_dst (s : State) : (s.complete).dst = s.dst := rfl
@[simp] theorem State.complete_inDone (s : State) : (s.complete).inDone = s.inDone := rfl
@[simp] theorem State.complete_inRest (s : State) : (s.complete).inRest = s.inRest := rfl
@[simp] theorem State.complete_out (s : State) : (s.complete).out = s.out := rfl
@[simp] theorem State.complete_drawsU (s : State) : (s.complete).drawsU = [] := rfl
@[simp] theorem State.complete_drawsL (s : State) : (s.complete).drawsL = [] := rfl
@[simp] theorem State.complete_failIn (s : State) : (s.complete).failIn = [] := rfl
@[simp] theorem State.complete_failOut (s : State) : (s.complete).failOut = [] := rfl
@[simp] theorem State.complete_inCalls (s : State) : (s.complete).inCalls = 0 := rfl
@[simp] theorem State.complete_outCalls (s : State) : (s.complete).outCalls = 0 := rfl
@[simp] theorem State.complete_pending (s : State) : (s.complete).pending = s.pending := rfl
@[simp] theorem State.complete_busData (s : State) : (s.complete).busData = s.busData := rfl
@[simp] theorem State.complete_fresh (s : State) : (s.complete).fresh = s.fresh := rfl

/-! ### State.raise -/

@[simp] theorem State.raise_params (s : State) (c : Code) : (s.raise c).params = s.params := rfl
@[simp] theorem State.raise_ops (s : State) (c : Code) : (s.raise c).ops = s.ops := rfl
@[simp] theorem State.raise_cmd (s : State) (c : Code) : (s.raise c).cmd = s.cmd := rfl
@[simp] theorem State.raise_status (s : State) (c : Code) : (s.raise c).status = statusRaised s.status c := rfl
@[simp] theorem State.raise_outcome (s : State) (c : Code) : (s.raise c).outcome = s.outcome := rfl
@[simp] theorem State.raise_syndrome (s : State) (c : Code) : (s.raise c).syndrome = s.syndrome := rfl
@[simp] theorem State.raise_dstLen (s : State) (c : Code) : (s.raise c).dstLen = s.dstLen := rfl
@[simp] theorem State.raise_cnt (s : State) (c : Code) : (s.raise c).cnt = s.cnt := rfl
@[simp] theorem State.raise_src (s : State) (c : Code) : (s.raise c).src = s.src := rfl
@[simp] theorem State.raise_dst (s : State) (c : Code) : (s.raise c).dst = s.dst := rfl
@[simp] theorem State.raise_inDone (s : State) (c : Code) : (s.raise c).inDone = s.inDone := rfl
@[simp] theorem State.raise_inRest (s : State) (c : Code) : (s.raise c).inRest = s.inRest := rfl
@[simp] theorem State.raise_out (s : State) (c : Code) : (s.raise c).out = s.out := rfl
@[simp] theorem State.raise_drawsU (s : State) (c : Code) : (s.raise c).drawsU = [] := rfl
@[simp] theorem State.raise_drawsL (s : State) (c : Code) : (s.raise c).drawsL = [] := rfl
@[simp] theorem State.raise_failIn (s : State) (c : Code) : (s.raise c).failIn = [] := rfl
@[simp] theorem State.raise_failOut (s : State) (c : Code) : (s.raise c).failOut = [] := rfl
@[simp] theorem State.raise_inCalls (s : State) (c : Code) : (s.raise c).inCalls = 0 := rfl
@[simp] theorem State.raise_outCalls (s : State) (c : Code) : (s.raise c).outCalls = 0 := rfl
@[simp] theorem State.raise_pending (s : State) (c : Code) : (s.raise c).pending = s.pending := rfl
@[simp] theorem State.raise_busData (s : State) (c : Code) : (s.raise c).busData = s.busData := rfl
@[simp] theorem State.raise_fresh (s : State) (c : Code) : (s.raise c).fresh = s.fresh := rfl

/-! ### State.writeResult -/

@[simp] theorem State.writeResult_params (s : State) (bs : List Byte) : (s.writeResult bs).params = s.params := rfl
@[simp] theorem State.writeResult_ops (s : State) (bs : List Byte) : (s.writeResult bs).ops = s.ops := rfl
@[simp] theorem State.writeResult_cmd (s : State) (bs : List Byte) : (s.writeResult bs).cmd = s.cmd := rfl
@[simp] theorem State.writeResult_status (s : State) (bs : List Byte) : (s.writeResult bs).status = s.status := rfl
@[simp] theorem State.writeResult_outcome (s : State) (bs : List Byte) : (s.writeResult bs).outcome = s.outcome := rfl
@[simp] theorem State.writeResult_syndrome (s : State) (bs : List Byte) : (s.writeResult bs).syndrome = s.syndrome := rfl
@[simp] theorem State.writeResult_dstLen (s : State) (bs : List Byte) : (s.writeResult bs).dstLen = BitVec.ofNat 32 bs.length := rfl
@[simp] theorem State.writeResult_cnt (s : State) (bs : List Byte) : (s.writeResult bs).cnt = s.cnt := rfl
@[simp] theorem State.writeResult_src (s : State) (bs : List Byte) : (s.writeResult bs).src = s.src := rfl
@[simp] theorem State.writeResult_dst (s : State) (bs : List Byte) : (s.writeResult bs).dst = s.dst.writeBytes 0 bs := rfl
@[simp] theorem State.writeResult_inDone (s : State) (bs : List Byte) : (s.writeResult bs).inDone = s.inDone := rfl
@[simp] theorem State.writeResult_inRest (s : State) (bs : List Byte) : (s.writeResult bs).inRest = s.inRest := rfl
@[simp] theorem State.writeResult_out (s : State) (bs : List Byte) : (s.writeResult bs).out = s.out := rfl
@[simp] theorem State.writeResult_drawsU (s : State) (bs : List Byte) : (s.writeResult bs).drawsU = s.drawsU := rfl
@[simp] theorem State.writeResult_drawsL (s : State) (bs : List Byte) : (s.writeResult bs).drawsL = s.drawsL := rfl
@[simp] theorem State.writeResult_failIn (s : State) (bs : List Byte) : (s.writeResult bs).failIn = s.failIn := rfl
@[simp] theorem State.writeResult_failOut (s : State) (bs : List Byte) : (s.writeResult bs).failOut = s.failOut := rfl
@[simp] theorem State.writeResult_inCalls (s : State) (bs : List Byte) : (s.writeResult bs).inCalls = s.inCalls := rfl
@[simp] theorem State.writeResult_outCalls (s : State) (bs : List Byte) : (s.writeResult bs).outCalls = s.outCalls := rfl
@[simp] theorem State.writeResult_pending (s : State) (bs : List Byte) : (s.writeResult bs).pending = s.pending := rfl
@[simp] theorem State.writeResult_busData (s : State) (bs : List Byte) : (s.writeResult bs).busData = s.busData := rfl
@[simp] theorem State.writeResult_fresh (s : State) (bs : List Byte) : (s.writeResult bs).fresh = s.fresh := rfl

/-! ### State.recordClass -/

@[simp] theorem State.recordClass_params (s : State) (k : BlockClass) (e : Nat) : (s.recordClass k e).params = s.params := rfl
@[simp] theorem State.recordClass_ops (s : State) (k : BlockClass) (e : Nat) : (s.recordClass k e).ops = s.ops := rfl
@[simp] theorem State.recordClass_cmd (s : State) (k : BlockClass) (e : Nat) : (s.recordClass k e).cmd = s.cmd := rfl
@[simp] theorem State.recordClass_status (s : State) (k : BlockClass) (e : Nat) : (s.recordClass k e).status = s.status := rfl
@[simp] theorem State.recordClass_outcome (s : State) (k : BlockClass) (e : Nat) : (s.recordClass k e).outcome = outcomeWord k := rfl
@[simp] theorem State.recordClass_syndrome (s : State) (k : BlockClass) (e : Nat) : (s.recordClass k e).syndrome = BitVec.ofNat 32 e := rfl
@[simp] theorem State.recordClass_dstLen (s : State) (k : BlockClass) (e : Nat) : (s.recordClass k e).dstLen = s.dstLen := rfl
@[simp] theorem State.recordClass_cnt (s : State) (k : BlockClass) (e : Nat) : (s.recordClass k e).cnt = s.cnt := rfl
@[simp] theorem State.recordClass_src (s : State) (k : BlockClass) (e : Nat) : (s.recordClass k e).src = s.src := rfl
@[simp] theorem State.recordClass_dst (s : State) (k : BlockClass) (e : Nat) : (s.recordClass k e).dst = s.dst := rfl
@[simp] theorem State.recordClass_inDone (s : State) (k : BlockClass) (e : Nat) : (s.recordClass k e).inDone = s.inDone := rfl
@[simp] theorem State.recordClass_inRest (s : State) (k : BlockClass) (e : Nat) : (s.recordClass k e).inRest = s.inRest := rfl
@[simp] theorem State.recordClass_out (s : State) (k : BlockClass) (e : Nat) : (s.recordClass k e).out = s.out := rfl
@[simp] theorem State.recordClass_drawsU (s : State) (k : BlockClass) (e : Nat) : (s.recordClass k e).drawsU = s.drawsU := rfl
@[simp] theorem State.recordClass_drawsL (s : State) (k : BlockClass) (e : Nat) : (s.recordClass k e).drawsL = s.drawsL := rfl
@[simp] theorem State.recordClass_failIn (s : State) (k : BlockClass) (e : Nat) : (s.recordClass k e).failIn = s.failIn := rfl
@[simp] theorem State.recordClass_failOut (s : State) (k : BlockClass) (e : Nat) : (s.recordClass k e).failOut = s.failOut := rfl
@[simp] theorem State.recordClass_inCalls (s : State) (k : BlockClass) (e : Nat) : (s.recordClass k e).inCalls = s.inCalls := rfl
@[simp] theorem State.recordClass_outCalls (s : State) (k : BlockClass) (e : Nat) : (s.recordClass k e).outCalls = s.outCalls := rfl
@[simp] theorem State.recordClass_pending (s : State) (k : BlockClass) (e : Nat) : (s.recordClass k e).pending = s.pending := rfl
@[simp] theorem State.recordClass_busData (s : State) (k : BlockClass) (e : Nat) : (s.recordClass k e).busData = s.busData := rfl
@[simp] theorem State.recordClass_fresh (s : State) (k : BlockClass) (e : Nat) : (s.recordClass k e).fresh = s.fresh := rfl

/-! ### State.consume -/

@[simp] theorem State.consume_params (s : State) (n : Nat) : (s.consume n).params = s.params := rfl
@[simp] theorem State.consume_ops (s : State) (n : Nat) : (s.consume n).ops = s.ops := rfl
@[simp] theorem State.consume_cmd (s : State) (n : Nat) : (s.consume n).cmd = s.cmd := rfl
@[simp] theorem State.consume_status (s : State) (n : Nat) : (s.consume n).status = s.status := rfl
@[simp] theorem State.consume_outcome (s : State) (n : Nat) : (s.consume n).outcome = s.outcome := rfl
@[simp] theorem State.consume_syndrome (s : State) (n : Nat) : (s.consume n).syndrome = s.syndrome := rfl
@[simp] theorem State.consume_dstLen (s : State) (n : Nat) : (s.consume n).dstLen = s.dstLen := rfl
@[simp] theorem State.consume_cnt (s : State) (n : Nat) : (s.consume n).cnt = { s.cnt with bytesIn := s.cnt.bytesIn + BitVec.ofNat 64 (s.inRest.take n).length } := rfl
@[simp] theorem State.consume_src (s : State) (n : Nat) : (s.consume n).src = s.src := rfl
@[simp] theorem State.consume_dst (s : State) (n : Nat) : (s.consume n).dst = s.dst := rfl
@[simp] theorem State.consume_inDone (s : State) (n : Nat) : (s.consume n).inDone = s.inDone ++ s.inRest.take n := rfl
@[simp] theorem State.consume_inRest (s : State) (n : Nat) : (s.consume n).inRest = s.inRest.drop n := rfl
@[simp] theorem State.consume_out (s : State) (n : Nat) : (s.consume n).out = s.out := rfl
@[simp] theorem State.consume_drawsU (s : State) (n : Nat) : (s.consume n).drawsU = s.drawsU := rfl
@[simp] theorem State.consume_drawsL (s : State) (n : Nat) : (s.consume n).drawsL = s.drawsL := rfl
@[simp] theorem State.consume_failIn (s : State) (n : Nat) : (s.consume n).failIn = s.failIn := rfl
@[simp] theorem State.consume_failOut (s : State) (n : Nat) : (s.consume n).failOut = s.failOut := rfl
@[simp] theorem State.consume_inCalls (s : State) (n : Nat) : (s.consume n).inCalls = s.inCalls := rfl
@[simp] theorem State.consume_outCalls (s : State) (n : Nat) : (s.consume n).outCalls = s.outCalls := rfl
@[simp] theorem State.consume_pending (s : State) (n : Nat) : (s.consume n).pending = s.pending := rfl
@[simp] theorem State.consume_busData (s : State) (n : Nat) : (s.consume n).busData = s.busData := rfl
@[simp] theorem State.consume_fresh (s : State) (n : Nat) : (s.consume n).fresh = s.fresh := rfl

/-! ### State.emit -/

@[simp] theorem State.emit_params (s : State) (bs : List Byte) : (s.emit bs).params = s.params := rfl
@[simp] theorem State.emit_ops (s : State) (bs : List Byte) : (s.emit bs).ops = s.ops := rfl
@[simp] theorem State.emit_cmd (s : State) (bs : List Byte) : (s.emit bs).cmd = s.cmd := rfl
@[simp] theorem State.emit_status (s : State) (bs : List Byte) : (s.emit bs).status = s.status := rfl
@[simp] theorem State.emit_outcome (s : State) (bs : List Byte) : (s.emit bs).outcome = s.outcome := rfl
@[simp] theorem State.emit_syndrome (s : State) (bs : List Byte) : (s.emit bs).syndrome = s.syndrome := rfl
@[simp] theorem State.emit_dstLen (s : State) (bs : List Byte) : (s.emit bs).dstLen = s.dstLen := rfl
@[simp] theorem State.emit_cnt (s : State) (bs : List Byte) : (s.emit bs).cnt = { s.cnt with bytesOut := s.cnt.bytesOut + BitVec.ofNat 64 bs.length } := rfl
@[simp] theorem State.emit_src (s : State) (bs : List Byte) : (s.emit bs).src = s.src := rfl
@[simp] theorem State.emit_dst (s : State) (bs : List Byte) : (s.emit bs).dst = s.dst := rfl
@[simp] theorem State.emit_inDone (s : State) (bs : List Byte) : (s.emit bs).inDone = s.inDone := rfl
@[simp] theorem State.emit_inRest (s : State) (bs : List Byte) : (s.emit bs).inRest = s.inRest := rfl
@[simp] theorem State.emit_out (s : State) (bs : List Byte) : (s.emit bs).out = s.out ++ bs := rfl
@[simp] theorem State.emit_drawsU (s : State) (bs : List Byte) : (s.emit bs).drawsU = s.drawsU := rfl
@[simp] theorem State.emit_drawsL (s : State) (bs : List Byte) : (s.emit bs).drawsL = s.drawsL := rfl
@[simp] theorem State.emit_failIn (s : State) (bs : List Byte) : (s.emit bs).failIn = s.failIn := rfl
@[simp] theorem State.emit_failOut (s : State) (bs : List Byte) : (s.emit bs).failOut = s.failOut := rfl
@[simp] theorem State.emit_inCalls (s : State) (bs : List Byte) : (s.emit bs).inCalls = s.inCalls := rfl
@[simp] theorem State.emit_outCalls (s : State) (bs : List Byte) : (s.emit bs).outCalls = s.outCalls := rfl
@[simp] theorem State.emit_pending (s : State) (bs : List Byte) : (s.emit bs).pending = s.pending := rfl
@[simp] theorem State.emit_busData (s : State) (bs : List Byte) : (s.emit bs).busData = s.busData := rfl
@[simp] theorem State.emit_fresh (s : State) (bs : List Byte) : (s.emit bs).fresh = s.fresh := rfl

/-! ### State.countInCall -/

@[simp] theorem State.countInCall_params (s : State) : (s.countInCall).params = s.params := rfl
@[simp] theorem State.countInCall_ops (s : State) : (s.countInCall).ops = s.ops := rfl
@[simp] theorem State.countInCall_cmd (s : State) : (s.countInCall).cmd = s.cmd := rfl
@[simp] theorem State.countInCall_status (s : State) : (s.countInCall).status = s.status := rfl
@[simp] theorem State.countInCall_outcome (s : State) : (s.countInCall).outcome = s.outcome := rfl
@[simp] theorem State.countInCall_syndrome (s : State) : (s.countInCall).syndrome = s.syndrome := rfl
@[simp] theorem State.countInCall_dstLen (s : State) : (s.countInCall).dstLen = s.dstLen := rfl
@[simp] theorem State.countInCall_cnt (s : State) : (s.countInCall).cnt = s.cnt := rfl
@[simp] theorem State.countInCall_src (s : State) : (s.countInCall).src = s.src := rfl
@[simp] theorem State.countInCall_dst (s : State) : (s.countInCall).dst = s.dst := rfl
@[simp] theorem State.countInCall_inDone (s : State) : (s.countInCall).inDone = s.inDone := rfl
@[simp] theorem State.countInCall_inRest (s : State) : (s.countInCall).inRest = s.inRest := rfl
@[simp] theorem State.countInCall_out (s : State) : (s.countInCall).out = s.out := rfl
@[simp] theorem State.countInCall_drawsU (s : State) : (s.countInCall).drawsU = s.drawsU := rfl
@[simp] theorem State.countInCall_drawsL (s : State) : (s.countInCall).drawsL = s.drawsL := rfl
@[simp] theorem State.countInCall_failIn (s : State) : (s.countInCall).failIn = s.failIn := rfl
@[simp] theorem State.countInCall_failOut (s : State) : (s.countInCall).failOut = s.failOut := rfl
@[simp] theorem State.countInCall_inCalls (s : State) : (s.countInCall).inCalls = s.inCalls + 1 := rfl
@[simp] theorem State.countInCall_outCalls (s : State) : (s.countInCall).outCalls = s.outCalls := rfl
@[simp] theorem State.countInCall_pending (s : State) : (s.countInCall).pending = s.pending := rfl
@[simp] theorem State.countInCall_busData (s : State) : (s.countInCall).busData = s.busData := rfl
@[simp] theorem State.countInCall_fresh (s : State) : (s.countInCall).fresh = s.fresh := rfl

/-! ### State.countOutCall -/

@[simp] theorem State.countOutCall_params (s : State) : (s.countOutCall).params = s.params := rfl
@[simp] theorem State.countOutCall_ops (s : State) : (s.countOutCall).ops = s.ops := rfl
@[simp] theorem State.countOutCall_cmd (s : State) : (s.countOutCall).cmd = s.cmd := rfl
@[simp] theorem State.countOutCall_status (s : State) : (s.countOutCall).status = s.status := rfl
@[simp] theorem State.countOutCall_outcome (s : State) : (s.countOutCall).outcome = s.outcome := rfl
@[simp] theorem State.countOutCall_syndrome (s : State) : (s.countOutCall).syndrome = s.syndrome := rfl
@[simp] theorem State.countOutCall_dstLen (s : State) : (s.countOutCall).dstLen = s.dstLen := rfl
@[simp] theorem State.countOutCall_cnt (s : State) : (s.countOutCall).cnt = s.cnt := rfl
@[simp] theorem State.countOutCall_src (s : State) : (s.countOutCall).src = s.src := rfl
@[simp] theorem State.countOutCall_dst (s : State) : (s.countOutCall).dst = s.dst := rfl
@[simp] theorem State.countOutCall_inDone (s : State) : (s.countOutCall).inDone = s.inDone := rfl
@[simp] theorem State.countOutCall_inRest (s : State) : (s.countOutCall).inRest = s.inRest := rfl
@[simp] theorem State.countOutCall_out (s : State) : (s.countOutCall).out = s.out := rfl
@[simp] theorem State.countOutCall_drawsU (s : State) : (s.countOutCall).drawsU = s.drawsU := rfl
@[simp] theorem State.countOutCall_drawsL (s : State) : (s.countOutCall).drawsL = s.drawsL := rfl
@[simp] theorem State.countOutCall_failIn (s : State) : (s.countOutCall).failIn = s.failIn := rfl
@[simp] theorem State.countOutCall_failOut (s : State) : (s.countOutCall).failOut = s.failOut := rfl
@[simp] theorem State.countOutCall_inCalls (s : State) : (s.countOutCall).inCalls = s.inCalls := rfl
@[simp] theorem State.countOutCall_outCalls (s : State) : (s.countOutCall).outCalls = s.outCalls + 1 := rfl
@[simp] theorem State.countOutCall_pending (s : State) : (s.countOutCall).pending = s.pending := rfl
@[simp] theorem State.countOutCall_busData (s : State) : (s.countOutCall).busData = s.busData := rfl
@[simp] theorem State.countOutCall_fresh (s : State) : (s.countOutCall).fresh = s.fresh := rfl

/-! ### State.countUnit -/

@[simp] theorem State.countUnit_params (s : State) : (s.countUnit).params = s.params := rfl
@[simp] theorem State.countUnit_ops (s : State) : (s.countUnit).ops = s.ops := rfl
@[simp] theorem State.countUnit_cmd (s : State) : (s.countUnit).cmd = s.cmd := rfl
@[simp] theorem State.countUnit_status (s : State) : (s.countUnit).status = s.status := rfl
@[simp] theorem State.countUnit_outcome (s : State) : (s.countUnit).outcome = s.outcome := rfl
@[simp] theorem State.countUnit_syndrome (s : State) : (s.countUnit).syndrome = s.syndrome := rfl
@[simp] theorem State.countUnit_dstLen (s : State) : (s.countUnit).dstLen = s.dstLen := rfl
@[simp] theorem State.countUnit_cnt (s : State) : (s.countUnit).cnt = { s.cnt with units := s.cnt.units + 1 } := rfl
@[simp] theorem State.countUnit_src (s : State) : (s.countUnit).src = s.src := rfl
@[simp] theorem State.countUnit_dst (s : State) : (s.countUnit).dst = s.dst := rfl
@[simp] theorem State.countUnit_inDone (s : State) : (s.countUnit).inDone = s.inDone := rfl
@[simp] theorem State.countUnit_inRest (s : State) : (s.countUnit).inRest = s.inRest := rfl
@[simp] theorem State.countUnit_out (s : State) : (s.countUnit).out = s.out := rfl
@[simp] theorem State.countUnit_drawsU (s : State) : (s.countUnit).drawsU = s.drawsU := rfl
@[simp] theorem State.countUnit_drawsL (s : State) : (s.countUnit).drawsL = s.drawsL := rfl
@[simp] theorem State.countUnit_failIn (s : State) : (s.countUnit).failIn = s.failIn := rfl
@[simp] theorem State.countUnit_failOut (s : State) : (s.countUnit).failOut = s.failOut := rfl
@[simp] theorem State.countUnit_inCalls (s : State) : (s.countUnit).inCalls = s.inCalls := rfl
@[simp] theorem State.countUnit_outCalls (s : State) : (s.countUnit).outCalls = s.outCalls := rfl
@[simp] theorem State.countUnit_pending (s : State) : (s.countUnit).pending = s.pending := rfl
@[simp] theorem State.countUnit_busData (s : State) : (s.countUnit).busData = s.busData := rfl
@[simp] theorem State.countUnit_fresh (s : State) : (s.countUnit).fresh = s.fresh := rfl

/-! ### State.countFlip -/

@[simp] theorem State.countFlip_params (s : State) : (s.countFlip).params = s.params := rfl
@[simp] theorem State.countFlip_ops (s : State) : (s.countFlip).ops = s.ops := rfl
@[simp] theorem State.countFlip_cmd (s : State) : (s.countFlip).cmd = s.cmd := rfl
@[simp] theorem State.countFlip_status (s : State) : (s.countFlip).status = s.status := rfl
@[simp] theorem State.countFlip_outcome (s : State) : (s.countFlip).outcome = s.outcome := rfl
@[simp] theorem State.countFlip_syndrome (s : State) : (s.countFlip).syndrome = s.syndrome := rfl
@[simp] theorem State.countFlip_dstLen (s : State) : (s.countFlip).dstLen = s.dstLen := rfl
@[simp] theorem State.countFlip_cnt (s : State) : (s.countFlip).cnt = { s.cnt with flips := s.cnt.flips + 1 } := rfl
@[simp] theorem State.countFlip_src (s : State) : (s.countFlip).src = s.src := rfl
@[simp] theorem State.countFlip_dst (s : State) : (s.countFlip).dst = s.dst := rfl
@[simp] theorem State.countFlip_inDone (s : State) : (s.countFlip).inDone = s.inDone := rfl
@[simp] theorem State.countFlip_inRest (s : State) : (s.countFlip).inRest = s.inRest := rfl
@[simp] theorem State.countFlip_out (s : State) : (s.countFlip).out = s.out := rfl
@[simp] theorem State.countFlip_drawsU (s : State) : (s.countFlip).drawsU = s.drawsU := rfl
@[simp] theorem State.countFlip_drawsL (s : State) : (s.countFlip).drawsL = s.drawsL := rfl
@[simp] theorem State.countFlip_failIn (s : State) : (s.countFlip).failIn = s.failIn := rfl
@[simp] theorem State.countFlip_failOut (s : State) : (s.countFlip).failOut = s.failOut := rfl
@[simp] theorem State.countFlip_inCalls (s : State) : (s.countFlip).inCalls = s.inCalls := rfl
@[simp] theorem State.countFlip_outCalls (s : State) : (s.countFlip).outCalls = s.outCalls := rfl
@[simp] theorem State.countFlip_pending (s : State) : (s.countFlip).pending = s.pending := rfl
@[simp] theorem State.countFlip_busData (s : State) : (s.countFlip).busData = s.busData := rfl
@[simp] theorem State.countFlip_fresh (s : State) : (s.countFlip).fresh = s.fresh := rfl

/-! ### State.failedUnit -/

@[simp] theorem State.failedUnit_params (s : State) (f : DWord) : (s.failedUnit f).params = s.params := rfl
@[simp] theorem State.failedUnit_ops (s : State) (f : DWord) : (s.failedUnit f).ops = s.ops := rfl
@[simp] theorem State.failedUnit_cmd (s : State) (f : DWord) : (s.failedUnit f).cmd = s.cmd := rfl
@[simp] theorem State.failedUnit_status (s : State) (f : DWord) : (s.failedUnit f).status = s.status := rfl
@[simp] theorem State.failedUnit_outcome (s : State) (f : DWord) : (s.failedUnit f).outcome = s.outcome := rfl
@[simp] theorem State.failedUnit_syndrome (s : State) (f : DWord) : (s.failedUnit f).syndrome = s.syndrome := rfl
@[simp] theorem State.failedUnit_dstLen (s : State) (f : DWord) : (s.failedUnit f).dstLen = s.dstLen := rfl
@[simp] theorem State.failedUnit_cnt (s : State) (f : DWord) : (s.failedUnit f).cnt = { s.cnt with flips := f } := rfl
@[simp] theorem State.failedUnit_src (s : State) (f : DWord) : (s.failedUnit f).src = s.src := rfl
@[simp] theorem State.failedUnit_dst (s : State) (f : DWord) : (s.failedUnit f).dst = s.dst := rfl
@[simp] theorem State.failedUnit_inDone (s : State) (f : DWord) : (s.failedUnit f).inDone = s.inDone := rfl
@[simp] theorem State.failedUnit_inRest (s : State) (f : DWord) : (s.failedUnit f).inRest = s.inRest := rfl
@[simp] theorem State.failedUnit_out (s : State) (f : DWord) : (s.failedUnit f).out = s.out := rfl
@[simp] theorem State.failedUnit_drawsU (s : State) (f : DWord) : (s.failedUnit f).drawsU = s.drawsU := rfl
@[simp] theorem State.failedUnit_drawsL (s : State) (f : DWord) : (s.failedUnit f).drawsL = s.drawsL := rfl
@[simp] theorem State.failedUnit_failIn (s : State) (f : DWord) : (s.failedUnit f).failIn = s.failIn := rfl
@[simp] theorem State.failedUnit_failOut (s : State) (f : DWord) : (s.failedUnit f).failOut = s.failOut := rfl
@[simp] theorem State.failedUnit_inCalls (s : State) (f : DWord) : (s.failedUnit f).inCalls = s.inCalls := rfl
@[simp] theorem State.failedUnit_outCalls (s : State) (f : DWord) : (s.failedUnit f).outCalls = s.outCalls := rfl
@[simp] theorem State.failedUnit_pending (s : State) (f : DWord) : (s.failedUnit f).pending = s.pending := rfl
@[simp] theorem State.failedUnit_busData (s : State) (f : DWord) : (s.failedUnit f).busData = s.busData := rfl
@[simp] theorem State.failedUnit_fresh (s : State) (f : DWord) : (s.failedUnit f).fresh = s.fresh := rfl

/-! ### State.returned -/

@[simp] theorem State.returned_params (s : State) (w : Word) : (s.returned w).params = s.params := rfl
@[simp] theorem State.returned_ops (s : State) (w : Word) : (s.returned w).ops = s.ops := rfl
@[simp] theorem State.returned_cmd (s : State) (w : Word) : (s.returned w).cmd = s.cmd := rfl
@[simp] theorem State.returned_status (s : State) (w : Word) : (s.returned w).status = s.status := rfl
@[simp] theorem State.returned_outcome (s : State) (w : Word) : (s.returned w).outcome = s.outcome := rfl
@[simp] theorem State.returned_syndrome (s : State) (w : Word) : (s.returned w).syndrome = s.syndrome := rfl
@[simp] theorem State.returned_dstLen (s : State) (w : Word) : (s.returned w).dstLen = s.dstLen := rfl
@[simp] theorem State.returned_cnt (s : State) (w : Word) : (s.returned w).cnt = s.cnt := rfl
@[simp] theorem State.returned_src (s : State) (w : Word) : (s.returned w).src = s.src := rfl
@[simp] theorem State.returned_dst (s : State) (w : Word) : (s.returned w).dst = s.dst := rfl
@[simp] theorem State.returned_inDone (s : State) (w : Word) : (s.returned w).inDone = s.inDone := rfl
@[simp] theorem State.returned_inRest (s : State) (w : Word) : (s.returned w).inRest = s.inRest := rfl
@[simp] theorem State.returned_out (s : State) (w : Word) : (s.returned w).out = s.out := rfl
@[simp] theorem State.returned_drawsU (s : State) (w : Word) : (s.returned w).drawsU = s.drawsU := rfl
@[simp] theorem State.returned_drawsL (s : State) (w : Word) : (s.returned w).drawsL = s.drawsL := rfl
@[simp] theorem State.returned_failIn (s : State) (w : Word) : (s.returned w).failIn = s.failIn := rfl
@[simp] theorem State.returned_failOut (s : State) (w : Word) : (s.returned w).failOut = s.failOut := rfl
@[simp] theorem State.returned_inCalls (s : State) (w : Word) : (s.returned w).inCalls = s.inCalls := rfl
@[simp] theorem State.returned_outCalls (s : State) (w : Word) : (s.returned w).outCalls = s.outCalls := rfl
@[simp] theorem State.returned_pending (s : State) (w : Word) : (s.returned w).pending = s.pending := rfl
@[simp] theorem State.returned_busData (s : State) (w : Word) : (s.returned w).busData = w := rfl
@[simp] theorem State.returned_fresh (s : State) (w : Word) : (s.returned w).fresh = s.fresh := rfl

/-! ### State.expandTo -/

@[simp] theorem State.expandTo_params (s : State) (l : List HostOp) : (s.expandTo l).params = s.params := rfl
@[simp] theorem State.expandTo_ops (s : State) (l : List HostOp) : (s.expandTo l).ops = s.ops := rfl
@[simp] theorem State.expandTo_cmd (s : State) (l : List HostOp) : (s.expandTo l).cmd = s.cmd := rfl
@[simp] theorem State.expandTo_status (s : State) (l : List HostOp) : (s.expandTo l).status = s.status := rfl
@[simp] theorem State.expandTo_outcome (s : State) (l : List HostOp) : (s.expandTo l).outcome = s.outcome := rfl
@[simp] theorem State.expandTo_syndrome (s : State) (l : List HostOp) : (s.expandTo l).syndrome = s.syndrome := rfl
@[simp] theorem State.expandTo_dstLen (s : State) (l : List HostOp) : (s.expandTo l).dstLen = s.dstLen := rfl
@[simp] theorem State.expandTo_cnt (s : State) (l : List HostOp) : (s.expandTo l).cnt = s.cnt := rfl
@[simp] theorem State.expandTo_src (s : State) (l : List HostOp) : (s.expandTo l).src = s.src := rfl
@[simp] theorem State.expandTo_dst (s : State) (l : List HostOp) : (s.expandTo l).dst = s.dst := rfl
@[simp] theorem State.expandTo_inDone (s : State) (l : List HostOp) : (s.expandTo l).inDone = s.inDone := rfl
@[simp] theorem State.expandTo_inRest (s : State) (l : List HostOp) : (s.expandTo l).inRest = s.inRest := rfl
@[simp] theorem State.expandTo_out (s : State) (l : List HostOp) : (s.expandTo l).out = s.out := rfl
@[simp] theorem State.expandTo_drawsU (s : State) (l : List HostOp) : (s.expandTo l).drawsU = s.drawsU := rfl
@[simp] theorem State.expandTo_drawsL (s : State) (l : List HostOp) : (s.expandTo l).drawsL = s.drawsL := rfl
@[simp] theorem State.expandTo_failIn (s : State) (l : List HostOp) : (s.expandTo l).failIn = s.failIn := rfl
@[simp] theorem State.expandTo_failOut (s : State) (l : List HostOp) : (s.expandTo l).failOut = s.failOut := rfl
@[simp] theorem State.expandTo_inCalls (s : State) (l : List HostOp) : (s.expandTo l).inCalls = s.inCalls := rfl
@[simp] theorem State.expandTo_outCalls (s : State) (l : List HostOp) : (s.expandTo l).outCalls = s.outCalls := rfl
@[simp] theorem State.expandTo_pending (s : State) (l : List HostOp) : (s.expandTo l).pending = l ++ s.pending := rfl
@[simp] theorem State.expandTo_busData (s : State) (l : List HostOp) : (s.expandTo l).busData = s.busData := rfl
@[simp] theorem State.expandTo_fresh (s : State) (l : List HostOp) : (s.expandTo l).fresh = s.fresh := rfl

end Sys2Proof.Machine
end

