-- ==== Sys2Proof/Laws/Stream.lean ====
section
/-! SUPPORT. What a part of a command can do (bind, InRead, OutWrite, the draws), how a command ends, and that the stream loop
never runs out of fuel. -/

namespace Sys2Proof.Machine

/-! ### Going on -/

@[simp] theorem Res.bind_ok {α β : Type} (a : α) (s : State) (f : α → State → Res β) : (Res.ok a s).bind f = f a s := rfl

@[simp] theorem Res.bind_raised {α β : Type} (c : Code) (s : State) (f : α → State → Res β) :
    (Res.raised c s : Res α).bind f = .raised c s := rfl

@[simp] theorem Res.bind_stuck {α β : Type} (e : Fault) (f : α → State → Res β) :
    (Res.stuck e : Res α).bind f = .stuck e := rfl

theorem Res.bind_eq_ok {α β : Type} {r : Res α} {f : α → State → Res β} {b : β} {t : State} (h : r.bind f = .ok b t) :
    ∃ a s, r = .ok a s ∧ f a s = .ok b t := by
  cases r with
  | ok a s => exact ⟨a, s, rfl, h⟩
  | raised c s => cases h
  | stuck e => cases h

theorem Res.bind_eq_raised {α β : Type} {r : Res α} {f : α → State → Res β} {c : Code} {t : State}
    (h : r.bind f = .raised c t) : r = .raised c t ∨ ∃ a s, r = .ok a s ∧ f a s = .raised c t := by
  cases r with
  | ok a s => exact .inr ⟨a, s, rfl, h⟩
  | raised d s => left; cases h; rfl
  | stuck e => cases h

/-- A property of the state in which a part of a command goes on or raises. -/
def Res.All {α : Type} (P : State → Prop) : Res α → Prop
  | .ok _ s => P s
  | .raised _ s => P s
  | .stuck _ => True

@[simp] theorem Res.all_ok {α : Type} (P : State → Prop) (a : α) (s : State) : (Res.ok a s).All P ↔ P s := Iff.rfl

@[simp] theorem Res.all_raised {α : Type} (P : State → Prop) (c : Code) (s : State) :
    (Res.raised c s : Res α).All P ↔ P s := Iff.rfl

@[simp] theorem Res.all_stuck {α : Type} (P : State → Prop) (e : Fault) : (Res.stuck e : Res α).All P ↔ True := Iff.rfl

theorem Res.All.bind {α β : Type} {P : State → Prop} {r : Res α} {f : α → State → Res β} (h : r.All P)
    (hf : ∀ a s, r = .ok a s → P s → (f a s).All P) : (r.bind f).All P := by
  cases r with
  | ok a s => exact hf a s rfl h
  | raised c s => exact h
  | stuck e => exact True.intro

/-! ### InRead, OutWrite, the draws -/

/-- Everything InRead can do (R53). -/
theorem inRead_cases (n : Nat) (s : State) :
    (s.inCalls + 1 ∈ s.failIn ∧ inRead n s = .raised .ioError s.countInCall) ∨
      (s.inCalls + 1 ∉ s.failIn ∧ inRead n s = .ok (s.inRest.take n) (s.countInCall.consume n)) := by
  by_cases h : s.inCalls + 1 ∈ s.failIn
  · exact .inl ⟨h, by simp [inRead, h]⟩
  · exact .inr ⟨h, by simp [inRead, h]⟩

/-- Everything OutWrite can do (R54). -/
theorem outWrite_cases (bs : List Byte) (s : State) :
    (s.outCalls + 1 ∈ s.failOut ∧ outWrite bs s = .raised .ioError s.countOutCall) ∨
      (s.outCalls + 1 ∉ s.failOut ∧ outWrite bs s = .ok () (s.countOutCall.emit bs)) := by
  by_cases h : s.outCalls + 1 ∈ s.failOut
  · exact .inl ⟨h, by simp [outWrite, h]⟩
  · exact .inr ⟨h, by simp [outWrite, h]⟩

/-- Everything DrawU32 can do (R38). -/
theorem drawU32_cases (s : State) :
    (s.drawsU = [] ∧ drawU32 s = .stuck .entropyUnanswered) ∨
      ∃ u us, s.drawsU = u :: us ∧ drawU32 s = .ok u { s with drawsU := us } := by
  rcases h : s.drawsU with _ | ⟨u, us⟩
  · exact .inl ⟨rfl, by simp [drawU32, h]⟩
  · exact .inr ⟨u, us, rfl, by simp [drawU32, h]⟩

/-- Everything DrawLen can do (R38). -/
theorem drawLen_cases (m : Nat) (s : State) :
    (s.drawsL = [] ∧ drawLen m s = .stuck .entropyUnanswered) ∨
      ∃ l ls, s.drawsL = l :: ls ∧
        ((l < m ∧ drawLen m s = .ok l { s with drawsL := ls }) ∨ (m ≤ l ∧ drawLen m s = .stuck .entropyOutOfRange)) := by
  rcases h : s.drawsL with _ | ⟨l, ls⟩
  · exact .inl ⟨rfl, by simp [drawLen, h]⟩
  · refine .inr ⟨l, ls, rfl, ?_⟩
    by_cases hl : l < m
    · exact .inl ⟨hl, by simp [drawLen, h, hl]⟩
    · exact .inr ⟨by omega, by simp [drawLen, h, hl]⟩

/-! ### The end of a command -/

/-- Everything the frame of R70 can answer. -/
theorem runCommand_eq_next {legal : State → Bool} {body : State → Res Unit} {s t : State}
    (h : runCommand legal body s = .next t) :
    (legal s.beginCommand = false ∧ t = s.beginCommand.raise .configError) ∨
      (legal s.beginCommand = true ∧
        ((∃ u, body s.beginCommand = .ok () u ∧ t = u.complete) ∨
          ∃ c u, body s.beginCommand = .raised c u ∧ t = u.raise c)) := by
  unfold runCommand at h
  cases hl : legal s.beginCommand with
  | false =>
    left
    simp only [hl, Bool.false_eq_true, if_false, finish, Host.Outcome.next.injEq] at h
    exact ⟨rfl, h.symm⟩
  | true =>
    right
    refine ⟨rfl, ?_⟩
    simp only [hl, if_true] at h
    cases hb : body s.beginCommand with
    | ok a u => left; rw [hb] at h; exact ⟨u, rfl, (Host.Outcome.next.inj h).symm⟩
    | raised c u => right; rw [hb] at h; exact ⟨c, u, rfl, (Host.Outcome.next.inj h).symm⟩
    | stuck e => rw [hb] at h; cases h

theorem runCommand_illegal {legal : State → Bool} {body : State → Res Unit} {s : State} (h : legal s.beginCommand = false) :
    runCommand legal body s = .next (s.beginCommand.raise .configError) := by simp [runCommand, h, finish]

theorem runCommand_legal {legal : State → Bool} {body : State → Res Unit} {s : State} (h : legal s.beginCommand = true) :
    runCommand legal body s = finish (body s.beginCommand) := by simp [runCommand, h]

/-- A property that the body keeps holds where the command ends, if completing and raising keep it. -/
theorem runCommand_all {legal : State → Bool} {body : State → Res Unit} {s t : State} {P : State → Prop}
    (h : runCommand legal body s = .next t) (hbegin : P s.beginCommand) (hbody : (body s.beginCommand).All P)
    (hcomplete : ∀ u, P u → P u.complete) (hraise : ∀ u c, P u → P (u.raise c)) : P t := by
  rcases runCommand_eq_next h with ⟨_, rfl⟩ | ⟨_, ⟨u, hu, rfl⟩ | ⟨c, u, hu, rfl⟩⟩
  · exact hraise _ _ hbegin
  · rw [hu] at hbody; exact hcomplete _ hbody
  · rw [hu] at hbody; exact hraise _ _ hbody

/-! ### The stream loop -/

theorem writeUnit_cases (before : DWord) (bs : List Byte) (s : State) :
    (s.outCalls + 1 ∈ s.failOut ∧ writeUnit before bs s = .raised .ioError (s.countOutCall.failedUnit before)) ∨
      (s.outCalls + 1 ∉ s.failOut ∧ writeUnit before bs s = .ok () (s.countOutCall.emit bs)) := by
  rcases outWrite_cases bs s with ⟨h, hw⟩ | ⟨h, hw⟩
  · exact .inl ⟨h, by rw [writeUnit, hw]⟩
  · exact .inr ⟨h, by rw [writeUnit, hw]⟩

/-- Where the unit flipped nothing, its failed OutWrite changes no counter. -/
theorem State.failedUnit_eq {s : State} {before : DWord} (h : s.cnt.flips = before) : s.failedUnit before = s := by
  simp [State.failedUnit, ← h]

/-- A property that every part of a unit keeps holds after the whole stream. -/
theorem streamLoop_all {P : State → Prop} {n : Nat} {tr : List Byte → State → Res (List Byte)}
    (hin : ∀ s, P s → P s.countInCall) (hconsume : ∀ s, P s → P (s.consume n))
    (htr : ∀ X s, X ≠ [] → X.length ≤ n → P s → (tr X s).All P)
    (hout : ∀ s, P s → P s.countOutCall) (hfail : ∀ s f, P s → P (s.failedUnit f))
    (hemit : ∀ s Y, P s → P (s.emit Y)) (hunit : ∀ s, P s → P s.countUnit)
    (fuel : Nat) {s : State} (hs : P s) : (streamLoop n tr fuel s).All P := by
  induction fuel generalizing s with
  | zero => exact hs
  | succ fuel ih =>
    rw [streamLoop]
    rcases inRead_cases n s with ⟨_, hr⟩ | ⟨_, hr⟩ <;> rw [hr]
    · exact hin s hs
    · have hc : P (s.countInCall.consume n) := hconsume _ (hin s hs)
      rw [Res.bind_ok]
      split
      · exact hc
      · next hne =>
        refine (htr _ _ hne (List.length_take_le _ _) hc).bind fun Y u _ hu => ?_
        rcases writeUnit_cases (s.countInCall.consume n).cnt.flips Y u with ⟨_, hw⟩ | ⟨_, hw⟩ <;> rw [hw]
        · exact hfail _ _ (hout u hu)
        · exact ih (hunit _ (hemit _ _ (hout u hu)))

/-- More fuel than there are unread bytes is enough fuel: any two such amounts give the same result. -/
theorem streamLoop_fuel {n : Nat} (hn : 1 ≤ n) {tr : List Byte → State → Res (List Byte)}
    (htr : ∀ X s Y t, tr X s = .ok Y t → t.inRest = s.inRest) (f g : Nat) {s : State} (hf : s.inRest.length < f)
    (hg : s.inRest.length < g) : streamLoop n tr f s = streamLoop n tr g s := by
  induction f generalizing g s with
  | zero => omega
  | succ f ih =>
    cases g with
    | zero => omega
    | succ g =>
      rw [streamLoop, streamLoop]
      rcases inRead_cases n s with ⟨_, hr⟩ | ⟨_, hr⟩ <;> rw [hr]
      · rfl
      · simp only [Res.bind_ok]
        split
        · rfl
        · next hne =>
          cases ht : tr (s.inRest.take n) (s.countInCall.consume n) with
          | raised c u => rfl
          | stuck e => rfl
          | ok Y u =>
            have hrest : u.inRest = s.inRest.drop n := by simpa using htr _ _ _ _ ht
            have hpos : 0 < s.inRest.length := by
              rcases hl : s.inRest with _ | ⟨b, bs⟩
              · simp [hl] at hne
              · simp
            simp only [Res.bind_ok]
            rcases writeUnit_cases (s.countInCall.consume n).cnt.flips Y u with ⟨_, hw⟩ | ⟨_, hw⟩ <;> rw [hw]
            · rfl
            · exact ih g (by simp [hrest]; omega) (by simp [hrest]; omega)

end Sys2Proof.Machine
end

