-- ==== Sys2Proof/Laws/Codec.lean ====
section
/-! SUPPORT. One law per function of the codec: the bits of an interleave and of a decoded block, the lengths, the linearity of
the classification, and everything CorrectBlock can do. -/

namespace Sys2Proof.Machine

/-! ### The Interleaver -/

@[simp] theorem interleave_length (S : List Byte) (groups : Nat) : (interleave S groups).length = S.length := by
  simp [interleave]

theorem mem_interleaveCopies {S : List Byte} {groups : Nat} {w : Nat × Bool} :
    w ∈ interleaveCopies S groups ↔ ∃ i j, i < groups ∧ j < 8 * S.length / groups ∧
      w = (j * groups + i, bufBit S (i * (8 * S.length / groups) + j)) := by
  simp only [interleaveCopies, List.mem_flatMap, List.mem_range, List.mem_map]
  constructor
  · rintro ⟨i, hi, j, hj, rfl⟩; exact ⟨i, j, hi, hj, rfl⟩
  · rintro ⟨i, j, hi, hj, rfl⟩; exact ⟨i, hi, j, hj, rfl⟩

/-- An address j·groups + i with i < groups tells i and j (R94). -/
theorem row_col_unique {g i i' j j' : Nat} (hi : i < g) (hi' : i' < g) (h : j * g + i = j' * g + i') : i = i' ∧ j = j' := by
  have h1 : (j * g + i) % g = i := by simp [Nat.mod_eq_of_lt hi]
  have h2 : (j' * g + i') % g = i' := by simp [Nat.mod_eq_of_lt hi']
  have hii : i = i' := by rw [← h1, ← h2, h]
  refine ⟨hii, ?_⟩
  have : j * g = j' * g := by omega
  exact Nat.eq_of_mul_eq_mul_right (by omega) this

/-- A row below `rows` and a column below `cols` give an address below `rows * cols`. -/
theorem row_col_lt {rows cols i j : Nat} (hi : i < rows) (hj : j < cols) : i * cols + j < rows * cols := by
  have : (i + 1) * cols ≤ rows * cols := Nat.mul_le_mul_right _ hi
  rw [Nat.add_mul, Nat.one_mul] at this
  omega

theorem interleaveCopies_in {S : List Byte} {groups : Nat} (hd : 8 * S.length % groups = 0) :
    ∀ w ∈ interleaveCopies S groups, w.1 < 8 * (zeros S.length).length := by
  intro w hw
  obtain ⟨i, j, hi, hj, rfl⟩ := mem_interleaveCopies.1 hw
  have := row_col_lt hj hi
  rw [Nat.div_mul_cancel (Nat.dvd_of_mod_eq_zero hd)] at this
  simpa using this

theorem interleaveCopies_nodup (S : List Byte) (groups : Nat) : ((interleaveCopies S groups).map Prod.fst).Nodup := by
  have : (interleaveCopies S groups).map Prod.fst =
      (List.range groups).flatMap fun i => (List.range (8 * S.length / groups)).map fun j => j * groups + i := by
    simp [interleaveCopies, List.map_flatMap, Function.comp_def]
  rw [this, List.nodup_flatMap]
  refine ⟨fun i hi => ?_, ?_⟩
  · refine List.Nodup.map_on (fun a _ b _ h => ?_) List.nodup_range
    exact (row_col_unique (List.mem_range.1 hi) (List.mem_range.1 hi) h).2
  · refine List.Pairwise.imp_of_mem ?_ List.nodup_range
    intro a b ha hb hab
    simp only [Function.onFun, List.disjoint_left, List.mem_map, List.mem_range, not_exists, not_and]
    rintro _ ⟨j, _, rfl⟩ j' _ h
    exact hab (row_col_unique (List.mem_range.1 hb) (List.mem_range.1 ha) h).1.symm

/-- R92: bit i·bs + j of the source is bit j·groups + i of the interleave. -/
theorem bufBit_interleave {S : List Byte} {groups i j : Nat} (hd : 8 * S.length % groups = 0) (hi : i < groups)
    (hj : j < 8 * S.length / groups) :
    bufBit (interleave S groups) (j * groups + i) = bufBit S (i * (8 * S.length / groups) + j) :=
  bufBit_bufSetAll_mem (interleaveCopies_in hd) (interleaveCopies_nodup S groups)
    (mem_interleaveCopies.2 ⟨i, j, hi, hj, rfl⟩)

/-! ### Positions and lengths of blocks -/

theorem mem_dataPositions {T a : Nat} : a ∈ dataPositions T ↔ 3 ≤ a ∧ a < T ∧ isPow2 a = false := by
  simp [dataPositions, mem_addrs, and_assoc]

theorem dataPositions_nodup (T : Nat) : (dataPositions T).Nodup := (addrs_nodup 3 T).filter _

@[simp] theorem placeData_length (D : List Byte) : (placeData D).length = codeSize D.length := by simp [placeData]

@[simp] theorem addGroupParities_length (C : List Byte) (T r : Nat) : (addGroupParities C T r).length = C.length := by
  unfold addGroupParities
  generalize List.range r = ks
  induction ks generalizing C with
  | nil => rfl
  | cons k ks ih =>
    rw [List.foldl_cons, ih]
    split <;> simp

@[simp] theorem encodeBlock_length (D : List Byte) : (encodeBlock D).length = codeSize D.length := by
  simp [encodeBlock, addExtendedParity]

@[simp] theorem decodeBlock_length (B : List Byte) (n : Nat) : (decodeBlock B n).length = n := by simp [decodeBlock]

/-- R105: the bits of a decoded block. -/
theorem bufBit_decodeBlock {B : List Byte} {n t : Nat} (ht : t < 8 * n) :
    bufBit (decodeBlock B n) t = (((dataPositions (8 * B.length))[t]?).map (bufBit B)).getD false := by
  have hfst : (((dataPositions (8 * B.length)).take (8 * n)).zipIdx.map fun p => (p.2, bufBit B p.1)).map Prod.fst =
      List.range ((dataPositions (8 * B.length)).take (8 * n)).length := by
    rw [List.map_map]
    exact (List.zipIdx_map_snd 0 _).trans (List.range_eq_range' ▸ rfl)
  have hin : ∀ w ∈ (((dataPositions (8 * B.length)).take (8 * n)).zipIdx.map fun p => (p.2, bufBit B p.1)),
      w.1 < 8 * (zeros n).length := by
    intro w hw
    have : w.1 ∈ List.range ((dataPositions (8 * B.length)).take (8 * n)).length := hfst ▸ List.mem_map_of_mem hw
    have hlen := List.length_take_le (8 * n) (dataPositions (8 * B.length))
    have := List.mem_range.1 this
    simp only [zeros_length]
    omega
  cases h : (dataPositions (8 * B.length))[t]? with
  | none =>
    rw [decodeBlock, bufBit_bufSetAll_not_mem hin]
    · simp
    · rw [hfst, List.mem_range, not_lt]
      have := List.getElem?_eq_none_iff.1 h
      exact (List.length_take_le' _ _).trans this
  | some a =>
    refine bufBit_bufSetAll_mem hin (hfst ▸ List.nodup_range) ?_
    refine List.mem_map.2 ⟨(a, t), List.mem_zipIdx_iff_getElem?.2 ?_, rfl⟩
    simp [ht, h]

/-! ### The classification -/

theorem errorAddr_lt {B : List Byte} {k : Nat} (h : 8 * B.length ≤ 2 ^ k) : errorAddr B < 2 ^ k := by
  refine xorNats_lt_two_pow fun a ha => ?_
  have := (mem_addrs.1 (List.mem_filter.1 ha).1).2
  omega

/-- One address taken out of a list without repeats. -/
theorem addrs_split {lo hi a : Nat} (h1 : lo ≤ a) (h2 : a < hi) : addrs lo hi = addrs lo a ++ a :: addrs (a + 1) hi := by
  unfold addrs
  have h : hi - lo = (a - lo) + (1 + (hi - (a + 1))) := by omega
  rw [h, ← List.range'_append_1, ← List.range'_append_1 (s := lo + (a - lo)) (m := 1)]
  have : lo + (a - lo) = a := by omega
  simp [this, List.range'_one]

/-- Flipping an address other than 0 adds it to the syndrome; flipping address 0 does not change the syndrome (R103). -/
theorem errorAddr_bufFlip {B : List Byte} {a : Nat} (ha : a < 8 * B.length) :
    errorAddr (bufFlip B a) = errorAddr B ^^^ a := by
  have hsame : ∀ {lo hi : Nat}, (∀ b ∈ addrs lo hi, b ≠ a) →
      (addrs lo hi).filter (bufBit (bufFlip B a)) = (addrs lo hi).filter (bufBit B) := fun h =>
    List.filter_congr fun b hb => by rw [bufBit_bufFlip ha, if_neg (h b hb)]
  rcases Nat.eq_zero_or_pos a with rfl | hpos
  · rw [errorAddr, errorAddr, bufFlip_length, hsame fun b hb => by have := (mem_addrs.1 hb).1; omega]
    simp
  · unfold errorAddr
    rw [bufFlip_length, addrs_split hpos ha]
    simp only [List.filter_append, List.filter_cons]
    rw [hsame fun b hb => by have := (mem_addrs.1 hb).2; omega, hsame fun b hb => by have := (mem_addrs.1 hb).1; omega,
      bufBit_bufFlip ha, if_pos rfl]
    cases bufBit B a <;> simp [Nat.xor_assoc, Nat.xor_comm a]

/-- Flipping any one bit inverts the parity (R103). -/
theorem parityCheck_bufFlip {B : List Byte} {a : Nat} (ha : a < 8 * B.length) :
    parityCheck (bufFlip B a) = !parityCheck B := by
  have hsame : ∀ {lo hi : Nat}, (∀ b ∈ addrs lo hi, b ≠ a) →
      (addrs lo hi).map (bufBit (bufFlip B a)) = (addrs lo hi).map (bufBit B) := fun h =>
    List.map_congr_left fun b hb => by rw [bufBit_bufFlip ha, if_neg (h b hb)]
  unfold parityCheck
  rw [bufFlip_length, addrs_split (Nat.zero_le a) ha]
  simp only [List.map_append, List.map_cons]
  rw [hsame fun b hb => by have := (mem_addrs.1 hb).2; omega, hsame fun b hb => by have := (mem_addrs.1 hb).1; omega,
    bufBit_bufFlip ha, if_pos rfl]
  simp only [xorBits_append, xorBits_cons]
  cases xorBits ((addrs 0 a).map (bufBit B)) <;> cases bufBit B a <;>
    cases xorBits ((addrs (a + 1) (8 * B.length)).map (bufBit B)) <;> rfl

/-- Everything CorrectBlock can do (R102). -/
theorem correctBlock_cases (B : List Byte) (s : State) :
    (errorAddr B = 0 ∧
      correctBlock B s = .ok B (s.recordClass (classOf (errorAddr B) (parityCheck B)) (errorAddr B))) ∨
    (errorAddr B ≠ 0 ∧ parityCheck B = false ∧
      correctBlock B s = .raised .doubleError (s.recordClass (classOf (errorAddr B) (parityCheck B)) (errorAddr B))) ∨
    (errorAddr B ≠ 0 ∧ parityCheck B = true ∧ 8 * B.length ≤ errorAddr B ∧
      correctBlock B s = .raised .malformedInput (s.recordClass (classOf (errorAddr B) (parityCheck B)) (errorAddr B))) ∨
    (errorAddr B ≠ 0 ∧ parityCheck B = true ∧ errorAddr B < 8 * B.length ∧
      correctBlock B s =
        .ok (bufFlip B (errorAddr B)) (s.recordClass (classOf (errorAddr B) (parityCheck B)) (errorAddr B))) := by
  by_cases he : errorAddr B = 0
  · exact .inl ⟨he, by simp [correctBlock, classifyBlock, he]⟩
  · cases hp : parityCheck B with
    | false => exact .inr (.inl ⟨he, rfl, by simp [correctBlock, classifyBlock, he, hp]⟩)
    | true =>
      by_cases hl : 8 * B.length ≤ errorAddr B
      · exact .inr (.inr (.inl ⟨he, rfl, hl, by simp [correctBlock, classifyBlock, he, hp, hl]⟩))
      · exact .inr (.inr (.inr ⟨he, rfl, by omega, by simp [correctBlock, classifyBlock, he, hp, hl]⟩))

/-- A property that recording a class keeps holds after a frame (R107). -/
theorem decodeBlocks_all {P : State → Prop} (hrec : ∀ s k e, P s → P (s.recordClass k e)) (d : Nat)
    (Bs : List (List Byte)) {s : State} (hs : P s) : (decodeBlocks d Bs s).All P := by
  induction Bs generalizing s with
  | nil => exact hs
  | cons B Bs ih =>
    rw [decodeBlocks]
    have hB : (correctBlock B s).All P := by
      rcases correctBlock_cases B s with ⟨_, h⟩ | ⟨_, _, h⟩ | ⟨_, _, _, h⟩ | ⟨_, _, _, h⟩ <;> rw [h] <;> exact hrec _ _ _ hs
    exact hB.bind fun C u _ hu => (ih hu).bind fun rest v _ hv => hv

end Sys2Proof.Machine
end

