-- ==== Sys2Proof/Laws/Flags.lean ====
section
/-! SUPPORT. The fields of STATUS and OUTCOME after they are written. -/

namespace Sys2Proof.Machine

theorem getLsbD_codeMask (i : Nat) : (0xFFFFFF00#32).getLsbD i = (decide (8 ≤ i) && decide (i < 32)) := by
  by_cases h : i < 32
  · have : ∀ j : Fin 32, (0xFFFFFF00#32).getLsbD j = (decide (8 ≤ (j : Nat)) && decide ((j : Nat) < 32)) := by decide
    exact this ⟨i, h⟩
  · simp [h, BitVec.getLsbD_of_ge _ _ (Nat.le_of_not_lt h)]

/-- Every bit of STATUS after `CODE ← c`. -/
theorem getLsbD_setStatusCode (st : Word) (c : Code) (i : Nat) :
    (setStatusCode st c).getLsbD i = if i < 8 then c.byte.getLsbD i else st.getLsbD i := by
  simp only [setStatusCode, BitVec.getLsbD_or, BitVec.getLsbD_and, getLsbD_codeMask, BitVec.getLsbD_append,
    BitVec.getLsbD_zero]
  by_cases h : i < 8
  · simp [h]
  · by_cases h2 : i < 32
    · simp [h, h2, Nat.le_of_not_lt h]
    · simp [h, h2, BitVec.getLsbD_of_ge st i (Nat.le_of_not_lt h2)]

theorem getLsbD_stickyMask (i : Nat) : (0x00000100#32).getLsbD i = decide (i = 8) := by
  by_cases h : i < 32
  · have : ∀ j : Fin 32, (0x00000100#32).getLsbD j = decide ((j : Nat) = 8) := by decide
    exact this ⟨i, h⟩
  · have : i ≠ 8 := by omega
    simp [this, BitVec.getLsbD_of_ge _ _ (Nat.le_of_not_lt h)]

/-- Every bit of STATUS after `STICKY ← 1`. -/
theorem getLsbD_setStatusSticky (st : Word) (i : Nat) :
    (setStatusSticky st).getLsbD i = (st.getLsbD i || decide (i = 8)) := by
  simp [setStatusSticky, getLsbD_stickyMask]

@[simp] theorem statusCode_setStatusCode (st : Word) (c : Code) : statusCode (setStatusCode st c) = c.byte := by
  apply BitVec.eq_of_getLsbD_eq
  intro i hi
  simp [statusCode, getLsbD_setStatusCode, hi]

@[simp] theorem statusCode_setStatusSticky (st : Word) : statusCode (setStatusSticky st) = statusCode st := by
  apply BitVec.eq_of_getLsbD_eq
  intro i hi
  have : i ≠ 8 := by omega
  simp [statusCode, getLsbD_setStatusSticky, hi, this]

@[simp] theorem statusCode_statusRaised (st : Word) (c : Code) : statusCode (statusRaised st c) = c.byte := by
  simp [statusRaised]

@[simp] theorem statusSticky_setStatusCode (st : Word) (c : Code) : statusSticky (setStatusCode st c) = statusSticky st :=
  (getLsbD_setStatusCode st c 8).trans (if_neg (by decide))

@[simp] theorem statusSticky_statusRaised (st : Word) (c : Code) : statusSticky (statusRaised st c) = true :=
  (getLsbD_setStatusSticky (setStatusCode st c) 8).trans (by simp)

@[simp] theorem setStatusCode_shift (st : Word) (c : Code) : setStatusCode st c >>> 9 = st >>> 9 := by
  apply BitVec.eq_of_getLsbD_eq
  intro i _
  have : ¬ 9 + i < 8 := by omega
  simp [getLsbD_setStatusCode, this]

@[simp] theorem statusRaised_shift (st : Word) (c : Code) : statusRaised st c >>> 9 = st >>> 9 := by
  apply BitVec.eq_of_getLsbD_eq
  intro i _
  have h1 : ¬ 9 + i < 8 := by omega
  have h2 : 9 + i ≠ 8 := by omega
  simp [statusRaised, getLsbD_setStatusSticky, getLsbD_setStatusCode, h1, h2]

theorem Code.byte_le (c : Code) : c.byte.toNat ≤ 6 := by cases c <;> decide

theorem Code.byte_eq_zero {c : Code} : c.byte = 0x00#8 ↔ c = .ok := by cases c <;> decide

theorem outcomeWord_lt (k : BlockClass) : (outcomeWord k).toNat < 4 := by cases k <;> decide

/-- The classes with syndrome 0 are NO_ERROR and PARITY_ONLY (R101). -/
theorem outcomeWord_classOf_lt_two (e : Nat) (p : Bool) : (outcomeWord (classOf e p)).toNat < 2 ↔ e = 0 := by
  by_cases h : e = 0 <;> cases p <;> simp [classOf, h] <;> decide

end Sys2Proof.Machine
end

