-- ==== Sys2Proof/Laws/Memory.lean ====
section
/-! SUPPORT. The laws of the buffers SRC and DST: read after write, and that every operation keeps the canonical form. -/

namespace Sys2Proof.Machine

/-! ### Read after write -/

theorem lookupCell_insertCell (i j : Nat) (b : Byte) (cs : List Host.Cell) :
    lookupCell j (insertCell i b cs) = if j = i then some b else lookupCell j cs := by
  induction cs with
  | nil => by_cases h : j = i <;> simp [insertCell, lookupCell, eq_comm (a := i), h]
  | cons c cs ih =>
    simp only [insertCell]
    by_cases hj : j = i
    · subst hj
      rw [if_pos rfl] at ih ⊢
      split_ifs with h1 h2
      · simp [lookupCell]
      · simp [lookupCell]
      · simp [lookupCell, Ne.symm h2, ih]
    · rw [if_neg hj] at ih ⊢
      split_ifs with h1 h2
      · simp [lookupCell, Ne.symm hj]
      · simp [lookupCell, Ne.symm hj, ← h2]
      · simp [lookupCell, ih]

theorem lookupCell_eraseCell (i j : Nat) (cs : List Host.Cell) :
    lookupCell j (eraseCell i cs) = if j = i then none else lookupCell j cs := by
  induction cs with
  | nil => simp [eraseCell, lookupCell]
  | cons c cs ih =>
    simp only [eraseCell, List.filter_cons] at ih ⊢
    by_cases h : c.1 = i
    · by_cases hj : j = i
      · simp_all
      · have : c.1 ≠ j := fun e => hj (by omega)
        simp_all [lookupCell]
    · by_cases hj : j = i
      · have : c.1 ≠ j := by omega
        simp_all [lookupCell]
      · by_cases hc : c.1 = j <;> simp_all [lookupCell]

@[simp] theorem Memory.write_fill (m : Memory) (i : Nat) (b : Byte) : (m.write i b).fill = m.fill := by
  unfold Memory.write; split <;> rfl

/-- A byte written reads back, and every other byte reads as before. -/
theorem Memory.read_write (m : Memory) (i j : Nat) (b : Byte) :
    (m.write i b).read j = if j = i then b else m.read j := by
  unfold Memory.read
  rw [Memory.write_fill]
  unfold Memory.write
  split
  · next h =>
    rw [lookupCell_eraseCell]
    by_cases hj : j = i <;> simp [hj, h.1, h.2, Fill.byte]
  · rw [lookupCell_insertCell]
    by_cases hj : j = i <;> simp [hj]

@[simp] theorem Memory.writeBytes_fill (m : Memory) (i : Nat) (bs : List Byte) : (m.writeBytes i bs).fill = m.fill := by
  induction bs generalizing m i with
  | nil => rfl
  | cons b bs ih => exact (ih _ _).trans (Memory.write_fill m i b)

theorem Memory.read_writeBytes (m : Memory) (i j : Nat) (bs : List Byte) :
    (m.writeBytes i bs).read j = if i ≤ j then (bs[j - i]?).getD (m.read j) else m.read j := by
  induction bs generalizing m i with
  | nil => simp [Memory.writeBytes]
  | cons b bs ih =>
    rw [Memory.writeBytes, ih, Memory.read_write]
    by_cases h1 : i + 1 ≤ j
    · have h2 : i ≤ j := by omega
      have h3 : j ≠ i := by omega
      have h4 : j - i = (j - (i + 1)) + 1 := by omega
      simp [h1, h2, h3, h4]
    · by_cases h2 : j = i
      · simp [h2]
      · have h3 : ¬ i ≤ j := by omega
        simp [h1, h2, h3]

@[simp] theorem Memory.read_zeroed (i : Nat) : Memory.zeroed.read i = 0#8 := rfl

@[simp] theorem Memory.readBytes_length (m : Memory) (i n : Nat) : (m.readBytes i n).length = n := by
  simp [Memory.readBytes]

/-- Reading the bytes just written gives them. -/
theorem Memory.readBytes_writeBytes (m : Memory) (i : Nat) (bs : List Byte) :
    (m.writeBytes i bs).readBytes i bs.length = bs := by
  apply List.ext_getElem (by simp)
  intro k h1 h2
  simp [Memory.readBytes, Memory.read_writeBytes, h2]

/-! ### The canonical form -/

/-- The indices of a list rise strictly, in the form that inductions use. -/
theorem risingCells_iff (cs : List Host.Cell) : risingCells cs = true ↔ cs.Pairwise (fun c d => c.1 < d.1) := by
  induction cs with
  | nil => simp [risingCells]
  | cons c cs ih =>
    cases cs with
    | nil => simp [risingCells]
    | cons d cs =>
      simp only [risingCells, Bool.and_eq_true, decide_eq_true_eq, ih]
      constructor
      · rintro ⟨h, hp⟩
        refine List.pairwise_cons.2 ⟨fun x hx => ?_, hp⟩
        rcases List.mem_cons.1 hx with rfl | hx
        · exact h
        · exact h.trans ((List.pairwise_cons.1 hp).1 x hx)
      · intro hp
        exact ⟨(List.pairwise_cons.1 hp).1 d (by simp), (List.pairwise_cons.1 hp).2⟩

theorem mem_insertCell {i : Nat} {b : Byte} {cs : List Host.Cell} {c : Host.Cell} (h : c ∈ insertCell i b cs) :
    c = (i, b) ∨ c ∈ cs := by
  induction cs with
  | nil => simpa [insertCell] using h
  | cons d cs ih =>
    simp only [insertCell] at h
    split_ifs at h
    · simpa using h
    · rcases List.mem_cons.1 h with h | h
      · exact .inl h
      · exact .inr (List.mem_cons_of_mem _ h)
    · rcases List.mem_cons.1 h with h | h
      · exact .inr (by simp [h])
      · exact (ih h).imp id (List.mem_cons_of_mem _)

theorem insertCell_rising {i : Nat} {b : Byte} {cs : List Host.Cell} (h : cs.Pairwise (fun c d => c.1 < d.1)) :
    (insertCell i b cs).Pairwise (fun c d => c.1 < d.1) := by
  induction cs with
  | nil => simp [insertCell]
  | cons c cs ih =>
    obtain ⟨hc, hp⟩ := List.pairwise_cons.1 h
    simp only [insertCell]
    split_ifs with h1 h2
    · refine List.pairwise_cons.2 ⟨fun x hx => ?_, h⟩
      rcases List.mem_cons.1 hx with rfl | hx
      · exact h1
      · exact h1.trans (hc x hx)
    · exact List.pairwise_cons.2 ⟨fun x hx => h2 ▸ hc x hx, hp⟩
    · refine List.pairwise_cons.2 ⟨fun x hx => ?_, ih hp⟩
      rcases mem_insertCell hx with rfl | hx
      · show c.1 < i; omega
      · exact hc x hx

/-- The canonical form, as one statement about the cells. -/
theorem Memory.wf_iff (cap : Nat) (m : Memory) :
    m.wf cap = true ↔ m.cells.Pairwise (fun c d => c.1 < d.1) ∧
      ∀ c ∈ m.cells, c.1 < cap ∧ (m.fill = .zeros → c.2 ≠ 0#8) := by
  simp only [Memory.wf, Bool.and_eq_true, risingCells_iff, List.all_eq_true, decide_eq_true_eq, Bool.or_eq_true, bne_iff_ne]
  refine and_congr_right fun _ => forall_congr' fun c => imp_congr_right fun _ => and_congr_right fun _ => ?_
  tauto

theorem mem_write_cells {m : Memory} {i : Nat} {b : Byte} {c : Host.Cell} (h : c ∈ (m.write i b).cells) :
    (c = (i, b) ∧ ¬(m.fill = .zeros ∧ b = 0#8)) ∨ c ∈ m.cells := by
  unfold Memory.write at h
  split at h
  · exact .inr (List.mem_filter.1 h).1
  · next hz => exact (mem_insertCell h).imp (⟨·, hz⟩) id

/-- A write within the capacity keeps the canonical form. -/
theorem Memory.write_wf {cap : Nat} {m : Memory} {i : Nat} {b : Byte} (h : m.wf cap = true) (hi : i < cap) :
    (m.write i b).wf cap = true := by
  rw [Memory.wf_iff] at h ⊢
  refine ⟨?_, fun c hc => ?_⟩
  · unfold Memory.write
    split
    · exact h.1.filter _
    · exact insertCell_rising h.1
  · rw [Memory.write_fill]
    rcases mem_write_cells hc with ⟨rfl, hz⟩ | hc
    · exact ⟨hi, fun hf hb => hz ⟨hf, hb⟩⟩
    · exact h.2 c hc

theorem Memory.writeBytes_wf {cap : Nat} {m : Memory} {i : Nat} {bs : List Byte} (h : m.wf cap = true)
    (hi : i + bs.length ≤ cap) : (m.writeBytes i bs).wf cap = true := by
  induction bs generalizing m i with
  | nil => exact h
  | cons b bs ih =>
    simp only [List.length_cons] at hi
    exact ih (Memory.write_wf h (by omega)) (by omega)

@[simp] theorem Memory.zeroed_wf (cap : Nat) : Memory.zeroed.wf cap = true := rfl

theorem mem_writeBytes_cells {m : Memory} {i : Nat} {bs : List Byte} {c : Host.Cell} (h : c ∈ (m.writeBytes i bs).cells) :
    (i ≤ c.1 ∧ c.1 < i + bs.length) ∨ c ∈ m.cells := by
  induction bs generalizing m i with
  | nil => exact .inr h
  | cons b bs ih =>
    rcases ih h with h | h
    · left; simp only [List.length_cons]; omega
    · rcases mem_write_cells h with ⟨rfl, _⟩ | h
      · left; simp
      · exact .inr h

/-! ### DST after a block command -/

/-- What the host reads of a result written to a zeroed DST is the result (R51). -/
theorem dstResult_writeResult {s : State} {bs : List Byte} (hd : s.dst = Memory.zeroed) (hl : bs.length < 2 ^ 32) :
    (s.writeResult bs).dstResult = bs := by
  have hn : (BitVec.ofNat 32 bs.length).toNat = bs.length := by simpa using Nat.mod_eq_of_lt hl
  apply List.ext_getElem
  · simpa [State.dstResult] using hl
  · intro k h1 h2
    simp only [State.dstResult, State.readDst, State.writeResult_dstLen, State.writeResult_dst, hn, hd,
      List.getElem_map, List.getElem_range, h2, if_true, Memory.read_writeBytes]
    simp [h2]

/-- Above the result DST is zero (R51). -/
theorem read_writeResult_above {s : State} {bs : List Byte} (hd : s.dst = Memory.zeroed) {i : Nat} (hi : bs.length ≤ i) :
    (s.writeResult bs).dst.read i = 0#8 := by
  have : bs[i]? = none := List.getElem?_eq_none hi
  simp [hd, Memory.read_writeBytes, this]

end Sys2Proof.Machine
end

