-- ==== Sys2Proof/Laws/Noise.lean ====
section
/-! SUPPORT. The noise injector: what its loops keep, that the burst scan never runs out of fuel, and what
one pass of it does. -/

namespace Sys2Proof.Machine

/-- A property that a draw and a counted flip keep holds after the loop of R113. -/
theorem jamBits_all {P : State → Prop} (hdraw : ∀ s us, P s → P { s with drawsU := us })
    (hflip : ∀ s, P s → P s.countFlip) (as : List Nat) (Y : List Byte) {s : State} (hs : P s) : (jamBits as Y s).All P := by
  induction as generalizing Y s with
  | nil => exact hs
  | cons a as ih =>
    rw [jamBits]
    rcases drawU32_cases s with ⟨_, hd⟩ | ⟨u, us, _, hd⟩ <;> rw [hd]
    · exact True.intro
    · rw [Res.bind_ok]
      split
      · exact ih _ (hflip _ (hdraw s us hs))
      · exact ih _ (hdraw s us hs)

theorem flipRun_state_all {P : State → Prop} (hflip : ∀ s, P s → P s.countFlip) (as : List Nat) (Y : List Byte) {s : State}
    (hs : P s) : P (flipRun as Y s).2 := by
  induction as generalizing Y s with
  | nil => exact hs
  | cons a as ih => exact ih _ (hflip s hs)

@[simp] theorem flipRun_length (as : List Nat) (Y : List Byte) (s : State) : (flipRun as Y s).1.length = Y.length := by
  induction as generalizing Y s with
  | nil => rfl
  | cons a as ih => exact (ih _ _).trans (bufFlip_length _ _)

/-- A property that the draws and a counted flip keep holds after the scan of R116. -/
theorem jamBurst_all {P : State → Prop} (hdraw : ∀ s us, P s → P { s with drawsU := us })
    (hlen : ∀ s ls, P s → P { s with drawsL := ls }) (hflip : ∀ s, P s → P s.countFlip) (N fuel c : Nat) (Y : List Byte)
    {s : State} (hs : P s) : (jamBurst N fuel c Y s).All P := by
  induction fuel generalizing c Y s with
  | zero => exact hs
  | succ fuel ih =>
    rw [jamBurst]
    split
    · rcases drawU32_cases s with ⟨_, hd⟩ | ⟨u, us, _, hd⟩ <;> rw [hd]
      · exact True.intro
      · rw [Res.bind_ok]
        split
        · rcases drawLen_cases ({ s with drawsU := us } : State).maxBurst { s with drawsU := us } with
            ⟨_, hl⟩ | ⟨l, ls, _, ⟨_, hl⟩ | ⟨_, hl⟩⟩ <;> rw [hl]
          · exact True.intro
          · exact ih _ _ (flipRun_state_all hflip _ _ (hlen _ ls (hdraw s us hs)))
          · exact True.intro
        · exact ih _ _ (hdraw s us hs)
    · exact hs

/-- As many passes as there are bits left are enough: any two such amounts of fuel give the same result. -/
theorem jamBurst_fuel {N c f g : Nat} (Y : List Byte) (s : State) (hf : N ≤ c + f) (hg : N ≤ c + g) :
    jamBurst N f c Y s = jamBurst N g c Y s := by
  induction f generalizing c g Y s with
  | zero =>
    have : ¬ c < N := by omega
    cases g with
    | zero => rfl
    | succ g => simp [jamBurst, this]
  | succ f ih =>
    cases g with
    | zero =>
      have : ¬ c < N := by omega
      simp [jamBurst, this]
    | succ g =>
      rw [jamBurst, jamBurst]
      split
      · congr 1
        funext u s
        split
        · congr 1
          funext L s
          exact ih _ _ (by omega) (by omega)
        · exact ih _ _ (by omega) (by omega)
      · rfl

/-! ### One pass of the scan of R116 -/

/-- The test of R115 reads the operands only. -/
theorem trigger_draws (s : State) (us : List Word) (ls : List Nat) (u : Word) :
    trigger { s with drawsU := us, drawsL := ls } u = trigger s u := by
  unfold trigger State.pDen State.maxBurst State.pNum
  rfl

/-- One pass at a cursor in the buffer where a draw is answered. -/
theorem jamBurst_drawn {N f c : Nat} (Y : List Byte) {s : State} {u : Word} {us : List Word} (hc : c < N)
    (hu : s.drawsU = u :: us) :
    jamBurst N (f + 1) c Y s =
      if trigger s u then
        (drawLen s.maxBurst { s with drawsU := us }).bind fun L t =>
          jamBurst N f (c + max L 1) (flipRun (addrs c (min (c + L) N)) Y t).1 (flipRun (addrs c (min (c + L) N)) Y t).2
      else jamBurst N f (c + 1) Y { s with drawsU := us } := by
  have hd : drawU32 s = .ok u { s with drawsU := us } := by rw [drawU32, hu]
  rw [jamBurst, if_pos hc, hd, Res.bind_ok, trigger_draws s us s.drawsL u]
  rfl

/-- No draw is answered. -/
theorem jamBurst_unanswered {N f c : Nat} (Y : List Byte) {s : State} (hc : c < N) (hu : s.drawsU = []) :
    jamBurst N (f + 1) c Y s = .stuck .entropyUnanswered := by
  have hd : drawU32 s = .stuck .entropyUnanswered := by rw [drawU32, hu]
  rw [jamBurst, if_pos hc, hd, Res.bind_stuck]

/-- A draw that does not trigger moves the cursor by one. -/
theorem jamBurst_skip {N f c : Nat} (Y : List Byte) {s : State} {u : Word} {us : List Word} (hc : c < N)
    (hu : s.drawsU = u :: us) (ht : trigger s u = false) :
    jamBurst N (f + 1) c Y s = jamBurst N f (c + 1) Y { s with drawsU := us } := by
  rw [jamBurst_drawn Y hc hu, ht, if_neg Bool.false_ne_true]

/-- A draw that triggers inverts the run drawn, as far as it is in the buffer, and moves the cursor past it. -/
theorem jamBurst_burst {N f c : Nat} (Y : List Byte) {s : State} {u : Word} {us : List Word} {L : Nat} {ls : List Nat}
    (hc : c < N) (hu : s.drawsU = u :: us) (ht : trigger s u = true) (hl : s.drawsL = L :: ls) (hL : L < s.maxBurst) :
    jamBurst N (f + 1) c Y s =
      jamBurst N f (c + max L 1) (flipRun (addrs c (min (c + L) N)) Y { s with drawsU := us, drawsL := ls }).1
        (flipRun (addrs c (min (c + L) N)) Y { s with drawsU := us, drawsL := ls }).2 := by
  have hd : drawLen s.maxBurst { s with drawsU := us } = .ok L { s with drawsU := us, drawsL := ls } := by
    simp only [drawLen, hl, if_pos hL]
  rw [jamBurst_drawn Y hc hu, if_pos ht, hd, Res.bind_ok]

/-- A draw that triggers without a length in range. -/
theorem jamBurst_stuck {N f c : Nat} (Y : List Byte) {s : State} {u : Word} {us : List Word} (hc : c < N)
    (hu : s.drawsU = u :: us) (ht : trigger s u = true) :
    (s.drawsL = [] → jamBurst N (f + 1) c Y s = .stuck .entropyUnanswered) ∧
      ∀ l ls, s.drawsL = l :: ls → s.maxBurst ≤ l → jamBurst N (f + 1) c Y s = .stuck .entropyOutOfRange := by
  rw [jamBurst_drawn Y hc hu, if_pos ht]
  refine ⟨fun hl => ?_, fun l ls hl hm => ?_⟩
  · simp only [drawLen, hl, Res.bind_stuck]
  · simp only [drawLen, hl, if_neg (Nat.not_lt.2 hm), Res.bind_stuck]

/-- The buffer after a run of flips, and FLIPS with their number. -/
theorem flipRun_eq (as : List Nat) (Y : List Byte) (s : State) :
    flipRun as Y s =
      (flipAll Y as, { s with cnt := { s.cnt with flips := s.cnt.flips + BitVec.ofNat 64 as.length } }) := by
  induction as generalizing Y s with
  | nil => simp [flipRun, flipAll]
  | cons a as ih =>
    rw [flipRun, ih]
    simp [flipAll, State.countFlip, BitVec.ofNat_add]
    rw [BitVec.add_assoc, BitVec.add_comm 1#64]

/-! ### Burst plans -/

@[simp] theorem burstsFrom_nil (c : Nat) : burstsFrom c [] = [] := rfl

@[simp] theorem burstsFrom_cons (c : Nat) (p : Nat × Nat) (ps : BurstPlan) :
    burstsFrom c (p :: ps) = (c + p.1, p.2) :: burstsFrom (c + p.1 + max p.2 1) ps := rfl

@[simp] theorem cursorAfter_nil (c : Nat) : cursorAfter c [] = c := rfl

@[simp] theorem cursorAfter_cons (c : Nat) (p : Nat × Nat) (ps : BurstPlan) :
    cursorAfter c (p :: ps) = cursorAfter (c + p.1 + max p.2 1) ps := rfl

@[simp] theorem burstTriggers_nil : burstTriggers [] = [] := rfl

theorem burstTriggers_cons (p : Nat × Nat) (ps : BurstPlan) :
    burstTriggers (p :: ps) = List.replicate p.1 false ++ true :: burstTriggers ps := by simp [burstTriggers]

/-- The cursor moves forward: each burst starts at or after the cursor before it, and below the cursor after it. -/
theorem burstsFrom_bounds {ps : BurstPlan} {c : Nat} {b : Nat × Nat} (h : b ∈ burstsFrom c ps) :
    c ≤ b.1 ∧ b.1 + max b.2 1 ≤ cursorAfter c ps := by
  have hle : ∀ (qs : BurstPlan) (e : Nat), e ≤ cursorAfter e qs := by
    intro qs
    induction qs with
    | nil => exact fun _ => le_rfl
    | cons q qs ih => exact fun e => le_trans (by omega) (ih (e + q.1 + max q.2 1))
  induction ps generalizing c with
  | nil => cases h
  | cons p ps ih =>
    rcases List.mem_cons.1 h with rfl | h
    · exact ⟨Nat.le_add_right _ _, hle ps _⟩
    · exact ⟨le_trans (by omega) (ih h).1, (ih h).2⟩

end Sys2Proof.Machine
end

