-- ==== Sys2Proof/Laws/Operands.lean ====
section
/-! SUPPORT. The operand checks say what the rules list, the sizes of a Code Block, and what the end of a command spends. -/

namespace Sys2Proof.Machine

theorem deficient_eq_false_iff {d : Nat} (h : 1 ≤ d) : deficient d = false ↔ 8 * d + parityBits d < 2 ^ parityBits d := by
  simp [deficient, h]

theorem encbOperandsLegal_iff (s : State) : encbOperandsLegal s = true ↔ LegalOperands .encb s := by
  simp only [encbOperandsLegal, LegalOperands, Bool.and_eq_true, decide_eq_true_eq, Bool.not_eq_true']
  constructor
  · rintro ⟨⟨⟨h1, h2⟩, h3⟩, h4⟩
    exact ⟨⟨h1, (deficient_eq_false_iff h1).1 h3⟩, h2, h4⟩
  · rintro ⟨⟨h1, h3⟩, h2, h4⟩
    exact ⟨⟨⟨h1, h2⟩, (deficient_eq_false_iff h1).2 h3⟩, h4⟩

theorem codecStreamOperandsLegal_iff (s : State) :
    codecStreamOperandsLegal s = true ↔
      admittedSize s.dpb ∧ 1 ≤ s.groups ∧ codeSize s.dpb * s.groups ≤ s.params.frameCap := by
  simp only [codecStreamOperandsLegal, frameSize, Bool.and_eq_true, decide_eq_true_eq, Bool.not_eq_true']
  constructor
  · rintro ⟨⟨⟨h1, h2⟩, h3⟩, h4⟩
    exact ⟨⟨h1, (deficient_eq_false_iff h1).1 h2⟩, h3, of_decide_eq_true h4⟩
  · rintro ⟨⟨h1, h2⟩, h3, h4⟩
    exact ⟨⟨⟨h1, (deficient_eq_false_iff h1).2 h2⟩, h3⟩, decide_eq_true h4⟩

theorem ilvOperandsLegal_iff (s : State) : ilvOperandsLegal s = true ↔ LegalOperands .ilv s := by
  simp [ilvOperandsLegal, LegalOperands, Nat.one_le_iff_ne_zero, and_assoc]

theorem corbOperandsLegal_iff (s : State) : corbOperandsLegal s = true ↔ LegalOperands .corb s := by
  simp [corbOperandsLegal, LegalOperands]

theorem decbOperandsLegal_iff (s : State) : decbOperandsLegal s = true ↔ LegalOperands .decb s := by
  simp [decbOperandsLegal, LegalOperands]

theorem jambOperandsLegal_iff (s : State) : jambOperandsLegal s = true ↔ LegalOperands .jamb s := by
  simp [jambOperandsLegal, LegalOperands, and_assoc]

theorem jamrOperandsLegal_iff (s : State) : jamrOperandsLegal s = true ↔ LegalOperands .jamr s := by
  simp only [jamrOperandsLegal, jambOperandsLegal, LegalOperands, Bool.and_eq_true, decide_eq_true_eq]
  tauto

@[simp] theorem State.dpb_beginCommand (s : State) : s.beginCommand.dpb = s.dpb := rfl

@[simp] theorem State.groups_beginCommand (s : State) : s.beginCommand.groups = s.groups := rfl

@[simp] theorem State.dsize_beginCommand (s : State) : s.beginCommand.dsize = s.dsize := rfl

@[simp] theorem State.pNum_beginCommand (s : State) : s.beginCommand.pNum = s.pNum := rfl

@[simp] theorem State.pDen_beginCommand (s : State) : s.beginCommand.pDen = s.pDen := rfl

@[simp] theorem State.maxBurst_beginCommand (s : State) : s.beginCommand.maxBurst = s.maxBurst := rfl

@[simp] theorem State.bufSize_beginCommand (s : State) : s.beginCommand.bufSize = s.bufSize := rfl

@[simp] theorem State.srcLen_beginCommand (s : State) : s.beginCommand.srcLen = s.srcLen := rfl

@[simp] theorem State.srcOperand_beginCommand (s : State) : s.beginCommand.srcOperand = s.srcOperand := rfl

@[simp] theorem State.srcOperand_length (s : State) : s.srcOperand.length = s.srcLen := by
  simp [State.srcOperand, Memory.readBytes]

/-- The bits of a Code Block: totalBits and at most 7 more (R77, R78, R80). -/
theorem codeSize_bounds (d : Nat) : totalBits d ≤ 8 * codeSize d ∧ 8 * codeSize d ≤ totalBits d + 7 := by
  unfold codeSize ceilDiv; omega

theorem codeSize_pos (d : Nat) : 1 ≤ codeSize d := by
  have := (codeSize_bounds d).1
  unfold totalBits at this; omega

/-- The parity positions of a size d ≥ 1 lie in the block (R83). -/
theorem parityPosition_lt {d k : Nat} (hd : 1 ≤ d) (hk : k < parityBits d) : 2 ^ k < totalBits d := by
  have hlog : 2 ^ d.log2 ≤ d := Nat.log2_self_le (by omega)
  have hb : parityBits d = d.log2 + 4 := by simp [parityBits, bitLength, Nat.ne_of_gt hd]
  have : 2 ^ k ≤ 2 ^ (d.log2 + 3) := Nat.pow_le_pow_right (by omega) (by omega)
  have h8 : 2 ^ (d.log2 + 3) = 2 ^ d.log2 * 8 := by ring
  unfold totalBits
  omega

/-! ### The environment's choices -/

@[simp] theorem spendsChoices_complete (s : State) : spendsChoices s.complete := ⟨rfl, rfl, rfl, rfl, rfl, rfl⟩

@[simp] theorem spendsChoices_raise (s : State) (c : Code) : spendsChoices (s.raise c) := ⟨rfl, rfl, rfl, rfl, rfl, rfl⟩

end Sys2Proof.Machine
end

