-- ==== Sys2Proof/Laws/PerInstr.lean ====
section
/-! SUPPORT. What holds of every instruction as syntax, one lemma per constructor. -/

namespace Sys2Proof.Laws.LegalEncoding

/-- The word an instruction is encoded as is legal (R66): RSVD is zero and OPCODE is one of the eight values. -/
def Statement (i : Instr) : Prop := i.WellFormed → LegalWord (encode i)

theorem encb : Statement .encb := fun _ => by decide

theorem encs : Statement .encs := fun _ => by decide

theorem ilv : Statement .ilv := fun _ => by decide

theorem corb : Statement .corb := fun _ => by decide

theorem decb : Statement .decb := fun _ => by decide

theorem decs : Statement .decs := fun _ => by decide

theorem jamb : Statement .jamb := fun _ => by decide

theorem jamr : Statement .jamr := fun _ => by decide

end Sys2Proof.Laws.LegalEncoding
end

