-- ==== Sys2Proof/Tests/Slice0.lean ====
section
/-! SUPPORT. Tests: the checks of WellFormed refuse ill-formed words, the words of spec/30_encoding.md R68 decode, the vectors of
spec/95_test_vectors.md run, and every statement of Certificates/Slice0/Obligations.lean with hypotheses has a witness that
meets them. Expected values are the spec's, named with each test. -/

namespace Sys2Proof.Tests

open Sys2Proof Sys2Proof.Machine

set_option Elab.async false

/-! ### Helpers -/

/-- The bytes of a list of numbers. -/
def bytes (ns : List Nat) : List Byte := ns.map (BitVec.ofNat 8)

/-- The words of a list of numbers. -/
def words (ns : List Nat) : List Word := ns.map (BitVec.ofNat 32)

/-- A state after reset with an operand in SRC, as `LOAD` leaves it. -/
def operand (ns : List Nat) : State :=
  { State.reset with
    src := State.reset.src.writeBytes 0 (bytes ns)
    ops := { OperandRegs.zero with srcLen := BitVec.ofNat 32 ns.length } }

/-- A state after reset with DPB, GROUPS and unread bytes of IN. -/
def codecStream (d g : Nat) (ns : List Nat) : State :=
  { State.reset with
    inRest := bytes ns
    ops := { OperandRegs.zero with dpb := BitVec.ofNat 32 d, groups := BitVec.ofNat 32 g } }

/-- A state after reset with the operands of the noise injector, unread bytes of IN and entropy answers. -/
def noise (num den burst buf : Nat) (ns us ls : List Nat) : State :=
  { State.reset with
    inRest := bytes ns
    drawsU := words us
    drawsL := ls
    ops :=
      { OperandRegs.zero with
        pNum := BitVec.ofNat 32 num, pDen := BitVec.ofNat 32 den
        maxBurst := BitVec.ofNat 32 burst, bufSize := BitVec.ofNat 32 buf } }

/-- A state with one host operation to come. -/
def withOp (s : State) (op : HostOp) : State := { s with pending := [op] }

/-- The next state of an outcome that has one. -/
def after : Host.Outcome State Fault Refusal → State
  | .next t => t
  | .fault _ => State.reset
  | .refused _ => State.reset

/-- Whether an outcome is a next state. -/
def goesOn : Host.Outcome State Fault Refusal → Bool
  | .next _ => true
  | .fault _ => false
  | .refused _ => false

theorem eq_next_after {o : Host.Outcome State Fault Refusal} (h : goesOn o = true) : o = .next (after o) := by
  cases o with
  | next t => rfl
  | fault f => cases h
  | refused r => cases h

/-! ### The checks of WellFormed, and decoding -/

theorem test_reserved_bits_refused : ¬ LegalWord 0x00000101#32 := by decide

theorem test_reserved_top_bit_refused : ¬ LegalWord 0x80000001#32 := by decide

theorem test_unassigned_opcode_refused : ¬ LegalWord 0x00000012#32 := by decide

theorem test_zero_opcode_refused : ¬ LegalWord 0x00000000#32 := by decide

/-- R68, written out bit by bit from the table's encodings. -/
theorem test_decode_encb : decode 0b00000000000000000000000000000001#32 = .ok .encb := by decide

theorem test_decode_encs : decode 0b00000000000000000000000000010000#32 = .ok .encs := by decide

theorem test_decode_ilv : decode 0b00000000000000000000000000000100#32 = .ok .ilv := by decide

theorem test_decode_corb : decode 0b00000000000000000000000000000010#32 = .ok .corb := by decide

theorem test_decode_decb : decode 0b00000000000000000000000000000011#32 = .ok .decb := by decide

theorem test_decode_decs : decode 0b00000000000000000000000000010001#32 = .ok .decs := by decide

theorem test_decode_jamb : decode 0b00000000000000000000000000100000#32 = .ok .jamb := by decide

theorem test_decode_jamr : decode 0b00000000000000000000000000100001#32 = .ok .jamr := by decide

theorem test_decodeTableWord_jamr : decodeTableWord 32 0x21 = some .jamr := by decide

/-- E48: RSVD ≠ 0 with a legal opcode. -/
theorem test_decode_reserved : decode 0x00000101#32 = .error .reservedNonzero := by decide

/-! ### Vectors of the spec -/

/-- W1: encoding `FF` gives `77 78`. -/
theorem test_encb_w1 : (after (exec .encb (operand [0xFF]))).dstResult = bytes [0x77, 0x78] := by decide +kernel

/-- E12: SRC_LEN = 31 is a deficient layout. -/
theorem test_encb_deficient : (after (exec .encb (operand (List.replicate 31 0)))).status = 0x00000102#32 := by
  decide +kernel

/-- E32: a short final frame is padded with zeros. -/
theorem test_encs_e32 : (after (exec .encs (codecStream 1 2 [0xFF, 0x01, 0xA5]))).out =
    bytes [0x6A, 0x6A, 0x6A, 0xC0, 0x2A, 0x08, 0x08, 0x80] := by decide +kernel

/-- E29: `12 34 56` with 3 groups gives `05 70 E8`. -/
theorem test_ilv_e29 :
    (after (exec .ilv { operand [0x12, 0x34, 0x56] with ops := { OperandRegs.zero with srcLen := 3, groups := 3 } })).dstResult =
      bytes [0x05, 0x70, 0xE8] := by decide +kernel

/-- W1: the flip at padding address 15 is corrected. -/
theorem test_corb_w1 : (after (exec .corb (operand [0x77, 0x79]))).dstResult = bytes [0x77, 0x78] ∧
    (after (exec .corb (operand [0x77, 0x79]))).syndrome = 15#32 := by decide +kernel

/-- E21: a syndrome that names no bit. -/
theorem test_corb_e21 :
    (after (exec .corb (operand [0x8E, 0x0B, 0x09, 0x8D, 0x48, 0xCA, 0xCC, 0xCE, 0x68]))).status = 0x00000104#32 ∧
      (after (exec .corb (operand [0x8E, 0x0B, 0x09, 0x8D, 0x48, 0xCA, 0xCC, 0xCE, 0x68]))).syndrome = 112#32 := by
  decide +kernel

/-- E24: padding addresses follow the data. -/
theorem test_decb_e24 :
    (after (exec .decb { operand [0x77, 0x78] with ops := { OperandRegs.zero with srcLen := 2, dsize := 2 } })).dstResult =
      bytes [0xFF, 0x00] := by decide +kernel

/-- E37: a 3-bit burst in a frame of 3 groups is corrected. -/
theorem test_decs_e37 : (after (exec .decs (codecStream 1 3 [0x5F, 0x85, 0xC0, 0xC0, 0x3A, 0x00]))).out =
    bytes [0x41, 0x42, 0x43] := by decide +kernel

/-- E39: the input ends inside the second frame. -/
theorem test_decs_e39 : (after (exec .decs (codecStream 1 2 [0x2A, 0x2A, 0x2A, 0x80, 0x2A]))).status = 0x00000105#32 ∧
    (after (exec .decs (codecStream 1 2 [0x2A, 0x2A, 0x2A, 0x80, 0x2A]))).out = bytes [0xFF, 0x00] := by decide +kernel

/-- E43, p = 1/3: the threshold draw itself flips, the next one does not. -/
theorem test_jamb_e43 :
    (after (exec .jamb (noise 1 3 0 1 [0xFF]
      [0x55555555, 0x55555556, 0, 0xFFFFFFFF, 0x55555554, 0x55555555, 1, 2] []))).out = bytes [0x50] := by decide +kernel

/-- E46: a burst is cut at the end of a buffer, and the draws run on across buffers. -/
theorem test_jamr_e46 :
    (after (exec .jamr (noise 1 1 8 1 [0x00, 0x00]
      [0xFFFFFFFF, 0xFFFFFFFF, 0xFFFFFFFF, 0xFFFFFFFF, 0xFFFFFFFF, 0xFFFFFFFF, 0, 0, 0xFFFFFFFF] [7, 7]))).out =
      bytes [0x03, 0xFE] := by decide +kernel

/-- E49: CORB as the first command after reset. -/
theorem test_step_first_command : (after (step (State.reset.withFetchWord 32 0x00000002))).status = 0x00000000#32 ∧
    (after (step (State.reset.withFetchWord 32 0x00000002))).cmd = 0x00000002#32 := by decide +kernel

/-! ### Witnesses: the hypotheses of the statements can be met -/

theorem witness_ResetClearsEveryRegister : (withOp (operand [0xFF]) .reset).pending = .reset :: [] := rfl

theorem witness_EveryStepKeepsInvariant :
    (withOp State.reset (.feed (bytes [1]))).Inv ∧
      step (withOp State.reset (.feed (bytes [1]))) = .next (after (step (withOp State.reset (.feed (bytes [1]))))) := by
  refine ⟨?_, eq_next_after (by decide)⟩
  constructor <;> try decide
  rintro m (rfl | rfl) k hk <;> cases hk <;> decide

theorem witness_DecodeAndEncodeAgree : Instr.WellFormed .jamr ∧ decode 0x00000021#32 = .ok .jamr := ⟨trivial, by decide⟩

theorem witness_StepRunsTheIssuedCommand :
    (withOp State.reset (.busWrite 0 4 0x21#32)).pending = .busWrite 0 4 0x21#32 :: [] ∧
      IssuesWord State.reset.params 0x21#32 (.busWrite 0 4 0x21#32) ∧ decode 0x21#32 = .ok .jamr :=
  ⟨rfl, .inr (.inr (.inr rfl)), by decide⟩

theorem witness_IllegalWordRaisesIllegalCommand :
    (withOp State.reset (.set .cmd 0x22)).pending = .set .cmd 0x22 :: [] ∧
      IssuesWord State.reset.params 0x22#32 (.set .cmd 0x22) ∧ ¬ LegalWord 0x22#32 :=
  ⟨rfl, .inr (.inr (.inl rfl)), by decide⟩

theorem witness_IdleCoreWaits : State.reset.pending = [] := rfl

theorem witness_HostAccessRules_readOnly : 0x54 % 4 = 0 ∧ 0x54 ∈ readOnlyOffsets ∧
    (withOp State.reset (.busWrite 0x54 4 1#32)).pending = .busWrite (State.reset.params.regBase + 0x54) 4 1#32 :: [] :=
  ⟨rfl, by decide, rfl⟩

theorem witness_HostAccessRules_set : Reg.dstLen.offset ∈ readOnlyOffsets ∧
    (withOp State.reset (.set .dstLen 7)).pending = .set .dstLen 7 :: [] := ⟨by decide, rfl⟩

theorem witness_HostAccessRules_unmapped : 0x58 % 4 = 0 ∧ 0x58 ≤ 0x58 ∧
    (withOp State.reset (.busRead 0x58 4)).pending = .busRead (State.reset.params.regBase + 0x58) 4 :: [] :=
  ⟨rfl, le_rfl, rfl⟩

/-- The hole at 0x34, and a whole register's address with a wrong width. -/
theorem witness_HostAccessRules_hole : 0x34 % 4 = 0 ∧
    (withOp State.reset (.busRead 0x34 4)).pending = .busRead (State.reset.params.regBase + 0x34) 4 :: [] ∧
    (withOp State.reset (.busWrite 0x34 4 1#32)).pending = .busWrite (State.reset.params.regBase + 0x34) 4 1#32 :: [] ∧
    2 ≠ 4 ∧ (withOp State.reset (.busRead 0x10 2)).pending = .busRead (State.reset.params.regBase + 0x10) 2 :: [] ∧
    (withOp State.reset (.busWrite 0x10 2 1#32)).pending = .busWrite (State.reset.params.regBase + 0x10) 2 1#32 :: [] :=
  ⟨rfl, rfl, rfl, by decide, rfl, rfl⟩

theorem witness_HostAccessRules_shape : 0x11 % 4 ≠ 0 ∧
    (withOp State.reset (.busWrite 0x11 4 1#32)).pending = .busWrite (State.reset.params.regBase + 0x11) 4 1#32 :: [] ∧
    (withOp State.reset (.busRead 0x11 4)).pending = .busRead (State.reset.params.regBase + 0x11) 4 :: [] :=
  ⟨by decide, rfl, rfl⟩

theorem witness_HostAccessRules_src : 2 ^ 28 - 2 < State.reset.params.bufCap ∧
    (withOp State.reset (.srcWrite (2 ^ 28 - 2) 7#8)).pending = .srcWrite (2 ^ 28 - 2) 7#8 :: [] ∧
    (withOp State.reset (.srcRead (2 ^ 28 - 2))).pending = .srcRead (2 ^ 28 - 2) :: [] := ⟨by decide, rfl, rfl⟩

theorem witness_HostAccessRules_dst : State.reset.dstLen.toNat ≤ 0 ∧
    (withOp State.reset (.dstRead 0)).pending = .dstRead 0 :: [] := ⟨by decide, rfl⟩

theorem witness_HostAccessRules_dstBelowLen : 1 < (withOp (after (exec .encb (operand [0xFF]))) (.dstRead 1)).dstLen.toNat ∧
    (withOp (after (exec .encb (operand [0xFF]))) (.dstRead 1)).pending = .dstRead 1 :: [] := by decide +kernel

theorem witness_HostWritesOperandRegister : Reg.srcLen.offset ∈ operandOffsets ∧
    (withOp State.reset (.set .srcLen (5#32).toNat)).pending = .set .srcLen (5#32).toNat :: [] := ⟨by decide, rfl⟩

theorem witness_HostReadsRegister :
    (withOp State.reset (.busRead 0x3C 4)).pending = .busRead (State.reset.params.regBase + Reg.flipsHi.offset) 4 :: [] := rfl

theorem witness_LoadFillsTheOperand : State.reset.params.wf ∧
    (withOp State.reset (.load (bytes [1, 2]))).pending = .load (bytes [1, 2]) :: [] ∧
    (bytes [1, 2]).length ≤ State.reset.params.bufCap := ⟨by decide, rfl, by decide⟩

theorem witness_TakeMakesTheResultTheOperand :
    (withOp (after (exec .encb (operand [0xFF]))) .take).Inv ∧
      (withOp (after (exec .encb (operand [0xFF]))) .take).pending = .take :: [] := by
  refine ⟨?_, rfl⟩
  constructor <;> try decide +kernel
  rintro m (rfl | rfl) k hk
  · have h : (withOp (after (exec .encb (operand [0xFF]))) .take).src.fill = .unspecified 0 := rfl
    rw [h] at hk
    cases hk
    decide +kernel
  · have h : (withOp (after (exec .encb (operand [0xFF]))) .take).dst.fill = .zeros := by decide +kernel
    rw [h] at hk
    cases hk

theorem witness_DilvRestoresTheOriginal :
    (withOp (operand [0xAA, 0x55]) (.dilv 2)).params.wf ∧
      (withOp (operand [0xAA, 0x55]) (.dilv 2)).pending = .dilv 2 :: [] ∧
      (withOp (operand [0xAA, 0x55]) (.dilv 2)).srcLen ≤ (withOp (operand [0xAA, 0x55]) (.dilv 2)).params.bufCap ∧
      (withOp (operand [0xAA, 0x55]) (.dilv 2)).srcOperand = interleave (bytes [0xF0, 0x0F]) 2 ∧
      8 * (bytes [0xF0, 0x0F]).length % 2 = 0 ∧ bytes [0xF0, 0x0F] ≠ [] := by decide +kernel

theorem witness_DilvRestoresTheOriginal_empty :
    (withOp (operand []) (.dilv 2)).srcOperand = interleave [] 2 ∧ 8 * ([] : List Byte).length % 2 = 0 ∧
      (withOp (operand []) (.dilv 0)).pending = .dilv 0 :: [] := by decide +kernel

/-- An illegal g whose quotient R98 admits, one whose quotient it does not, and one whose quotient is 0. -/
theorem witness_DilvRestoresTheOriginal_illegal :
    (withOp (operand [1]) (.dilv 3)).pending = .dilv 3 :: [] ∧ 8 * (withOp (operand [1]) (.dilv 3)).srcLen % 3 ≠ 0 ∧
      8 * (withOp (operand [1]) (.dilv 3)).srcLen / 3 < 2 ^ 32 ∧
      8 * (withOp (operand [1, 2]) (.dilv 5)).srcLen % 5 ≠ 0 ∧ 8 * (withOp (operand [1]) (.dilv 9)).srcLen % 9 ≠ 0 ∧
      8 * (withOp (operand [1]) (.dilv 9)).srcLen / 9 = 0 := by decide +kernel

/-- R75: with SRC_LEN = 1, DILV 3 sets GROUPS to 2 and ILV raises CONFIG_ERROR. -/
theorem test_dilv_illegal : (after (Host.Core.run Sys2Proof.core 3 (withOp (operand [1]) (.dilv 3)))).ops.groups = 2#32 ∧
    (after (Host.Core.run Sys2Proof.core 3 (withOp (operand [1]) (.dilv 3)))).status = 0x00000102#32 := by decide +kernel

/-- R129: the flips of a unit whose OutWrite fails do not remain; its InRead does. -/
theorem test_jamb_failed_unit :
    (after (exec .jamb { noise 1 1 0 1 [7, 9] (List.replicate 16 0) [] with failOut := [2] })).cnt =
      { flips := 8, units := 1, bytesIn := 2, bytesOut := 1 } := by decide +kernel

theorem witness_CommandsKeepTheHostsState : goesOn (exec .encb (operand [0xFF])) = true := by decide +kernel

theorem witness_EveryCommandSpendsTheChoices :
    goesOn (exec .jamb (noise 1 2 0 1 [0] (List.replicate 9 0) [1])) = true ∧
      (withOp (noise 1 2 0 1 [0] [0] [1]) (.cmd 0x22#32)).pending = .cmd 0x22#32 :: [] ∧
      IssuesWord (noise 1 2 0 1 [0] [0] [1]).params 0x22#32 (.cmd 0x22#32) ∧
      goesOn (step (withOp (noise 1 2 0 1 [0] [0] [1]) (.cmd 0x22#32))) = true :=
  ⟨by decide +kernel, rfl, .inl rfl, by decide +kernel⟩

theorem witness_StickyRecordsEveryFault : goesOn (exec .encb (operand [])) = true ∧
    goesOn (step (withOp (after (exec .encb (operand []))) (.set .srcLen 1))) = true ∧
    goesOn (step (withOp (operand []) (.cmd 0x22#32))) = true ∧
    (withOp (operand []) .reset).pending = .reset :: [] ∧
    (withOp (operand []) (.cmd 0x22#32)).pending = .cmd 0x22#32 :: [] ∧
    (after (exec .encb (operand []))).sticky = true := by decide +kernel

theorem witness_StreamsOnlyMoveForward : goesOn (exec .encs (codecStream 1 2 [0xFF])) = true ∧
    goesOn (exec .ilv (operand [])) = true ∧ ¬ isStream .ilv := by decide +kernel

theorem witness_OnlyTheCorrectorWritesTheClass : ¬ classifies .decb ∧ goesOn (exec .decb (operand [0x77])) = true := by
  decide +kernel

theorem witness_FaultsAndStreamsLeaveNoResult : goesOn (exec .corb (operand [0x77, 0x7D])) = true ∧
    (after (exec .corb (operand [0x77, 0x7D]))).code ≠ 0x00#8 ∧
    goesOn (exec .encs (codecStream 1 2 [0xFF])) = true ∧ isStream .encs := by decide +kernel

theorem witness_OnlyEntropyCanStopACommand : ¬ isNoise .decs := by decide

theorem witness_ConfigErrorExactlyOnIllegalOperands : ¬ LegalOperands .encb (operand []) ∧
    LegalOperands .encb (operand [0xFF]) ∧ goesOn (exec .encb (operand [0xFF])) = true := by
  refine ⟨?_, ?_, by decide +kernel⟩
  · show ¬ (_ ∧ _ ∧ _)
    decide +kernel
  · show _ ∧ _ ∧ _
    decide +kernel

/-- Two states that agree on what CORB reads and differ elsewhere. -/
theorem witness_BlockResultsDependOnListedOperands :
    ¬ isStream .corb ∧ (operand [0x77, 0x79]).params.bufCap = (withOp (operand [0x77, 0x79]) .take).params.bufCap ∧
      (operand [0x77, 0x79]).ops.srcLen = (withOp (operand [0x77, 0x79]) .take).ops.srcLen ∧
      (operand [0x77, 0x79]).srcOperand = (withOp (operand [0x77, 0x79]) .take).srcOperand ∧
      goesOn (exec .corb (operand [0x77, 0x79])) = true ∧ (after (exec .corb (operand [0x77, 0x79]))).code ≠ 0x02#8 := by
  decide +kernel

/-- Two states that agree on what JAMB reads and differ in MAXBURST. -/
theorem witness_StreamResultsDependOnListedOperands :
    isStream .jamb ∧ (noise 1 1 0 1 [7] (List.replicate 8 0) []).ops.pNum = (noise 1 1 9 1 [7] (List.replicate 8 0) []).ops.pNum ∧
      (noise 1 1 0 1 [7] (List.replicate 8 0) []).ops.pDen = (noise 1 1 9 1 [7] (List.replicate 8 0) []).ops.pDen ∧
      (noise 1 1 0 1 [7] (List.replicate 8 0) []).ops.bufSize = (noise 1 1 9 1 [7] (List.replicate 8 0) []).ops.bufSize ∧
      (noise 1 1 0 1 [7] (List.replicate 8 0) []).inRest = (noise 1 1 9 1 [7] (List.replicate 8 0) []).inRest ∧
      (noise 1 1 0 1 [7] (List.replicate 8 0) []).drawsU = (noise 1 1 9 1 [7] (List.replicate 8 0) []).drawsU ∧
      goesOn (exec .jamb (noise 1 1 0 1 [7] (List.replicate 8 0) [])) = true := by decide +kernel

/-- For DECS: a whole frame is read, and none is. -/
theorem witness_StreamResultsDependOnListedOperands_decs :
    LegalOperands .decs (codecStream 1 1 [0x77, 0x78]) ∧ (1 ∉ (codecStream 1 1 [0x77, 0x78]).failIn ∧
      frameSize 1 1 ≤ (codecStream 1 1 [0x77, 0x78]).inRest.length ∧
      goesOn (exec .decs (codecStream 1 1 [0x77, 0x78])) = true ∧
      ¬ frameSize 1 1 ≤ (codecStream 1 1 [0x77]).inRest.length ∧
      goesOn (exec .decs (codecStream 1 1 [0x77])) = true) := by
  refine ⟨?_, by decide +kernel⟩
  show _ ∧ _ ∧ _
  decide +kernel

theorem witness_DataPositionsOfALayout : admittedSize 30 ∧ deficient 31 = true ∧ 5 = bitLength 31 ∧ 31 + 1 = 2 ^ 5 := by
  decide

theorem witness_EncbWritesTheCodeBlock : (operand [0xFF]).params.wf ∧ LegalOperands .encb (operand [0xFF]) := by
  refine ⟨by decide, ?_⟩
  show _ ∧ _ ∧ _
  decide +kernel

theorem witness_CodeBlocksHaveZeroSyndrome : admittedSize (bytes [0xFF]).length ∧ 3 < parityBits (bytes [0xFF]).length := by
  decide

theorem witness_EncsWritesInterleavedFrames : LegalOperands .encs (codecStream 1 2 [0xFF, 0x01, 0xA5]) ∧
    (codecStream 1 2 [0xFF, 0x01, 0xA5]).ioQuiet ∧
    1 < ceilDiv (codecStream 1 2 [0xFF, 0x01, 0xA5]).inRest.length
      ((codecStream 1 2 [0xFF, 0x01, 0xA5]).dpb * (codecStream 1 2 [0xFF, 0x01, 0xA5]).groups) := by
  refine ⟨?_, by decide, by decide⟩
  show _ ∧ _ ∧ _
  decide +kernel

theorem witness_IlvTransposesTheOperand :
    ({ operand [0xF0, 0x0F] with ops := { OperandRegs.zero with srcLen := 2, groups := 2 } } : State).params.wf ∧
      LegalOperands .ilv { operand [0xF0, 0x0F] with ops := { OperandRegs.zero with srcLen := 2, groups := 2 } } := by
  refine ⟨by decide, ?_⟩
  show _ ∧ _ ∧ _
  decide +kernel

theorem witness_InterleavePermutesTheBits : 1 ≤ 3 ∧ 8 * (bytes [0x12, 0x34, 0x56]).length % 3 = 0 ∧
    23 < 8 * (bytes [0x12, 0x34, 0x56]).length := by decide

theorem witness_InterleaveInverseIsTheSwappedCount : bytes [0x12, 0x34, 0x56] ≠ [] ∧ 1 ≤ 3 ∧
    8 * (bytes [0x12, 0x34, 0x56]).length % 3 = 0 := by decide

theorem witness_SameCountTwiceRestoresSquares : 4 * 4 = 8 * (bytes [0x12, 0x34]).length := by decide

theorem witness_InterleaveIdentityCases : 1 ≤ (bytes [0xF0, 0x0F]).length ∧ 1 ≤ 5 := by decide

/-- One operand for each row of the table, MALFORMED_INPUT too (W1, E17, E21). -/
theorem witness_CorbFollowsTheDecisionTable :
    (operand [0x77, 0x78]).params.wf ∧ LegalOperands .corb (operand [0x77, 0x78]) ∧
      (errorAddr (operand [0xF7, 0x78]).srcOperand = 0 ∧ parityCheck (operand [0xF7, 0x78]).srcOperand = true) ∧
      (errorAddr (operand [0x77, 0x79]).srcOperand ≠ 0 ∧ parityCheck (operand [0x77, 0x79]).srcOperand = true) ∧
      (errorAddr (operand [0x77, 0x7D]).srcOperand ≠ 0 ∧ parityCheck (operand [0x77, 0x7D]).srcOperand = false) ∧
      8 * (operand [0x8E, 0x0B, 0x09, 0x8D, 0x48, 0xCA, 0xCC, 0xCE, 0x68]).srcLen ≤
        errorAddr (operand [0x8E, 0x0B, 0x09, 0x8D, 0x48, 0xCA, 0xCC, 0xCE, 0x68]).srcOperand := by
  refine ⟨by decide, ?_, by decide +kernel⟩
  show _ ≤ _
  decide +kernel

theorem witness_PowerOfTwoLengthsAreNeverMalformed : (∃ k, 8 * (bytes [1, 2]).length = 2 ^ k) ∧
    (∃ k, 8 * (operand [1, 2]).srcLen = 2 ^ k) ∧ goesOn (exec .corb (operand [1, 2])) = true :=
  ⟨⟨4, by decide⟩, ⟨4, by decide⟩, by decide +kernel⟩

theorem witness_FlipsOfACodeBlockAreClassifiedByTheirXor : admittedSize (bytes [0xFF]).length ∧ [0, 3, 15].Nodup ∧
    ∀ a ∈ [0, 3, 15], a < 8 * codeSize (bytes [0xFF]).length := by decide

theorem witness_SingleFlipsAreUndoneExceptAtBitZero :
    (operand [0x77, 0x79]).params.wf ∧ LegalOperands .corb (operand [0x77, 0x79]) ∧ admittedSize (bytes [0xFF]).length ∧
      15 < 8 * codeSize (bytes [0xFF]).length ∧
      (operand [0x77, 0x79]).srcOperand = bufFlip (encodeBlock (bytes [0xFF])) 15 ∧
      (operand [0xF7, 0x78]).srcOperand = bufFlip (encodeBlock (bytes [0xFF])) 0 := by
  refine ⟨by decide, ?_, by decide +kernel⟩
  show _ ≤ _
  decide +kernel

theorem witness_DoubleFlipsAreDetected :
    (operand [0x77, 0x7D]).params.wf ∧ LegalOperands .corb (operand [0x77, 0x7D]) ∧ admittedSize (bytes [0xFF]).length ∧
      13 < 8 * codeSize (bytes [0xFF]).length ∧ 15 < 8 * codeSize (bytes [0xFF]).length ∧ 13 ≠ 15 ∧
      (operand [0x77, 0x7D]).srcOperand = flipAll (encodeBlock (bytes [0xFF])) [13, 15] := by
  refine ⟨by decide, ?_, by decide +kernel⟩
  show _ ≤ _
  decide +kernel

theorem witness_DecbDeliversTheDataPositions :
    ({ operand [0x77, 0x78] with ops := { OperandRegs.zero with srcLen := 2, dsize := 2 } } : State).params.wf ∧
      LegalOperands .decb { operand [0x77, 0x78] with ops := { OperandRegs.zero with srcLen := 2, dsize := 2 } } := by
  refine ⟨by decide, ?_⟩
  show _ ∧ _
  decide +kernel

theorem witness_DecodeUndoesEncode : admittedSize (bytes [0x12, 0x34]).length := by decide

/-- The frame of E37 with its burst: block 0 has syndrome 2, blocks 1 and 2 syndrome 1. -/
theorem witness_DecsDecodesWholeFrames :
    (codecStream 1 3 [0x5F, 0x85, 0xC0, 0xC0, 0x3A, 0x00]).params.wf ∧
      LegalOperands .decs (codecStream 1 3 [0x5F, 0x85, 0xC0, 0xC0, 0x3A, 0x00]) ∧
      (codecStream 1 3 [0x5F, 0x85, 0xC0, 0xC0, 0x3A, 0x00]).ioQuiet ∧
      (codecStream 1 3 [0x5F, 0x85, 0xC0, 0xC0, 0x3A, 0x00]).inRest.length %
        frameSize (codecStream 1 3 [0x5F, 0x85, 0xC0, 0xC0, 0x3A, 0x00]).dpb
          (codecStream 1 3 [0x5F, 0x85, 0xC0, 0xC0, 0x3A, 0x00]).groups = 0 ∧
      (∀ k < 1, ∀ B ∈ streamBlocks (bytes [0x5F, 0x85, 0xC0, 0xC0, 0x3A, 0x00]) 1 3 k, correctable B) := by
  refine ⟨by decide, ?_, by decide, by decide +kernel, by decide +kernel⟩
  show _ ∧ _ ∧ _
  decide +kernel

theorem witness_DecsUndoesEncs :
    LegalOperands .encs (codecStream 1 2 [0xFF]) ∧ (codecStream 1 2 [0xFF]).ioQuiet ∧
      goesOn (exec .encs (codecStream 1 2 [0xFF])) = true ∧
      (after (exec .encs (codecStream 1 2 [0xFF]))).out = (codecStream 1 2 [0xFF]).out ++ bytes [0x2A, 0x2A, 0x2A, 0x80] ∧
      LegalOperands .decs (codecStream 1 2 [0x2A, 0x2A, 0x2A, 0x80]) ∧ (codecStream 1 2 [0x2A, 0x2A, 0x2A, 0x80]).ioQuiet ∧
      (codecStream 1 2 [0x2A, 0x2A, 0x2A, 0x80]).inRest = bytes [0x2A, 0x2A, 0x2A, 0x80] := by
  refine ⟨?_, by decide, by decide +kernel, by decide +kernel, ?_, by decide, rfl⟩ <;>
    · show _ ∧ _ ∧ _
      decide +kernel

/-- E37: a burst within addresses 4 to 6 of the frame of `41 42 43`, all of them and the outer two. -/
theorem witness_BurstsUpToTheGroupCountAreCorrected :
    LegalOperands .decs (codecStream 1 3 [0x5F, 0x85, 0xC0, 0xC0, 0x3A, 0x00]) ∧
      (codecStream 1 3 [0x5F, 0x85, 0xC0, 0xC0, 0x3A, 0x00]).ioQuiet ∧
      (bytes [0x41, 0x42, 0x43]).length = 1 * (1 * 3) ∧ 3 ≤ 3 ∧ 4 + 3 ≤ 8 * (1 * frameSize 1 3) ∧
      [4, 5, 6].Nodup ∧ (∀ a ∈ [4, 5, 6], 4 ≤ a ∧ a < 4 + 3) ∧ [4, 6].Nodup ∧ (∀ a ∈ [4, 6], 4 ≤ a ∧ a < 4 + 3) ∧
      (codecStream 1 3 [0x5F, 0x85, 0xC0, 0xC0, 0x3A, 0x00]).inRest =
        flipAll ((List.range 1).flatMap (fun k => encodeUnit 1 3 (slice (bytes [0x41, 0x42, 0x43]) (k * (1 * 3)) (1 * 3))))
          [4, 5, 6] := by
  refine ⟨?_, by decide, by decide, by decide, by decide +kernel, by decide, by decide, by decide, by decide, by decide +kernel⟩
  show _ ∧ _ ∧ _
  decide +kernel

/-- E39: a whole frame, then one byte. -/
theorem witness_TruncatedFrameAfterTheWholeOnes :
    LegalOperands .decs (codecStream 1 2 [0x2A, 0x2A, 0x2A, 0x80, 0x2A]) ∧
      (codecStream 1 2 [0x2A, 0x2A, 0x2A, 0x80, 0x2A]).ioQuiet ∧
      (codecStream 1 2 [0x2A, 0x2A, 0x2A, 0x80, 0x2A]).inRest = bytes [0x2A, 0x2A, 0x2A, 0x80] ++ bytes [0x2A] ∧
      (bytes [0x2A, 0x2A, 0x2A, 0x80]).length % frameSize 1 2 = 0 ∧ 0 < (bytes [0x2A]).length ∧
      (bytes [0x2A]).length < frameSize 1 2 ∧
      { codecStream 1 2 [0x2A, 0x2A, 0x2A, 0x80, 0x2A] with inRest := bytes [0x2A, 0x2A, 0x2A, 0x80] } =
        codecStream 1 2 [0x2A, 0x2A, 0x2A, 0x80] ∧
      goesOn (exec .decs (codecStream 1 2 [0x2A, 0x2A, 0x2A, 0x80])) = true ∧
      (after (exec .decs (codecStream 1 2 [0x2A, 0x2A, 0x2A, 0x80]))).code = 0x00#8 := by
  refine ⟨?_, by decide +kernel, rfl, by decide +kernel, by decide, by decide +kernel, rfl, by decide +kernel⟩
  show _ ∧ _ ∧ _
  decide +kernel

/-- P3: frame 1 is `77 78`, frame 2 is `9C 88` with two flips; its block is the first of the frame. -/
theorem witness_DecsAbortsAtAnUncorrectableBlock :
    (codecStream 1 1 [0x77, 0x78, 0x9C, 0x88]).params.wf ∧ LegalOperands .decs (codecStream 1 1 [0x77, 0x78, 0x9C, 0x88]) ∧
      (codecStream 1 1 [0x77, 0x78, 0x9C, 0x88]).ioQuiet ∧
      (codecStream 1 1 [0x77, 0x78, 0x9C, 0x88]).inRest = bytes [0x77, 0x78] ++ bytes [0x9C, 0x88] ∧
      (bytes [0x77, 0x78]).length % frameSize 1 1 = 0 ∧ frameSize 1 1 ≤ (bytes [0x9C, 0x88]).length ∧
      { codecStream 1 1 [0x77, 0x78, 0x9C, 0x88] with inRest := bytes [0x77, 0x78] } = codecStream 1 1 [0x77, 0x78] ∧
      goesOn (exec .decs (codecStream 1 1 [0x77, 0x78])) = true ∧
      (after (exec .decs (codecStream 1 1 [0x77, 0x78]))).code = 0x00#8 ∧
      (streamBlocks (bytes [0x9C, 0x88]) 1 1 0)[0]? = some (bytes [0x9C, 0x88]) ∧
      ¬ correctable (bytes [0x9C, 0x88]) := by
  refine ⟨by decide, ?_, by decide +kernel, rfl, by decide +kernel, by decide +kernel, rfl, by decide +kernel⟩
  show _ ∧ _ ∧ _
  decide +kernel

theorem witness_EmptyInputEndsOk : isStream .decs ∧ LegalOperands .decs (codecStream 1 1 []) ∧
    (codecStream 1 1 []).inRest = [] ∧ 1 ∉ (codecStream 1 1 []).failIn := by
  refine ⟨by decide, ?_, rfl, by decide⟩
  show _ ∧ _ ∧ _
  decide +kernel

theorem witness_FailedInReadKeepsEarlierUnits :
    isStream .encs ∧ LegalOperands .encs { codecStream 1 1 [0xFF, 0x01] with failIn := [2] } ∧
      ({ codecStream 1 1 [0xFF, 0x01] with failIn := [2] } : State).failOut = [] ∧
      1 + 1 ∈ ({ codecStream 1 1 [0xFF, 0x01] with failIn := [2] } : State).failIn ∧
      (∀ j ∈ ({ codecStream 1 1 [0xFF, 0x01] with failIn := [2] } : State).failIn, 1 ≤ j → 1 + 1 ≤ j) ∧
      1 ≤ ceilDiv ({ codecStream 1 1 [0xFF, 0x01] with failIn := [2] } : State).inRest.length
        (unitSize .encs { codecStream 1 1 [0xFF, 0x01] with failIn := [2] }) ∧
      { codecStream 1 1 [0xFF, 0x01] with
        failIn := []
        inRest := (codecStream 1 1 [0xFF, 0x01]).inRest.take (1 * unitSize .encs (codecStream 1 1 [0xFF, 0x01])) } =
          codecStream 1 1 [0xFF] ∧
      goesOn (exec .encs (codecStream 1 1 [0xFF])) = true ∧ (after (exec .encs (codecStream 1 1 [0xFF]))).code = 0x00#8 := by
  refine ⟨by decide, ?_, rfl, by decide, by decide, by decide +kernel, by decide +kernel, by decide +kernel⟩
  show _ ∧ _ ∧ _
  decide +kernel

/-- The InRead at the end of input fails, after a short last unit. -/
theorem witness_FailedInReadKeepsEarlierUnits_end :
    LegalOperands .encs { codecStream 1 2 [0xFF, 0x01, 0xA5] with failIn := [3] } ∧
      (2 + 1 ∈ ({ codecStream 1 2 [0xFF, 0x01, 0xA5] with failIn := [3] } : State).failIn ∧
      (∀ j ∈ ({ codecStream 1 2 [0xFF, 0x01, 0xA5] with failIn := [3] } : State).failIn, 1 ≤ j → 2 + 1 ≤ j) ∧
      2 = ceilDiv (codecStream 1 2 [0xFF, 0x01, 0xA5]).inRest.length (unitSize .encs (codecStream 1 2 [0xFF, 0x01, 0xA5])) ∧
      { codecStream 1 2 [0xFF, 0x01, 0xA5] with
        failIn := []
        inRest := (codecStream 1 2 [0xFF, 0x01, 0xA5]).inRest.take
          (2 * unitSize .encs (codecStream 1 2 [0xFF, 0x01, 0xA5])) } = codecStream 1 2 [0xFF, 0x01, 0xA5] ∧
      goesOn (exec .encs (codecStream 1 2 [0xFF, 0x01, 0xA5])) = true ∧
      (after (exec .encs (codecStream 1 2 [0xFF, 0x01, 0xA5]))).code = 0x00#8) := by
  refine ⟨?_, by decide +kernel⟩
  show _ ∧ _ ∧ _
  decide +kernel

/-- E39: the host fails OutWrite #2 of ENCS; with it the second unit would end OK. -/
theorem witness_FailedOutWriteKeepsEarlierUnits :
    LegalOperands .encs { codecStream 1 1 [0xFF, 0x01] with failOut := [2] } ∧
      (isStream .encs ∧ ({ codecStream 1 1 [0xFF, 0x01] with failOut := [2] } : State).failIn = [] ∧
      1 + 1 ∈ ({ codecStream 1 1 [0xFF, 0x01] with failOut := [2] } : State).failOut ∧
      (∀ j ∈ ({ codecStream 1 1 [0xFF, 0x01] with failOut := [2] } : State).failOut, 1 ≤ j → 1 + 1 ≤ j) ∧
      1 * unitSize .encs (codecStream 1 1 [0xFF, 0x01]) < (codecStream 1 1 [0xFF, 0x01]).inRest.length ∧
      { codecStream 1 1 [0xFF, 0x01] with
        failOut := []
        inRest := (codecStream 1 1 [0xFF, 0x01]).inRest.take (1 * unitSize .encs (codecStream 1 1 [0xFF, 0x01])) } =
          codecStream 1 1 [0xFF] ∧
      goesOn (exec .encs (codecStream 1 1 [0xFF])) = true ∧
      { codecStream 1 1 [0xFF, 0x01] with
        failOut := []
        inRest := (codecStream 1 1 [0xFF, 0x01]).inRest.take
          ((1 + 1) * unitSize .encs (codecStream 1 1 [0xFF, 0x01])) } = codecStream 1 1 [0xFF, 0x01] ∧
      goesOn (exec .encs (codecStream 1 1 [0xFF, 0x01])) = true ∧
      (after (exec .encs (codecStream 1 1 [0xFF, 0x01]))).code = 0x00#8) := by
  refine ⟨?_, by decide +kernel⟩
  show _ ∧ _ ∧ _
  decide +kernel

/-- The same of JAMB with its first OutWrite failed. -/
theorem witness_FailedOutWriteKeepsEarlierUnits_jamb :
    LegalOperands .jamb { noise 1 2 0 1 [7] (List.replicate 8 0) [] with failOut := [1] } ∧
      (0 + 1 ∈ ({ noise 1 2 0 1 [7] (List.replicate 8 0) [] with failOut := [1] } : State).failOut ∧
      0 * unitSize .jamb (noise 1 2 0 1 [7] (List.replicate 8 0) []) <
        (noise 1 2 0 1 [7] (List.replicate 8 0) []).inRest.length ∧
      goesOn (exec .jamb (noise 1 2 0 1 [] (List.replicate 8 0) [])) = true ∧
      goesOn (exec .jamb (noise 1 2 0 1 [7] (List.replicate 8 0) [])) = true ∧
      (after (exec .jamb (noise 1 2 0 1 [7] (List.replicate 8 0) []))).code = 0x00#8) := by
  refine ⟨?_, by decide +kernel⟩
  show _ ∧ _ ∧ _ ∧ _
  decide +kernel

theorem witness_JambFlipsWhereTheDrawIsBelowP :
    LegalOperands .jamb (noise 1 2 0 1 [0] (List.replicate 8 0) []) ∧
      (noise 1 2 0 1 [0] (List.replicate 8 0) []).ioQuiet ∧
      8 * (noise 1 2 0 1 [0] (List.replicate 8 0) []).inRest.length ≤
        (noise 1 2 0 1 [0] (List.replicate 8 0) []).drawsU.length := by
  refine ⟨?_, by decide +kernel⟩
  show _ ∧ _ ∧ _ ∧ _
  decide +kernel

theorem witness_JambWithCertaintyInvertsEveryByte :
    LegalOperands .jamb (noise 3 3 0 1 [0x5A] (List.replicate 8 0) []) ∧
      (noise 3 3 0 1 [0x5A] (List.replicate 8 0) []).ioQuiet ∧
      (noise 3 3 0 1 [0x5A] (List.replicate 8 0) []).pNum = (noise 3 3 0 1 [0x5A] (List.replicate 8 0) []).pDen ∧
      8 * (noise 3 3 0 1 [0x5A] (List.replicate 8 0) []).inRest.length ≤
        (noise 3 3 0 1 [0x5A] (List.replicate 8 0) []).drawsU.length := by
  refine ⟨?_, by decide +kernel⟩
  show _ ∧ _ ∧ _ ∧ _
  decide +kernel

theorem witness_NoiseKeepsTheLength : isNoise .jamb ∧
    goesOn (exec .jamb (noise 1 2 0 1 [0] (List.replicate 8 0) [])) = true ∧
    (after (exec .jamb (noise 1 2 0 1 [0] (List.replicate 8 0) []))).code = 0x00#8 := by decide +kernel

theorem witness_FlipsCountsTheDifferingBits : isNoise .jamr ∧
    goesOn (exec .jamr (noise 1 1 4 1 [0] (List.replicate 8 0) [3, 3, 3])) = true ∧
    (after (exec .jamr (noise 1 1 4 1 [0] (List.replicate 8 0) [3, 3, 3]))).code = 0x00#8 ∧
    (after (exec .jamr (noise 1 1 4 1 [0] (List.replicate 8 0) [3, 3, 3]))).out =
      (noise 1 1 4 1 [0] (List.replicate 8 0) [3, 3, 3]).out ++ bytes [0xFF] := by decide +kernel

theorem witness_JamrCompletes :
    LegalOperands .jamr (noise 1 1 1 1 [0] (List.replicate 8 0) (List.replicate 8 0)) ∧
      (noise 1 1 1 1 [0] (List.replicate 8 0) (List.replicate 8 0)).ioQuiet ∧
      8 * (noise 1 1 1 1 [0] (List.replicate 8 0) (List.replicate 8 0)).inRest.length ≤
        (noise 1 1 1 1 [0] (List.replicate 8 0) (List.replicate 8 0)).drawsU.length ∧
      8 * (noise 1 1 1 1 [0] (List.replicate 8 0) (List.replicate 8 0)).inRest.length ≤
        (noise 1 1 1 1 [0] (List.replicate 8 0) (List.replicate 8 0)).drawsL.length ∧
      (∀ l ∈ (noise 1 1 1 1 [0] (List.replicate 8 0) (List.replicate 8 0)).drawsL,
        l < (noise 1 1 1 1 [0] (List.replicate 8 0) (List.replicate 8 0)).maxBurst) ∧
      (noise 1 1 1 1 [0] (List.replicate 8 0) (List.replicate 8 0)).maxBurst = 1 := by
  refine ⟨?_, by decide +kernel⟩
  show _ ∧ _ ∧ _ ∧ _ ∧ _
  decide +kernel

/-- Draw 7 of 8 triggers a run of 3 bits, cut at the end of the byte. -/
theorem witness_JamrFlipsTheTriggeredRun :
    LegalOperands .jamr (noise 1 1 4 1 [0] (List.replicate 7 0xFFFFFFFF ++ [0]) [3]) ∧
      ((noise 1 1 4 1 [0] (List.replicate 7 0xFFFFFFFF ++ [0]) [3]).ioQuiet ∧
      (noise 1 1 4 1 [0] (List.replicate 7 0xFFFFFFFF ++ [0]) [3]).inRest ≠ [] ∧
      (noise 1 1 4 1 [0] (List.replicate 7 0xFFFFFFFF ++ [0]) [3]).inRest.length ≤
        (noise 1 1 4 1 [0] (List.replicate 7 0xFFFFFFFF ++ [0]) [3]).bufSize ∧
      8 * (noise 1 1 4 1 [0] (List.replicate 7 0xFFFFFFFF ++ [0]) [3]).inRest.length ≤
        (noise 1 1 4 1 [0] (List.replicate 7 0xFFFFFFFF ++ [0]) [3]).drawsU.length ∧
      7 < 8 * (noise 1 1 4 1 [0] (List.replicate 7 0xFFFFFFFF ++ [0]) [3]).inRest.length ∧
      (noise 1 1 4 1 [0] (List.replicate 7 0xFFFFFFFF ++ [0]) [3]).drawsL = 3 :: [] ∧
      3 < (noise 1 1 4 1 [0] (List.replicate 7 0xFFFFFFFF ++ [0]) [3]).maxBurst) ∧
      (∀ n u, (noise 1 1 4 1 [0] (List.replicate 7 0xFFFFFFFF ++ [0]) [3]).drawsU[n]? = some u →
        (u.toNat * (noise 1 1 4 1 [0] (List.replicate 7 0xFFFFFFFF ++ [0]) [3]).pDen *
            (1 + (noise 1 1 4 1 [0] (List.replicate 7 0xFFFFFFFF ++ [0]) [3]).maxBurst) <
          2 * (noise 1 1 4 1 [0] (List.replicate 7 0xFFFFFFFF ++ [0]) [3]).pNum * 2 ^ 32 ↔ n = 7)) := by
  refine ⟨?_, by decide +kernel, ?_⟩
  · show _ ∧ _ ∧ _ ∧ _ ∧ _
    decide +kernel
  · have key : ∀ p ∈ (noise 1 1 4 1 [0] (List.replicate 7 0xFFFFFFFF ++ [0]) [3]).drawsU.zipIdx,
        (p.1.toNat * (noise 1 1 4 1 [0] (List.replicate 7 0xFFFFFFFF ++ [0]) [3]).pDen *
            (1 + (noise 1 1 4 1 [0] (List.replicate 7 0xFFFFFFFF ++ [0]) [3]).maxBurst) <
          2 * (noise 1 1 4 1 [0] (List.replicate 7 0xFFFFFFFF ++ [0]) [3]).pNum * 2 ^ 32 ↔ p.2 = 7) := by decide +kernel
    exact fun n u h => key (u, n) (List.mem_zipIdx_iff_getElem?.2 h)

/-- E46's state: buffer 0 has one burst of 7 at cursor 6, cut at its end; buffer 1 has one of 7 at cursor 0. -/
def twoBuffers (us : List Nat) (ls : List Nat) : State := noise 1 1 8 1 [0x00, 0x00] us ls

/-- E46: the plans of both buffers. -/
theorem witness_JamrFollowsTheBurstPlans :
    LegalOperands .jamr (twoBuffers (List.replicate 6 0xFFFFFFFF ++ [0, 0, 0xFFFFFFFF]) [7, 7]) ∧
      ((twoBuffers (List.replicate 6 0xFFFFFFFF ++ [0, 0, 0xFFFFFFFF]) [7, 7]).ioQuiet ∧
      [[(6, 7)], [(0, 7)]].length = ceilDiv (twoBuffers [] []).inRest.length (twoBuffers [] []).bufSize ∧
      (twoBuffers (List.replicate 6 0xFFFFFFFF ++ [0, 0, 0xFFFFFFFF]) [7, 7]).triggers =
        (twoBuffers (List.replicate 6 0xFFFFFFFF ++ [0, 0, 0xFFFFFFFF]) [7, 7]).plannedTriggers [[(6, 7)], [(0, 7)]] ++ [] ∧
      (twoBuffers (List.replicate 6 0xFFFFFFFF ++ [0, 0, 0xFFFFFFFF]) [7, 7]).drawsL =
        plannedLengths [[(6, 7)], [(0, 7)]] ++ []) ∧
      (∀ b ∈ burstsFrom 0 [(6, 7)], b.1 < (twoBuffers [] []).bufferBits 0 ∧ b.2 < (twoBuffers [] []).maxBurst) ∧
      (∀ b ∈ burstsFrom 0 [(0, 7)], b.1 < (twoBuffers [] []).bufferBits 1 ∧ b.2 < (twoBuffers [] []).maxBurst) := by
  refine ⟨?_, by decide +kernel⟩
  show _ ∧ _ ∧ _ ∧ _ ∧ _
  decide +kernel

/-- Two bursts in one buffer, the first empty: R116 moves the cursor by one past it. -/
theorem test_burstsFrom_empty : burstsFrom 0 [(2, 0), (1, 3)] = [(2, 0), (4, 3)] ∧ cursorAfter 0 [(2, 0), (1, 3)] = 7 := by
  decide

/-- Buffer 0 runs under its plan; in buffer 1 no draw is answered, or one triggers without a length or with one out of range. -/
theorem witness_JamrStopsWhereTheAnswersRunOut :
    LegalOperands .jamr (twoBuffers (List.replicate 6 0xFFFFFFFF ++ [0, 0xFFFFFFFF]) [7]) ∧
      ((twoBuffers (List.replicate 6 0xFFFFFFFF ++ [0, 0xFFFFFFFF]) [7]).ioQuiet ∧
      [[(6, 7)]].length < ceilDiv (twoBuffers [] []).inRest.length (twoBuffers [] []).bufSize ∧
      (∀ b ∈ burstsFrom 0 [(6, 7)], b.1 < (twoBuffers [] []).bufferBits 0 ∧ b.2 < (twoBuffers [] []).maxBurst) ∧
      cursorAfter 0 [] + 1 < (twoBuffers [] []).bufferBits 1 ∧
      (twoBuffers (List.replicate 6 0xFFFFFFFF ++ [0, 0xFFFFFFFF]) [7]).triggers =
        (twoBuffers [] []).plannedTriggers [[(6, 7)]] ++ (burstTriggers [] ++ List.replicate 1 false) ∧
      (twoBuffers (List.replicate 6 0xFFFFFFFF ++ [0, 0xFFFFFFFF, 0]) [7]).triggers =
        (twoBuffers [] []).plannedTriggers [[(6, 7)]] ++ (burstTriggers [] ++ List.replicate 1 false) ++ true :: [] ∧
      (twoBuffers [] [7]).drawsL = plannedLengths ([[(6, 7)]] ++ [[]]) ∧
      (twoBuffers [] [7, 8]).drawsL = plannedLengths ([[(6, 7)]] ++ [[]]) ++ 8 :: [] ∧ (twoBuffers [] []).maxBurst ≤ 8) := by
  refine ⟨?_, by decide +kernel⟩
  show _ ∧ _ ∧ _ ∧ _ ∧ _
  decide +kernel

/-- No answer at all, 7 answers for 8 bits, and a length that is missing or 2 where MAXBURST is 2. -/
theorem witness_MissingEntropyStopsTheCommand :
    LegalOperands .jamr (noise 1 1 2 1 [0] [] []) ∧ LegalOperands .jamr (noise 1 1 2 1 [0] [0] [2]) ∧
      (isNoise .jamr ∧ 1 ∉ (noise 1 1 2 1 [0] [] []).failIn ∧ (noise 1 1 2 1 [0] [] []).inRest ≠ [] ∧
        (noise 1 1 2 1 [0] [] []).drawsU = []) ∧
      ((noise 1 1 2 1 [0] (List.replicate 7 0) []).ioQuiet ∧
        (noise 1 1 2 1 [0] (List.replicate 7 0) []).drawsU.length < 8 * (noise 1 1 2 1 [0] (List.replicate 7 0) []).inRest.length) ∧
      (1 ∉ (noise 1 1 2 1 [0] [0] [2]).failIn ∧ (noise 1 1 2 1 [0] [0] [2]).inRest ≠ [] ∧
        (noise 1 1 2 1 [0] [0] [2]).drawsU = 0#32 :: [] ∧
        (0#32).toNat * (noise 1 1 2 1 [0] [0] [2]).pDen * (1 + (noise 1 1 2 1 [0] [0] [2]).maxBurst) <
          2 * (noise 1 1 2 1 [0] [0] [2]).pNum * 2 ^ 32 ∧
        (noise 1 1 2 1 [0] [0] []).drawsL = [] ∧
        (noise 1 1 2 1 [0] [0] [2]).drawsL = 2 :: [] ∧ (noise 1 1 2 1 [0] [0] [2]).maxBurst ≤ 2) := by
  refine ⟨?_, ?_, by decide +kernel⟩ <;>
    · show _ ∧ _ ∧ _ ∧ _ ∧ _
      decide +kernel

theorem witness_MissingEntropyStopsTheCommand_jamb : LegalOperands .jamb (noise 1 1 2 1 [0] (List.replicate 7 0) []) := by
  show _ ∧ _ ∧ _ ∧ _
  decide +kernel

end Sys2Proof.Tests
end

section
/-! SUPPORT. The invariant: what each shared operation of a command and each operation of the host does to it, and that every
step keeps it. -/

namespace Sys2Proof.Machine

/-! ### Words -/

/-- The reserved bits of STATUS are zero exactly when nothing is left above STICKY (R25). -/
theorem status_lt_iff_shift (st : Word) : st.toNat < 2 ^ 9 ↔ st >>> 9 = 0#32 := by
  rw [BitVec.toNat_eq, BitVec.toNat_ushiftRight, Nat.shiftRight_eq_div_pow]
  simp [Nat.div_eq_zero_iff]

theorem setStatusCode_lt {st : Word} (c : Code) (h : st.toNat < 2 ^ 9) : (setStatusCode st c).toNat < 2 ^ 9 := by
  rw [status_lt_iff_shift] at h ⊢
  rw [setStatusCode_shift, h]

theorem statusRaised_lt {st : Word} (c : Code) (h : st.toNat < 2 ^ 9) : (statusRaised st c).toNat < 2 ^ 9 := by
  rw [status_lt_iff_shift] at h ⊢
  rw [statusRaised_shift, h]

/-- A natural that fits a register is the value of the word that holds it. -/
theorem toNat_ofNat_of_lt {n : Nat} (h : n < 2 ^ 32) : (BitVec.ofNat 32 n).toNat = n := by
  rw [BitVec.toNat_ofNat, Nat.mod_eq_of_lt h]

/-! ### The invariant inside a command -/

/-- The invariant as it holds inside a command: the calls made so far and the choices not yet used do not matter,
for the end of the command clears both. -/
def State.RunInv (s : State) : Prop := s.endCommand.Inv

theorem State.RunInv.params_wf {s : State} (h : s.RunInv) : s.params.wf := h.params

/-- R70 empties DST and makes DST_LEN 0. -/
theorem State.Inv.runInv_beginCommand {s : State} (h : s.Inv) : s.beginCommand.RunInv :=
  { h with
    noCall := ⟨rfl, rfl⟩
    dstWf := rfl
    dstLen := Nat.zero_le _
    dstBelowLen := fun _ hc => nomatch hc
    keys := by
      rintro m (rfl | rfl) k hk
      · exact h.keys _ (.inl rfl) k hk
      · cases hk }

/-- Bits 31:9 of STATUS stay, and CODE is OK (R70). -/
theorem State.RunInv.complete {s : State} (h : s.RunInv) : s.complete.Inv :=
  have hcode : s.complete.code = 0x00#8 := statusCode_setStatusCode s.status .ok
  { h with
    statusReserved := setStatusCode_lt .ok h.statusReserved
    codeKnown := by rw [hcode]; decide
    codeSticky := fun hne => absurd hcode hne }

/-- Bits 31:9 of STATUS stay, CODE is one of R120, and STICKY records it (R127). -/
theorem State.RunInv.raise {s : State} (h : s.RunInv) (c : Code) : (s.raise c).Inv :=
  have hcode : (s.raise c).code = c.byte := statusCode_statusRaised s.status c
  { h with
    statusReserved := statusRaised_lt c h.statusReserved
    codeKnown := hcode ▸ c.byte_le
    codeSticky := fun _ => statusSticky_statusRaised s.status c }

theorem State.RunInv.countInCall {s : State} (h : s.RunInv) : s.countInCall.RunInv := h

theorem State.RunInv.countOutCall {s : State} (h : s.RunInv) : s.countOutCall.RunInv := h

theorem State.RunInv.draw {s : State} (h : s.RunInv) (us : List Word) (ls : List Nat) :
    ({ s with drawsU := us, drawsL := ls } : State).RunInv := h

theorem State.RunInv.consume {s : State} (h : s.RunInv) (n : Nat) : (s.consume n).RunInv := { h with }

theorem State.RunInv.emit {s : State} (h : s.RunInv) (bs : List Byte) : (s.emit bs).RunInv := { h with }

theorem State.RunInv.countUnit {s : State} (h : s.RunInv) : s.countUnit.RunInv := { h with }

theorem State.RunInv.countFlip {s : State} (h : s.RunInv) : s.countFlip.RunInv := { h with }

theorem State.RunInv.failedUnit {s : State} (h : s.RunInv) (before : DWord) : (s.failedUnit before).RunInv := { h with }

/-- A result that fits DST, written where R70 has zeroed DST, lies below DST_LEN (R51). -/
theorem State.RunInv.writeResult {s : State} (h : s.RunInv) (hd : s.dst = Memory.zeroed) {bs : List Byte}
    (hl : bs.length ≤ s.params.bufCap) : (s.writeResult bs).RunInv :=
  have ⟨_, hcap, _⟩ := h.params_wf
  have hlen : (BitVec.ofNat 32 bs.length).toNat = bs.length := toNat_ofNat_of_lt (by omega)
  have hzero : s.dst.wf s.params.bufCap = true := by rw [hd, Memory.zeroed_wf]
  { h with
    dstWf := Memory.writeBytes_wf hzero ((Nat.zero_add _).trans_le hl)
    dstLen := hlen.trans_le hl
    dstBelowLen := fun c (hc : c ∈ (s.dst.writeBytes 0 bs).cells) => by
      show c.1 < (BitVec.ofNat 32 bs.length).toNat
      rcases mem_writeBytes_cells hc with ⟨_, hbelow⟩ | hmem
      · omega
      · rw [hd] at hmem; cases hmem
    keys := by
      rintro m (rfl | rfl) k hk
      · exact h.keys _ (.inl rfl) k hk
      · exact h.keys _ (.inr rfl) k ((Memory.writeBytes_fill s.dst 0 bs).symm.trans hk) }

/-! ### Classified blocks -/

/-- Recording the class of a block whose addresses are below 2^31: the syndrome has 31 bits (R27), and it is 0 exactly in the
two classes of R101 that say so. -/
theorem State.RunInv.recordClass {s : State} (h : s.RunInv) {B : List Byte} (hB : 8 * B.length ≤ 2 ^ 31) :
    (s.recordClass (classOf (errorAddr B) (parityCheck B)) (errorAddr B)).RunInv :=
  have hlt : errorAddr B < 2 ^ 31 := errorAddr_lt hB
  have hnat : (BitVec.ofNat 32 (errorAddr B)).toNat = errorAddr B := toNat_ofNat_of_lt (by omega)
  have hzero : BitVec.ofNat 32 (errorAddr B) = 0#32 ↔ errorAddr B = 0 := by
    rw [← BitVec.toNat_inj, hnat]; rfl
  { h with
    outcomeReserved := outcomeWord_lt _
    syndromeBound := hnat.trans_lt hlt
    syndromeClass := hzero.trans (outcomeWord_classOf_lt_two _ _).symm }

/-- A property of the state in which the class is recorded holds after the correction, with or without a raise (R102). -/
theorem correctBlock_all {P : State → Prop} {B : List Byte} {s : State}
    (h : P (s.recordClass (classOf (errorAddr B) (parityCheck B)) (errorAddr B))) : (correctBlock B s).All P := by
  rcases correctBlock_cases B s with ⟨_, hc⟩ | ⟨_, _, hc⟩ | ⟨_, _, _, hc⟩ | ⟨_, _, _, hc⟩ <;> rw [hc] <;> exact h

/-- A correction that goes on has recorded the class, and its block is as long as the one it got (R102). -/
theorem correctBlock_eq_ok {B C : List Byte} {s t : State} (h : correctBlock B s = .ok C t) :
    t = s.recordClass (classOf (errorAddr B) (parityCheck B)) (errorAddr B) ∧ C.length = B.length := by
  rcases correctBlock_cases B s with ⟨_, hc⟩ | ⟨_, _, hc⟩ | ⟨_, _, _, hc⟩ | ⟨_, _, _, hc⟩ <;> rw [hc] at h <;> cases h
  · exact ⟨rfl, rfl⟩
  · exact ⟨rfl, bufFlip_length _ _⟩

theorem State.RunInv.correctBlock {s : State} (h : s.RunInv) {B : List Byte} (hB : 8 * B.length ≤ 2 ^ 31) :
    (correctBlock B s).All State.RunInv :=
  correctBlock_all (h.recordClass hB)

theorem State.RunInv.decodeBlocks {Bs : List (List Byte)} (hBs : ∀ B ∈ Bs, 8 * B.length ≤ 2 ^ 31) (d : Nat) {s : State}
    (h : s.RunInv) : (decodeBlocks d Bs s).All State.RunInv := by
  induction Bs generalizing s with
  | nil => exact h
  | cons B Bs ih =>
    obtain ⟨hB, hrest⟩ := List.forall_mem_cons.1 hBs
    rw [Machine.decodeBlocks]
    exact (h.correctBlock hB).bind fun C u _ hu => (ih hrest hu).bind fun rest v _ hv => hv

/-- The blocks of a frame are no longer than a Code Block (R82). -/
theorem length_le_of_mem_frameBlocks {Fr B : List Byte} {cs g : Nat} (h : B ∈ frameBlocks Fr cs g) : B.length ≤ cs := by
  obtain ⟨i, _, rfl⟩ := List.mem_map.1 h
  exact List.length_take_le _ _

theorem State.RunInv.decodeUnit {d : Nat} (hd : 8 * codeSize d ≤ 2 ^ 31) (g : Nat) (X : List Byte) {s : State}
    (h : s.RunInv) : (decodeUnit d g X s).All State.RunInv := by
  unfold Machine.decodeUnit
  split
  · exact h
  · exact h.decodeBlocks (fun B hB => by have := length_le_of_mem_frameBlocks hB; omega) d

/-- A Code Block of legal operands of ENCS and DECS has addresses below 2^31, by the bound of R8 on FRAME_CAP. -/
theorem eight_mul_codeSize_le_of_legal {s : State} (hp : s.params.wf) (hl : codecStreamOperandsLegal s = true) :
    8 * codeSize s.dpb ≤ 2 ^ 31 := by
  obtain ⟨_, hg, hframe⟩ := (codecStreamOperandsLegal_iff s).1 hl
  obtain ⟨_, _, _, hcap⟩ := hp
  have : codeSize s.dpb ≤ codeSize s.dpb * s.groups := Nat.le_mul_of_pos_right _ hg
  omega

/-! ### The commands -/

/-- A stream command keeps the invariant where the work on a unit does. -/
theorem State.RunInv.runStream {s : State} (h : s.RunInv) (n : Nat) {tr : List Byte → State → Res (List Byte)}
    (htr : ∀ X t, t.RunInv → (tr X t).All State.RunInv) : (runStream n tr s).All State.RunInv :=
  streamLoop_all (fun _ ht => ht.countInCall) (fun _ ht => ht.consume n) (fun X t _ _ ht => htr X t ht)
    (fun _ ht => ht.countOutCall) (fun _ f ht => ht.failedUnit f) (fun _ Y ht => ht.emit Y) (fun _ ht => ht.countUnit) _ h

/-- The frame of R70 keeps the invariant where the body keeps it from a state with a zeroed DST and legal operands. -/
theorem State.Inv.runCommand {legal : State → Bool} {body : State → Res Unit} {s t : State} (h : s.Inv)
    (ht : runCommand legal body s = .next t)
    (hbody : ∀ u : State, u.RunInv → u.dst = Memory.zeroed → legal u = true → (body u).All State.RunInv) : t.Inv := by
  have hbegin := h.runInv_beginCommand
  rcases runCommand_eq_next ht with ⟨_, rfl⟩ | ⟨hlegal, hend⟩
  · exact hbegin.raise _
  · have hrun := hbody _ hbegin rfl hlegal
    rcases hend with ⟨u, hu, rfl⟩ | ⟨c, u, hu, rfl⟩
    · rw [hu, Res.all_ok] at hrun
      exact hrun.complete
    · rw [hu, Res.all_raised] at hrun
      exact hrun.raise c

/-- The operand check of R87 bounds the Code Block. -/
theorem State.Inv.execEncb {s t : State} (h : s.Inv) (ht : execEncb s = .next t) : t.Inv := by
  refine h.runCommand ht fun u hu hd hl => hu.writeResult hd ?_
  obtain ⟨_, _, hsize⟩ := (encbOperandsLegal_iff u).1 hl
  simpa using hsize

/-- An interleave is as long as its operand (R98). -/
theorem State.Inv.execIlv {s t : State} (h : s.Inv) (ht : execIlv s = .next t) : t.Inv := by
  refine h.runCommand ht fun u hu hd hl => hu.writeResult hd ?_
  obtain ⟨hlen, _⟩ := (ilvOperandsLegal_iff u).1 hl
  simpa using hlen

/-- The operand check of R106 bounds DSIZE. -/
theorem State.Inv.execDecb {s t : State} (h : s.Inv) (ht : execDecb s = .next t) : t.Inv := by
  refine h.runCommand ht fun u hu hd hl => hu.writeResult hd ?_
  obtain ⟨_, hsize⟩ := (decbOperandsLegal_iff u).1 hl
  simpa using hsize

/-- A corrected block is as long as its operand (R104), and its addresses are below 2^31 by the bound of R8 on BUF_CAP. -/
theorem State.Inv.execCorb {s t : State} (h : s.Inv) (ht : execCorb s = .next t) : t.Inv := by
  refine h.runCommand ht fun u hu hd hl => ?_
  have hlen : u.srcOperand.length ≤ u.params.bufCap := u.srcOperand_length.trans_le ((corbOperandsLegal_iff u).1 hl)
  obtain ⟨_, hcap, _⟩ := hu.params_wf
  refine (hu.correctBlock (by omega)).bind fun C v hC hv => ?_
  obtain ⟨rfl, hCl⟩ := correctBlock_eq_ok hC
  exact hv.writeResult hd (hCl.trans_le hlen)

theorem State.Inv.execEncs {s t : State} (h : s.Inv) (ht : execEncs s = .next t) : t.Inv :=
  h.runCommand ht fun _ hu _ _ => hu.runStream _ fun _ _ hv => hv

theorem State.Inv.execDecs {s t : State} (h : s.Inv) (ht : execDecs s = .next t) : t.Inv :=
  h.runCommand ht fun _ hu _ hl => hu.runStream _ fun X _ hv =>
    hv.decodeUnit (eight_mul_codeSize_le_of_legal hu.params_wf hl) _ X

theorem State.Inv.execJamb {s t : State} (h : s.Inv) (ht : execJamb s = .next t) : t.Inv :=
  h.runCommand ht fun _ hu _ _ => hu.runStream _ fun X _ hv =>
    jamBits_all (fun _ us hw => hw.draw us _) (fun _ hw => hw.countFlip) _ X hv

theorem State.Inv.execJamr {s t : State} (h : s.Inv) (ht : execJamr s = .next t) : t.Inv :=
  h.runCommand ht fun _ hu _ _ => hu.runStream _ fun X _ hv =>
    jamBurst_all (fun _ us hw => hw.draw us _) (fun _ ls hw => hw.draw _ ls) (fun _ hw => hw.countFlip) _ _ 0 X hv

/-- Every command keeps the invariant. -/
theorem State.Inv.exec {s t : State} (h : s.Inv) {i : Instr} (ht : exec i s = .next t) : t.Inv := by
  cases i with
  | encb => exact h.execEncb ht
  | encs => exact h.execEncs ht
  | ilv => exact h.execIlv ht
  | corb => exact h.execCorb ht
  | decb => exact h.execDecb ht
  | decs => exact h.execDecs ht
  | jamb => exact h.execJamb ht
  | jamr => exact h.execJamr ht

/-! ### The operations of the host -/

theorem State.Inv.issue {s : State} (h : s.Inv) (w : Word) : (s.issue w).Inv := { h with }

theorem State.Inv.returned {s : State} (h : s.Inv) (w : Word) : (s.returned w).Inv := { h with }

theorem State.Inv.expandTo {s : State} (h : s.Inv) (l : List HostOp) : (s.expandTo l).Inv := { h with }

/-- A host write to a register other than CMD changes operand registers at most (R40). -/
theorem State.writeReg_eq (s : State) (r : Reg) (w : Word) : ∃ o, s.writeReg r w = { s with ops := o } := by
  cases r <;> exact ⟨_, rfl⟩

theorem State.Inv.writeReg {s : State} (h : s.Inv) (r : Reg) (w : Word) : (s.writeReg r w).Inv := by
  obtain ⟨o, ho⟩ := s.writeReg_eq r w
  rw [ho]
  exact { h with }

theorem State.Inv.rejectCmd {s t : State} (h : s.Inv) {w : Word} {c : Code} (ht : rejectCmd w c s = .next t) : t.Inv := by
  cases ht
  exact (h.issue w).runInv_beginCommand.raise c

theorem State.Inv.writeCmd {s t : State} (h : s.Inv) {w : Word} (ht : writeCmd w s = .next t) : t.Inv := by
  unfold Machine.writeCmd at ht
  split at ht
  · exact (h.issue w).exec ht
  · exact h.rejectCmd ht

theorem State.Inv.hostWriteReg {s t : State} (h : s.Inv) {r : Reg} {w : Word} (ht : hostWriteReg r w s = .next t) :
    t.Inv := by
  unfold Machine.hostWriteReg at ht
  split at ht
  · exact h.writeCmd ht
  · cases ht
    exact h.writeReg r w

theorem State.Inv.busWrite {s t : State} (h : s.Inv) {addr bytes : Nat} {w : Word}
    (ht : busWrite addr bytes w s = .next t) : t.Inv := by
  unfold Machine.busWrite at ht
  split at ht
  · cases ht
  · split at ht
    · exact h.hostWriteReg ht
    · cases ht
      exact h

theorem State.Inv.busRead {s t : State} (h : s.Inv) {addr bytes : Nat} (ht : busRead addr bytes s = .next t) : t.Inv := by
  unfold Machine.busRead at ht
  split at ht <;> cases ht
  exact h.returned _

theorem State.Inv.hostWriteSrc {s t : State} (h : s.Inv) {i : Nat} {b : Byte} (ht : hostWriteSrc i b s = .next t) :
    t.Inv := by
  unfold Machine.hostWriteSrc at ht
  split at ht
  · next hi =>
    cases ht
    exact { h with
      srcWf := Memory.write_wf h.srcWf hi
      keys := by
        rintro m (rfl | rfl) k hk
        · exact h.keys _ (.inl rfl) k ((Memory.write_fill s.src i b).symm.trans hk)
        · exact h.keys _ (.inr rfl) k hk }
  · cases ht

theorem State.Inv.hostReadSrc {s t : State} (h : s.Inv) {i : Nat} (ht : hostReadSrc i s = .next t) : t.Inv := by
  unfold Machine.hostReadSrc at ht
  split at ht <;> cases ht
  exact h.returned _

/-- Reset gives SRC and DST the next two keys and every register 0 (R140). -/
theorem State.Inv.hostReset {s : State} (h : s.Inv) : s.hostReset.Inv where
  params := h.params
  srcWf := rfl
  dstWf := rfl
  dstLen := Nat.zero_le _
  dstBelowLen := fun _ hc => nomatch hc
  statusReserved := Nat.two_pow_pos 9
  codeKnown := Nat.zero_le _
  codeSticky := fun hne => absurd rfl hne
  outcomeReserved := Nat.zero_lt_succ _
  syndromeBound := Nat.two_pow_pos 31
  syndromeClass := iff_of_true rfl Nat.two_pos
  noCall := h.noCall
  keys := by
    rintro m (rfl | rfl) k hk <;> cases hk
    · exact Nat.lt_add_of_pos_right Nat.two_pos
    · exact Nat.lt_succ_self _

/-- Every operation of the host keeps the invariant. -/
theorem State.Inv.hostStep {s t : State} (h : s.Inv) {op : HostOp} (ht : hostStep op s = .next t) : t.Inv := by
  cases op with
  | set r n => exact h.hostWriteReg ht
  | run i => exact h.writeCmd ht
  | cmd w => exact h.writeCmd ht
  | feed bytes => cases ht; exact { h with }
  | entropy u l => cases ht; exact { h with }
  | failIO call k => cases call <;> cases ht <;> exact { h with }
  | load bytes => cases ht; exact h.expandTo _
  | take => cases ht; exact h.expandTo _
  | pipe => cases ht; exact { h with }
  | dilv g =>
    unfold Machine.hostStep at ht
    dsimp only at ht
    split at ht <;> cases ht
    exact h.expandTo _
  | busWrite addr bytes w => exact h.busWrite ht
  | busRead addr bytes => exact h.busRead ht
  | srcWrite i b => exact h.hostWriteSrc ht
  | srcRead i => exact h.hostReadSrc ht
  | dstRead i => cases ht; exact h.returned _
  | ilvRaising => exact h.rejectCmd ht
  | reset => cases ht; exact h.hostReset

/-- Settles O4: the first pending operation of the host keeps the invariant, and with none left the state stays. -/
theorem everyStepKeepsInvariant : Obligations.EveryStepKeepsInvariant := by
  unfold Obligations.EveryStepKeepsInvariant
  intro s t h ht
  unfold step at ht
  split at ht
  · cases ht
    exact h
  · next op rest _ =>
    have hrest : ({ s with pending := rest } : State).Inv := { h with }
    exact hrest.hostStep ht

end Sys2Proof.Machine
end

section
/-! SUPPORT. The host's accesses: which register an offset names, what a register reads after a write, which step a bus access
is, and that a CMD write is the command it issues. -/

namespace Sys2Proof.Machine

/-! ### Offsets and registers (R23) -/

@[simp] theorem regAt_offset (r : Reg) : regAt r.offset = some r := by cases r <;> rfl

theorem regAt_eq_some_iff {off : Nat} {r : Reg} : regAt off = some r ↔ r.offset = off := by
  constructor
  · intro h
    simpa using List.find?_some h
  · rintro rfl
    exact regAt_offset r

theorem Reg.offset_inj {r r' : Reg} : r.offset = r'.offset ↔ r = r' := by
  rw [← regAt_eq_some_iff, regAt_offset, Option.some_inj, eq_comm]

theorem Reg.offset_bounds (r : Reg) : r.offset % 4 = 0 ∧ r.offset ≠ 0x34 ∧ r.offset < 0x58 := by cases r <;> decide

/-- No register is mapped at 0x34 and from 0x58 up (R40). -/
theorem regAt_unmapped {off : Nat} (h : off = 0x34 ∨ 0x58 ≤ off) : regAt off = none := by
  rw [Option.eq_none_iff_forall_ne_some]
  intro r hr
  have hoff := regAt_eq_some_iff.1 hr
  have := r.offset_bounds
  omega

/-! ### A register after a host write (R40) -/

/-- A register at a read-only offset is not CMD, and a host write of it is ignored. -/
theorem hostWriteReg_readOnly {r : Reg} (h : r.offset ∈ readOnlyOffsets) (w : Word) (s : State) :
    hostWriteReg r w s = .next s := by
  cases r with
  | cmd | dpb | groups | dsize | pNum | pDen | maxBurst | bufSize | srcLen => exact absurd h (by decide)
  | status | outcome | syndrome | dstLen => rfl
  | flipsLo | flipsHi | unitsLo | unitsHi | bytesInLo | bytesInHi | bytesOutLo | bytesOutHi => rfl

/-- An operand register is not CMD, so a host write of it executes nothing. -/
theorem hostWriteReg_operand {r : Reg} (h : r.offset ∈ operandOffsets) (w : Word) (s : State) :
    hostWriteReg r w s = .next (s.writeReg r w) :=
  if_neg fun hr => absurd (hr ▸ h) (by decide)

/-- What every register reads after a host write of an operand register. -/
theorem readReg_writeReg {r : Reg} (h : r.offset ∈ operandOffsets) (s : State) (w : Word) (r' : Reg) :
    (s.writeReg r w).readReg r' = if r' = r then w else s.readReg r' := by
  cases r with
  | dpb | groups | dsize | pNum | pDen | maxBurst | bufSize | srcLen => cases r' <;> rfl
  | cmd | status | outcome | syndrome | dstLen => exact absurd h (by decide)
  | flipsLo | flipsHi | unitsLo | unitsHi | bytesInLo | bytesInHi | bytesOutLo | bytesOutHi => exact absurd h (by decide)

theorem State.readOffset_mapped (s : State) (r : Reg) : s.readOffset r.offset = s.readReg r := by
  rw [State.readOffset, regAt_offset]

theorem State.readOffset_unmapped (s : State) {off : Nat} (h : regAt off = none) : s.readOffset off = 0#32 := by
  rw [State.readOffset, h]

/-- What every offset reads after a host write of an operand register. -/
theorem readOffset_writeReg {r : Reg} (h : r.offset ∈ operandOffsets) (s : State) (w : Word) (off : Nat) :
    (s.writeReg r w).readOffset off = if off = r.offset then w else s.readOffset off := by
  cases hoff : regAt off with
  | none =>
    have hne : off ≠ r.offset := by
      rintro rfl
      simp at hoff
    rw [if_neg hne, State.readOffset_unmapped _ hoff, State.readOffset_unmapped _ hoff]
  | some r' =>
    obtain rfl := regAt_eq_some_iff.1 hoff
    simp only [State.readOffset_mapped, readReg_writeReg h, Reg.offset_inj]

/-- A 64-bit counter is its two words (R36). -/
theorem loWord_add_hiWord (c : DWord) : (loWord c).toNat + 2 ^ 32 * (hiWord c).toNat = c.toNat := by
  simp only [loWord, hiWord, BitVec.extractLsb'_toNat, Nat.shiftRight_eq_div_pow]
  omega

@[simp] theorem registerValue_toNat (w : Word) : registerValue w.toNat = w := by
  rw [registerValue, if_pos w.isLt, BitVec.ofNat_toNat, BitVec.setWidth_eq]

/-! ### Bus accesses (R52, R55) -/

theorem busOffset_aligned (s : State) {off : Nat} (h : off % 4 = 0) : busOffset s (s.params.regBase + off) 4 = .ok off := by
  simp [busOffset, h]

theorem busOffset_misshapen (s : State) {off n : Nat} (h : n ≠ 4 ∨ off % 4 ≠ 0) :
    busOffset s (s.params.regBase + off) n = .error .registerAccessShape := by
  rw [busOffset, if_neg (by omega), Nat.add_sub_cancel_left, if_pos h]

/-- A byte read is zero-extended (log entry 8). -/
theorem toNat_zeroExtended (b : Byte) : (0#24 ++ b : Word).toNat = b.toNat :=
  (BitVec.toNat_append 0#24 b).trans (by simp)

theorem busWrite_mapped (s : State) (r : Reg) (w : Word) :
    busWrite (s.params.regBase + r.offset) 4 w s = hostWriteReg r w s := by
  simp only [busWrite, busOffset_aligned s r.offset_bounds.1, regAt_offset]

theorem busWrite_unmapped (s : State) {off : Nat} (h4 : off % 4 = 0) (h : off = 0x34 ∨ 0x58 ≤ off) (w : Word) :
    busWrite (s.params.regBase + off) 4 w s = .next s := by
  simp only [busWrite, busOffset_aligned s h4, regAt_unmapped h]

theorem busRead_aligned (s : State) {off : Nat} (h : off % 4 = 0) :
    busRead (s.params.regBase + off) 4 s = .next (s.returned (s.readOffset off)) := by
  simp only [busRead, busOffset_aligned s h]

/-- Every read-only offset is that of a register, and a write there is ignored (R40). -/
theorem busWrite_readOnly (s : State) {off : Nat} (h : off ∈ readOnlyOffsets) (w : Word) :
    busWrite (s.params.regBase + off) 4 w s = .next s := by
  have hmapped : ∀ o ∈ readOnlyOffsets, ∃ r ∈ allRegs, r.offset = o := by decide
  obtain ⟨r, -, rfl⟩ := hmapped off h
  rw [busWrite_mapped, hostWriteReg_readOnly h]

/-! ### The step of a pending operation -/

theorem step_pending {s : State} {op : HostOp} {rest : List HostOp} (h : s.pending = op :: rest) :
    step s = hostStep op { s with pending := rest } := by
  rw [step, h]

/-- Each way the host has to issue a word is the same CMD write (R24, R65). -/
theorem hostStep_issuesWord {s : State} {w : Word} {op : HostOp} (h : IssuesWord s.params w op) :
    hostStep op s = writeCmd w s := by
  rcases h with rfl | ⟨i, rfl, rfl⟩ | rfl | rfl
  · rfl
  · rfl
  · show hostWriteReg .cmd (registerValue w.toNat) s = writeCmd w s
    rw [registerValue_toNat]
    rfl
  · exact busWrite_mapped s .cmd w

theorem step_issuesWord {s : State} {op : HostOp} {rest : List HostOp} {w : Word} (h : s.pending = op :: rest)
    (hw : IssuesWord s.params w op) : step s = writeCmd w { s with pending := rest } :=
  (step_pending h).trans (hostStep_issuesWord hw)

theorem writeCmd_legal {w : Word} {i : Instr} (h : decode w = .ok i) (s : State) : writeCmd w s = exec i (s.issue w) := by
  rw [writeCmd, h]

/-! ### The statements -/

/-- Settles O8: each of the host's four ways to write CMD is one CMD write, and that runs the command decoded. -/
theorem stepRunsTheIssuedCommand : Obligations.StepRunsTheIssuedCommand := by
  unfold Obligations.StepRunsTheIssuedCommand
  intro s op rest w i h hw hi
  rw [step_issuesWord h hw, writeCmd_legal hi]
  rfl

/-- Settles O11, one access rule after the other. -/
theorem hostAccessRules : Obligations.HostAccessRules := by
  unfold Obligations.HostAccessRules
  intro s rest
  have hstep {op : HostOp} (h : s.pending = op :: rest) := step_pending h
  let s' : State := { s with pending := rest }
  refine ⟨fun off w h4 hoff h => ?_, fun r n hr h => ?_, fun off h4 hoff h => ?_, fun off n w hbad h => ?_,
    fun off n hbad h => ?_, fun i b hi h => ?_, fun i hi h => ?_, fun i h => ?_⟩
  · rw [hstep h]
    rcases hoff with hro | hun
    · exact busWrite_readOnly s' hro w
    · exact busWrite_unmapped s' h4 hun w
  · rw [hstep h]
    exact hostWriteReg_readOnly hr _ _
  · rw [hstep h]
    refine (busRead_aligned s' h4).trans ?_
    rw [s'.readOffset_unmapped (regAt_unmapped hoff)]
    rfl
  · rw [hstep h, hostStep, busWrite, busOffset_misshapen s' hbad]
  · rw [hstep h, hostStep, busRead, busOffset_misshapen s' hbad]
  · exact ⟨s.src.write i b, (hstep h).trans (if_pos hi), fun j => Memory.read_write _ _ _ _⟩
  · exact ⟨0#24 ++ s.src.read i, (hstep h).trans (if_pos hi), toNat_zeroExtended _⟩
  · refine ⟨0#24 ++ s.readDst i, hstep h, fun hi => ?_, fun hi => ?_⟩
    · rw [toNat_zeroExtended, State.readDst, if_pos hi]
    · rw [State.readDst, if_neg (Nat.not_lt.2 hi)]
      rfl

/-- Settles O12: by name and by address the step is one write of the operand register. -/
theorem hostWritesOperandRegister : Obligations.HostWritesOperandRegister := by
  unfold Obligations.HostWritesOperandRegister
  intro s rest r w hr h
  have hstep : step s = .next (({ s with pending := rest } : State).writeReg r w) := by
    rcases h with h | h <;> rw [step_pending h, hostStep]
    · rw [registerValue_toNat, hostWriteReg_operand hr]
    · rw [← hostWriteReg_operand hr]
      exact busWrite_mapped { s with pending := rest } r w
  obtain ⟨o, ho⟩ := State.writeReg_eq { s with pending := rest } r w
  refine ⟨o, hstep.trans (congrArg _ ho), fun off => ?_⟩
  have hread := readOffset_writeReg hr { s with pending := rest } w off
  rw [ho] at hread
  exact hread

/-- Settles O13: the offset of a register is aligned and names it. -/
theorem hostReadsRegister : Obligations.HostReadsRegister := by
  unfold Obligations.HostReadsRegister
  intro s rest r h
  have hread := busRead_aligned { s with pending := rest } r.offset_bounds.1
  rw [State.readOffset_mapped] at hread
  exact ⟨(step_pending h).trans hread, loWord_add_hiWord _, loWord_add_hiWord _, loWord_add_hiWord _, loWord_add_hiWord _⟩

/-- Settles O3: every register is 0, no buffer lists a byte, and the two keys used are below the counter. -/
theorem resetMeetsInvariant : Obligations.ResetMeetsInvariant where
  params := by decide
  srcWf := rfl
  dstWf := rfl
  dstLen := Nat.zero_le _
  dstBelowLen := fun _ hc => nomatch hc
  statusReserved := by decide
  codeKnown := by decide
  codeSticky := fun hne => absurd rfl hne
  outcomeReserved := by decide
  syndromeBound := by decide
  syndromeClass := by decide
  noCall := ⟨rfl, rfl⟩
  keys := by
    rintro m (rfl | rfl) k hk <;> cases hk <;> decide

end Sys2Proof.Machine
end

section
/-! SUPPORT. Every command is a run of the shared operations between its beginning and its end: what each of them keeps, the
command keeps. -/

namespace Sys2Proof.Machine

/-! ### Operand check and body of a command (R70) -/

/-- The operand check of each command. -/
def operandsLegal : Instr → State → Bool
  | .encb => encbOperandsLegal
  | .encs => codecStreamOperandsLegal
  | .ilv => ilvOperandsLegal
  | .corb => corbOperandsLegal
  | .decb => decbOperandsLegal
  | .decs => codecStreamOperandsLegal
  | .jamb => jambOperandsLegal
  | .jamr => jamrOperandsLegal

/-- What each command does between its operand check and its end. -/
def commandBody : Instr → State → Res Unit
  | .encb, s => .ok () (s.writeResult (encodeBlock s.srcOperand))
  | .encs, s => runStream (s.dpb * s.groups) (fun X t => .ok (encodeUnit s.dpb s.groups X) t) s
  | .ilv, s => .ok () (s.writeResult (interleave s.srcOperand s.groups))
  | .corb, s => (correctBlock s.srcOperand s).bind fun B s => .ok () (s.writeResult B)
  | .decb, s => .ok () (s.writeResult (decodeBlock s.srcOperand s.dsize))
  | .decs, s => runStream (frameSize s.dpb s.groups) (decodeUnit s.dpb s.groups) s
  | .jamb, s => runStream s.bufSize jamBitsBuffer s
  | .jamr, s => runStream s.bufSize jamBurstBuffer s

theorem exec_eq_runCommand (i : Instr) (s : State) : exec i s = runCommand (operandsLegal i) (commandBody i) s := by
  cases i <;> rfl

theorem operandsLegal_iff (i : Instr) (s : State) : operandsLegal i s = true ↔ LegalOperands i s := by
  cases i with
  | encb => exact encbOperandsLegal_iff s
  | encs => exact codecStreamOperandsLegal_iff s
  | ilv => exact ilvOperandsLegal_iff s
  | corb => exact corbOperandsLegal_iff s
  | decb => exact decbOperandsLegal_iff s
  | decs => exact codecStreamOperandsLegal_iff s
  | jamb => exact jambOperandsLegal_iff s
  | jamr => exact jamrOperandsLegal_iff s

/-! ### The operations a command is made of -/

/-- One shared operation inside the command i, from the state before it to the state after it. -/
inductive CommandOp (i : Instr) : State → State → Prop
  | recordClass (hi : classifies i) (s : State) (k : BlockClass) (e : Nat) : CommandOp i s (s.recordClass k e)
  | writeResult (hi : ¬ isStream i) (s : State) (bs : List Byte) : CommandOp i s (s.writeResult bs)
  | draw (hi : isNoise i) (s : State) (us : List Word) (ls : List Nat) :
      CommandOp i s { s with drawsU := us, drawsL := ls }
  | countFlip (hi : isNoise i) (s : State) : CommandOp i s s.countFlip
  | countInCall (hi : isStream i) (s : State) : CommandOp i s s.countInCall
  | consume (hi : isStream i) (s : State) (n : Nat) : CommandOp i s (s.consume n)
  | countOutCall (hi : isStream i) (s : State) : CommandOp i s s.countOutCall
  | failedUnit (hi : isStream i) (s : State) (before : DWord) : CommandOp i s (s.failedUnit before)
  | emit (hi : isStream i) (s : State) (bs : List Byte) : CommandOp i s (s.emit bs)
  | countUnit (hi : isStream i) (s : State) : CommandOp i s s.countUnit

/-- A property that every operation inside the command i keeps. -/
def KeptBy (i : Instr) (P : State → Prop) : Prop := ∀ s t, CommandOp i s t → P s → P t

theorem KeptBy.runStream {i : Instr} {P : State → Prop} (h : KeptBy i P) (hi : isStream i) (n : Nat)
    {tr : List Byte → State → Res (List Byte)} (htr : ∀ X t, P t → (tr X t).All P) {s : State} (hs : P s) :
    (runStream n tr s).All P :=
  streamLoop_all (P := P) (fun _ => h _ _ (.countInCall hi _)) (fun _ => h _ _ (.consume hi _ n)) (fun X t _ _ => htr X t)
    (fun _ => h _ _ (.countOutCall hi _)) (fun _ f => h _ _ (.failedUnit hi _ f)) (fun _ Y => h _ _ (.emit hi _ Y))
    (fun _ => h _ _ (.countUnit hi _)) _ hs

theorem KeptBy.correctBlock {i : Instr} {P : State → Prop} (h : KeptBy i P) (hi : classifies i) (B : List Byte) {s : State}
    (hs : P s) : (correctBlock B s).All P :=
  correctBlock_all (h _ _ (.recordClass hi s _ _) hs)

theorem KeptBy.decodeUnit {i : Instr} {P : State → Prop} (h : KeptBy i P) (hi : classifies i) (d g : Nat) (X : List Byte)
    {s : State} (hs : P s) : (decodeUnit d g X s).All P := by
  unfold Machine.decodeUnit
  split
  · exact hs
  · exact decodeBlocks_all (fun _ k e => h _ _ (.recordClass hi _ k e)) d _ hs

/-- A property that every operation inside a command keeps holds where its body goes on or raises. -/
theorem KeptBy.commandBody {i : Instr} {P : State → Prop} (h : KeptBy i P) {s : State} (hs : P s) :
    (commandBody i s).All P := by
  cases i with
  | encb => exact h _ _ (.writeResult (by decide) s _) hs
  | ilv => exact h _ _ (.writeResult (by decide) s _) hs
  | decb => exact h _ _ (.writeResult (by decide) s _) hs
  | corb =>
    exact (h.correctBlock (by decide) _ hs).bind fun B t _ ht => h _ _ (.writeResult (by decide) t B) ht
  | encs =>
    refine h.runStream (by decide) _ (fun X t ht => ?_) hs
    exact ht
  | decs => exact h.runStream (by decide) _ (fun X _ ht => h.decodeUnit (by decide) _ _ X ht) hs
  | jamb =>
    exact h.runStream (by decide) _ (fun X _ ht => jamBits_all (fun t us => h _ _ (.draw (by decide) t us _))
      (fun t => h _ _ (.countFlip (by decide) t)) _ X ht) hs
  | jamr =>
    exact h.runStream (by decide) _ (fun X _ ht => jamBurst_all (fun t us => h _ _ (.draw (by decide) t us _))
      (fun t ls => h _ _ (.draw (by decide) t _ ls)) (fun t => h _ _ (.countFlip (by decide) t)) _ _ 0 X ht) hs

/-! ### What is raised is a fault -/

/-- A part of a command that raises, raises one of the six faults of R120. -/
def Res.RaisesFault {α : Type} (r : Res α) : Prop := ∀ c s, r = .raised c s → c ≠ .ok

theorem Res.raisesFault_ok {α : Type} (a : α) (s : State) : (Res.ok a s).RaisesFault := nofun

theorem Res.raisesFault_stuck {α : Type} (f : Fault) : (Res.stuck f : Res α).RaisesFault := nofun

theorem Res.raisesFault_raised {α : Type} {c : Code} (h : c ≠ .ok) (s : State) :
    (Res.raised c s : Res α).RaisesFault := by
  rintro _ _ ⟨⟩
  exact h

theorem Res.RaisesFault.bind {α β : Type} {r : Res α} {f : α → State → Res β} (h : r.RaisesFault)
    (hf : ∀ a s, (f a s).RaisesFault) : (r.bind f).RaisesFault := by
  intro c t hc
  rcases Res.bind_eq_raised hc with hr | ⟨a, s, -, hr⟩
  · exact h c t hr
  · exact hf a s c t hr

theorem inRead_raisesFault (n : Nat) (s : State) : (inRead n s).RaisesFault := by
  rcases inRead_cases n s with ⟨-, h⟩ | ⟨-, h⟩ <;> rw [h]
  · exact Res.raisesFault_raised (by decide) _
  · exact Res.raisesFault_ok _ _

theorem writeUnit_raisesFault (before : DWord) (bs : List Byte) (s : State) : (writeUnit before bs s).RaisesFault := by
  rcases writeUnit_cases before bs s with ⟨-, h⟩ | ⟨-, h⟩ <;> rw [h]
  · exact Res.raisesFault_raised (by decide) _
  · exact Res.raisesFault_ok _ _

theorem drawU32_raisesFault (s : State) : (drawU32 s).RaisesFault := by
  rcases drawU32_cases s with ⟨-, h⟩ | ⟨u, us, -, h⟩ <;> rw [h]
  · exact Res.raisesFault_stuck _
  · exact Res.raisesFault_ok _ _

theorem drawLen_raisesFault (m : Nat) (s : State) : (drawLen m s).RaisesFault := by
  rcases drawLen_cases m s with ⟨-, h⟩ | ⟨l, ls, -, ⟨-, h⟩ | ⟨-, h⟩⟩ <;> rw [h]
  · exact Res.raisesFault_stuck _
  · exact Res.raisesFault_ok _ _
  · exact Res.raisesFault_stuck _

theorem correctBlock_raisesFault (B : List Byte) (s : State) : (correctBlock B s).RaisesFault := by
  rcases correctBlock_cases B s with ⟨-, h⟩ | ⟨-, -, h⟩ | ⟨-, -, -, h⟩ | ⟨-, -, -, h⟩ <;> rw [h]
  · exact Res.raisesFault_ok _ _
  · exact Res.raisesFault_raised (by decide) _
  · exact Res.raisesFault_raised (by decide) _
  · exact Res.raisesFault_ok _ _

theorem decodeBlocks_raisesFault (d : Nat) (Bs : List (List Byte)) (s : State) : (decodeBlocks d Bs s).RaisesFault := by
  induction Bs generalizing s with
  | nil => exact Res.raisesFault_ok _ _
  | cons B Bs ih =>
    rw [decodeBlocks]
    exact (correctBlock_raisesFault B s).bind fun C t => (ih t).bind fun rest u => Res.raisesFault_ok _ _

theorem decodeUnit_raisesFault (d g : Nat) (X : List Byte) (s : State) : (decodeUnit d g X s).RaisesFault := by
  unfold decodeUnit
  split
  · exact Res.raisesFault_raised (by decide) _
  · exact decodeBlocks_raisesFault d _ s

theorem jamBits_raisesFault (as : List Nat) (Y : List Byte) (s : State) : (jamBits as Y s).RaisesFault := by
  induction as generalizing Y s with
  | nil => exact Res.raisesFault_ok _ _
  | cons a as ih =>
    rw [jamBits]
    refine (drawU32_raisesFault s).bind fun u t => ?_
    split <;> exact ih _ _

theorem jamBurst_raisesFault (N fuel c : Nat) (Y : List Byte) (s : State) : (jamBurst N fuel c Y s).RaisesFault := by
  induction fuel generalizing c Y s with
  | zero => exact Res.raisesFault_ok _ _
  | succ fuel ih =>
    rw [jamBurst]
    split
    · refine (drawU32_raisesFault s).bind fun u t => ?_
      split
      · exact (drawLen_raisesFault _ t).bind fun L v => ih _ _ _
      · exact ih _ _ _
    · exact Res.raisesFault_ok _ _

theorem streamLoop_raisesFault {n : Nat} {tr : List Byte → State → Res (List Byte)} (htr : ∀ X s, (tr X s).RaisesFault)
    (fuel : Nat) (s : State) : (streamLoop n tr fuel s).RaisesFault := by
  induction fuel generalizing s with
  | zero => exact Res.raisesFault_ok _ _
  | succ fuel ih =>
    rw [streamLoop]
    refine (inRead_raisesFault n s).bind fun X t => ?_
    split
    · exact Res.raisesFault_ok _ _
    · exact (htr X t).bind fun Y u => (writeUnit_raisesFault _ Y u).bind fun _ v => ih _

theorem commandBody_raisesFault (i : Instr) (s : State) : (commandBody i s).RaisesFault := by
  cases i with
  | encb => exact Res.raisesFault_ok _ _
  | ilv => exact Res.raisesFault_ok _ _
  | decb => exact Res.raisesFault_ok _ _
  | corb => exact (correctBlock_raisesFault _ s).bind fun B t => Res.raisesFault_ok _ _
  | encs => exact streamLoop_raisesFault (fun _ _ => Res.raisesFault_ok _ _) _ s
  | decs => exact streamLoop_raisesFault (decodeUnit_raisesFault _ _) _ s
  | jamb => exact streamLoop_raisesFault (fun X => jamBits_raisesFault _ X) _ s
  | jamr => exact streamLoop_raisesFault (fun X => jamBurst_raisesFault _ _ 0 X) _ s

/-! ### How a command ends -/

/-- Everything a command that ends can do: complete after its body, or raise a fault, at its operand check or in its body. -/
theorem exec_eq_next {i : Instr} {s t : State} (h : exec i s = .next t) :
    (operandsLegal i s.beginCommand = true ∧ ∃ u, commandBody i s.beginCommand = .ok () u ∧ t = u.complete) ∨
      ∃ c u, c ≠ .ok ∧ (u = s.beginCommand ∨ commandBody i s.beginCommand = .raised c u) ∧ t = u.raise c := by
  rw [exec_eq_runCommand] at h
  rcases runCommand_eq_next h with ⟨-, rfl⟩ | ⟨hlegal, ⟨u, hu, rfl⟩ | ⟨c, u, hu, rfl⟩⟩
  · exact .inr ⟨_, _, by decide, .inl rfl, rfl⟩
  · exact .inl ⟨hlegal, u, hu, rfl⟩
  · exact .inr ⟨c, u, commandBody_raisesFault i _ c u hu, .inr hu, rfl⟩

/-- A property that holds where a command begins, and that every operation inside it keeps, holds of the state that the
command completes or from which it raises a fault. -/
theorem KeptBy.exec {i : Instr} {P : State → Prop} (h : KeptBy i P) {s t : State} (hs : P s.beginCommand)
    (ht : exec i s = .next t) : ∃ u, P u ∧ (t = u.complete ∨ ∃ c, c ≠ .ok ∧ t = u.raise c) := by
  have hbody := h.commandBody hs
  rcases exec_eq_next ht with ⟨-, u, hu, rfl⟩ | ⟨c, u, hc, rfl | hu, rfl⟩
  · rw [hu, Res.all_ok] at hbody
    exact ⟨u, hbody, .inl rfl⟩
  · exact ⟨_, hs, .inr ⟨c, hc, rfl⟩⟩
  · rw [hu, Res.all_raised] at hbody
    exact ⟨u, hbody, .inr ⟨c, hc, rfl⟩⟩

/-- CODE after a command is 0 only where the command completed. -/
theorem code_raise_ne_zero {c : Code} (h : c ≠ .ok) (s : State) : (s.raise c).code ≠ 0x00#8 := fun h0 =>
  h (Code.byte_eq_zero.1 ((statusCode_statusRaised s.status c).symm.trans h0))

theorem code_complete (s : State) : s.complete.code = 0x00#8 := statusCode_setStatusCode s.status .ok

end Sys2Proof.Machine
end

section
/-! SUPPORT. What holds of every command. -/

namespace Sys2Proof.Machine

/-! ### The host's state, the class and the streams -/

theorem keptBy_keepsHost (i : Instr) (s : State) : KeptBy i (keepsHost s) := by
  intro u t hop h
  cases hop <;> exact h

/-- Settles O17: no operation inside a command writes what `keepsHost` lists, nor does its beginning or its end. -/
theorem commandsKeepTheHostsState : Obligations.CommandsKeepTheHostsState := by
  unfold Obligations.CommandsKeepTheHostsState
  intro i s t ht
  have hbegin : keepsHost s s.beginCommand := ⟨rfl, rfl, rfl, fun _ => rfl, rfl, rfl, rfl⟩
  obtain ⟨u, hu, rfl | ⟨c, -, rfl⟩⟩ := (keptBy_keepsHost i s).exec hbegin ht
  · exact hu
  · exact hu

theorem keptBy_keepsClass {i : Instr} (hi : ¬ classifies i) (s : State) : KeptBy i (keepsClass s) := by
  intro u t hop h
  cases hop
  case recordClass hc k e => exact absurd hc hi
  all_goals exact h

/-- Settles O21: recording a class is the one operation that writes OUTCOME or SYNDROME. -/
theorem onlyTheCorrectorWritesTheClass : Obligations.OnlyTheCorrectorWritesTheClass := by
  unfold Obligations.OnlyTheCorrectorWritesTheClass
  intro i s t hi ht
  obtain ⟨u, hu, rfl | ⟨c, -, rfl⟩⟩ := (keptBy_keepsClass hi s).exec (s := s) ⟨rfl, rfl⟩ ht
  · exact hu
  · exact hu

/-- From s to t the first of the unread bytes of IN were consumed and bytes were appended to OUT, and BYTES_IN and BYTES_OUT are
their numbers (R36, R39). -/
def Streamed (s t : State) : Prop :=
  ∃ xs ys, t.inDone = s.inDone ++ xs ∧ s.inRest = xs ++ t.inRest ∧ t.out = s.out ++ ys ∧
    t.cnt.bytesIn = BitVec.ofNat 64 xs.length ∧ t.cnt.bytesOut = BitVec.ofNat 64 ys.length

theorem Streamed.beginCommand (s : State) : Streamed s s.beginCommand :=
  ⟨[], [], (List.append_nil _).symm, rfl, (List.append_nil _).symm, rfl, rfl⟩

theorem Streamed.consume {s t : State} (h : Streamed s t) (n : Nat) : Streamed s (t.consume n) := by
  obtain ⟨xs, ys, hdone, hrest, hout, hin, hby⟩ := h
  refine ⟨xs ++ t.inRest.take n, ys, ?_, ?_, hout, ?_, hby⟩
  · rw [State.consume_inDone, hdone, List.append_assoc]
  · rw [State.consume_inRest, List.append_assoc, List.take_append_drop, hrest]
  · simp only [State.consume_cnt, hin, List.length_append, BitVec.ofNat_add]

theorem Streamed.emit {s t : State} (h : Streamed s t) (bs : List Byte) : Streamed s (t.emit bs) := by
  obtain ⟨xs, ys, hdone, hrest, hout, hin, hby⟩ := h
  refine ⟨xs, ys ++ bs, hdone, hrest, ?_, hin, ?_⟩
  · rw [State.emit_out, hout, List.append_assoc]
  · simp only [State.emit_cnt, hby, List.length_append, BitVec.ofNat_add]

theorem keptBy_streamed (i : Instr) (s : State) : KeptBy i (Streamed s) := by
  intro u t hop h
  cases hop
  case consume _ n => exact h.consume n
  case emit _ bs => exact h.emit bs
  all_goals exact h

/-- A block command touches no stream and counts nothing (R36, R39). -/
theorem keptBy_noStream {i : Instr} (hi : ¬ isStream i) (s : State) :
    KeptBy i fun t => keepsStreams s t ∧ t.cnt = Counters.zero := by
  have hnoise : ¬ isNoise i := fun h => hi (.inr (.inr h))
  intro u t hop h
  cases hop
  case recordClass | writeResult => exact h
  case draw hn _ _ | countFlip hn => exact absurd hn hnoise
  all_goals exact absurd ‹isStream i› hi

theorem block_exec_keepsStreams {i : Instr} {s t : State} (hi : ¬ isStream i) (ht : exec i s = .next t) :
    keepsStreams s t ∧ t.cnt = Counters.zero := by
  obtain ⟨u, hu, rfl | ⟨c, -, rfl⟩⟩ := (keptBy_noStream hi s).exec ⟨⟨rfl, rfl, rfl⟩, rfl⟩ ht
  · exact hu
  · exact hu

theorem exec_streamed {i : Instr} {s t : State} (ht : exec i s = .next t) : Streamed s t := by
  obtain ⟨u, hu, rfl | ⟨c, -, rfl⟩⟩ := (keptBy_streamed i s).exec (Streamed.beginCommand s) ht
  · exact hu
  · exact hu

/-- Settles O20: InRead and OutWrite are the operations that move a stream, and a block command performs neither. -/
theorem streamsOnlyMoveForward : Obligations.StreamsOnlyMoveForward := by
  unfold Obligations.StreamsOnlyMoveForward
  intro i s t ht
  obtain ⟨xs, ys, hdone, hrest, hout, hin, hby⟩ := exec_streamed ht
  refine ⟨xs, ys, hdone, hrest, hout, hin, hby, fun hi => ?_⟩
  obtain ⟨⟨hdone', -, hout'⟩, hcnt⟩ := block_exec_keepsStreams hi ht
  exact ⟨List.self_eq_append_right.1 (hdone'.symm.trans hdone), List.self_eq_append_right.1 (hout'.symm.trans hout), hcnt⟩

/-! ### The result -/

/-- DST as R70 leaves it at the beginning of a command. -/
def NoResult (s : State) : Prop := s.dst = Memory.zeroed ∧ s.dstLen = 0

/-- What the host sees of it (R51). -/
theorem NoResult.dstHolds_nil {s : State} (h : NoResult s) : dstHolds s [] := by
  obtain ⟨hdst, hlen⟩ := h
  refine ⟨by rw [hlen]; rfl, ?_, fun i _ => by rw [hdst, Memory.read_zeroed]⟩
  rw [State.dstResult, hlen]
  rfl

/-- A stream command writes no result (R35). -/
theorem keptBy_noResult {i : Instr} (hi : isStream i) : KeptBy i NoResult := by
  intro u t hop h
  cases hop
  case writeResult hb bs => exact absurd hi hb
  all_goals exact h

/-- A body that raises has written no result: CORB, the one block command that raises in its body, does so before. -/
theorem noResult_of_commandBody_raised {i : Instr} {s u : State} {c : Code} (h : commandBody i s = .raised c u)
    (hs : NoResult s) : NoResult u := by
  have hstream (hi : isStream i) : NoResult u := by
    have hbody := (keptBy_noResult hi).commandBody hs
    rwa [h, Res.all_raised] at hbody
  cases i with
  | encb | ilv | decb => cases h
  | corb =>
    rcases Res.bind_eq_raised h with hc | ⟨B, t, -, hc⟩
    · have hcorrect : (correctBlock s.srcOperand s).All NoResult := correctBlock_all hs
      rwa [hc, Res.all_raised] at hcorrect
    · cases hc
  | encs | decs | jamb | jamr => exact hstream (by decide)

/-- Settles O22: DST is empty where a command begins, and what raises or streams leaves it so. -/
theorem faultsAndStreamsLeaveNoResult : Obligations.FaultsAndStreamsLeaveNoResult := by
  unfold Obligations.FaultsAndStreamsLeaveNoResult
  intro i s t ht hend
  have hbegin : NoResult s.beginCommand := ⟨rfl, rfl⟩
  rcases exec_eq_next ht with ⟨-, u, hu, rfl⟩ | ⟨c, u, -, hu, rfl⟩
  · have hi : isStream i := hend.resolve_left fun hne => hne (code_complete u)
    have hbody := (keptBy_noResult hi).commandBody hbegin
    rw [hu, Res.all_ok] at hbody
    exact hbody.dstHolds_nil
  · have hnone : NoResult u := hu.elim (· ▸ hbegin) (noResult_of_commandBody_raised · hbegin)
    exact hnone.dstHolds_nil

/-! ### The environment's choices -/

theorem exec_spendsChoices {i : Instr} {s t : State} (ht : exec i s = .next t) : spendsChoices t := by
  rcases exec_eq_next ht with ⟨-, u, -, rfl⟩ | ⟨c, u, -, -, rfl⟩
  · exact spendsChoices_complete u
  · exact spendsChoices_raise u c

/-- A CMD write that ends has run the command decoded or, for an illegal word, raised ILLEGAL_COMMAND (R70). -/
theorem writeCmd_eq_next {w : Word} {s t : State} (h : writeCmd w s = .next t) :
    (∃ i, exec i (s.issue w) = .next t) ∨ t = (s.issue w).beginCommand.raise .illegalCommand := by
  unfold writeCmd at h
  split at h
  · exact .inl ⟨_, h⟩
  · exact .inr (Host.Outcome.next.inj h).symm

/-- Settles O18: completing and raising both drop what is left of the choices. -/
theorem everyCommandSpendsTheChoices : Obligations.EveryCommandSpendsTheChoices := by
  unfold Obligations.EveryCommandSpendsTheChoices
  refine ⟨fun i s t => exec_spendsChoices, fun s t op rest w h hw ht => ?_⟩
  rw [step_issuesWord h hw] at ht
  rcases writeCmd_eq_next ht with ⟨i, hi⟩ | rfl
  · exact exec_spendsChoices hi
  · exact spendsChoices_raise _ _

/-! ### STATUS -/

/-- STATUS as the end of a command leaves it: CODE is one of R120, STICKY records a fault, and bits 31:9 stay (R25). -/
def RecordsCode (s t : State) : Prop :=
  t.code.toNat ≤ 6 ∧ (t.sticky = true ↔ s.sticky = true ∨ t.code ≠ 0x00#8) ∧ t.status >>> 9 = s.status >>> 9

theorem recordsCode_complete {s u : State} (h : u.status = s.status) : RecordsCode s u.complete := by
  have hsticky : u.complete.sticky = s.sticky := (statusSticky_setStatusCode _ _).trans (congrArg _ h)
  refine ⟨by rw [code_complete]; decide, by simp [hsticky, code_complete], ?_⟩
  rw [State.complete_status, setStatusCode_shift, h]

theorem recordsCode_raise {s u : State} {c : Code} (hc : c ≠ .ok) (h : u.status = s.status) : RecordsCode s (u.raise c) := by
  have hsticky : (u.raise c).sticky = true := statusSticky_statusRaised _ _
  have hcode : (u.raise c).code = c.byte := statusCode_statusRaised _ _
  refine ⟨hcode ▸ c.byte_le, by simp [hsticky, code_raise_ne_zero hc], ?_⟩
  rw [State.raise_status, statusRaised_shift, h]

theorem keptBy_status (i : Instr) (st : Word) : KeptBy i (·.status = st) := by
  intro u t hop h
  cases hop <;> exact h

theorem exec_recordsCode {i : Instr} {s t : State} (ht : exec i s = .next t) : RecordsCode s t := by
  obtain ⟨u, hu, rfl | ⟨c, hc, rfl⟩⟩ := (keptBy_status i s.status).exec rfl ht
  · exact recordsCode_complete hu
  · exact recordsCode_raise hc hu

theorem writeCmd_recordsCode {w : Word} {s t : State} (ht : writeCmd w s = .next t) : RecordsCode s t := by
  rcases writeCmd_eq_next ht with ⟨i, hi⟩ | rfl
  · show RecordsCode (s.issue w) t
    exact exec_recordsCode hi
  · exact recordsCode_raise (by decide) rfl

/-- A host write of a register writes STATUS only as a CMD write does. -/
theorem hostWriteReg_status {r : Reg} {w : Word} {s t : State} (ht : hostWriteReg r w s = .next t) :
    t.status = s.status ∨ RecordsCode s t := by
  unfold hostWriteReg at ht
  split at ht
  · exact .inr (writeCmd_recordsCode ht)
  · obtain ⟨o, ho⟩ := s.writeReg_eq r w
    rw [ho] at ht
    cases ht
    exact .inl rfl

theorem busWrite_status {addr n : Nat} {w : Word} {s t : State} (ht : busWrite addr n w s = .next t) :
    t.status = s.status ∨ RecordsCode s t := by
  unfold busWrite at ht
  split at ht
  · cases ht
  · split at ht
    · exact hostWriteReg_status ht
    · cases ht
      exact .inl rfl

theorem busRead_status {addr n : Nat} {s t : State} (ht : busRead addr n s = .next t) : t.status = s.status := by
  unfold busRead at ht
  split at ht <;> cases ht
  rfl

theorem hostWriteSrc_status {i : Nat} {b : Byte} {s t : State} (ht : hostWriteSrc i b s = .next t) :
    t.status = s.status := by
  unfold hostWriteSrc at ht
  split at ht <;> cases ht
  rfl

theorem hostReadSrc_status {i : Nat} {s t : State} (ht : hostReadSrc i s = .next t) : t.status = s.status := by
  unfold hostReadSrc at ht
  split at ht <;> cases ht
  rfl

/-- STATUS after one operation of the host: reset clears it, and every other operation leaves it alone or ends a command. -/
theorem hostStep_status {op : HostOp} {s t : State} (ht : hostStep op s = .next t) :
    (op = .reset ∧ t.status = 0#32) ∨ t.status = s.status ∨ RecordsCode s t := by
  cases op with
  | reset => cases ht; exact .inl ⟨rfl, rfl⟩
  | set r n => exact .inr (hostWriteReg_status ht)
  | run i => exact .inr (.inr (writeCmd_recordsCode ht))
  | cmd w => exact .inr (.inr (writeCmd_recordsCode ht))
  | feed bytes => cases ht; exact .inr (.inl rfl)
  | entropy u l => cases ht; exact .inr (.inl rfl)
  | failIO call k => cases call <;> cases ht <;> exact .inr (.inl rfl)
  | load bytes => cases ht; exact .inr (.inl rfl)
  | take => cases ht; exact .inr (.inl rfl)
  | pipe => cases ht; exact .inr (.inl rfl)
  | dilv g =>
    unfold hostStep at ht
    dsimp only at ht
    split at ht <;> cases ht
    exact .inr (.inl rfl)
  | busWrite addr n w => exact .inr (busWrite_status ht)
  | busRead addr n => exact .inr (.inl (busRead_status ht))
  | srcWrite i b => exact .inr (.inl (hostWriteSrc_status ht))
  | srcRead i => exact .inr (.inl (hostReadSrc_status ht))
  | dstRead i => cases ht; exact .inr (.inl rfl)
  | ilvRaising => cases ht; exact .inr (.inr (recordsCode_raise (by decide) rfl))

/-- STATUS after a step: the same of the first pending operation, and a step with none pending changes nothing. -/
theorem step_status {s t : State} (ht : step s = .next t) :
    ((∃ rest, s.pending = .reset :: rest) ∧ t.status = 0#32) ∨ t.status = s.status ∨ RecordsCode s t := by
  cases hp : s.pending with
  | nil =>
    rw [step, hp] at ht
    cases ht
    exact .inr (.inl rfl)
  | cons op rest =>
    rw [step_pending hp] at ht
    rcases hostStep_status ht with ⟨rfl, h0⟩ | hkeep
    · exact .inl ⟨⟨rest, rfl⟩, h0⟩
    · exact .inr hkeep

/-- Settles O19: every step leaves STATUS alone, records a code in it, or is a reset. -/
theorem stickyRecordsEveryFault : Obligations.StickyRecordsEveryFault := by
  unfold Obligations.StickyRecordsEveryFault
  refine ⟨fun i s t => exec_recordsCode, fun s t op rest w h hw ht => ?_, fun s t ht hno hs => ?_, fun s rest h => ?_, rfl,
    fun s t ht hs => ?_⟩
  · rw [step_issuesWord h hw] at ht
    obtain ⟨hcode, hsticky, -⟩ := writeCmd_recordsCode ht
    exact ⟨hcode, hsticky⟩
  · rcases step_status ht with ⟨⟨rest, hr⟩, -⟩ | hkeep | ⟨-, hsticky, -⟩
    · exact absurd hr (hno rest)
    · exact (congrArg statusSticky hkeep).trans hs
    · exact hsticky.2 (.inl hs)
  · exact ⟨_, step_pending h, by show statusSticky 0#32 = false; decide⟩
  · rcases step_status ht with ⟨-, h0⟩ | hkeep | ⟨-, -, hshift⟩
    · rw [h0]
      rfl
    · rw [hkeep, hs]
    · rw [hshift, hs]

end Sys2Proof.Machine
end

section
/-! SUPPORT. FLIPS: each buffer of a noise command is inverted at different addresses, one counted flip for each, so FLIPS is
the number of bits in which output and input differ. -/

namespace Sys2Proof.Machine

/-! ### Addresses -/

theorem addrs_append {lo mid hi : Nat} (h1 : lo ≤ mid) (h2 : mid ≤ hi) : addrs lo mid ++ addrs mid hi = addrs lo hi := by
  unfold addrs
  rw [show hi - lo = (mid - lo) + (hi - mid) by omega, ← List.range'_append_1, Nat.add_sub_cancel' h1]

theorem addrs_eq_nil {lo hi : Nat} (h : hi ≤ lo) : addrs lo hi = [] := by
  rw [addrs, Nat.sub_eq_zero_of_le h, List.range'_zero]

/-- A later start leaves addresses out. -/
theorem addrs_sublist {lo lo' hi : Nat} (h : lo ≤ lo') : (addrs lo' hi).Sublist (addrs lo hi) := by
  rcases Nat.le_total lo' hi with h' | h'
  · rw [← addrs_append h h']
    exact List.sublist_append_right _ _
  · rw [addrs_eq_nil h']
    exact List.nil_sublist _

/-! ### Bits that differ -/

/-- BufBit after the flips of addresses in the buffer that are all different (R49). -/
theorem bufBit_flipAll {A : List Nat} (hnd : A.Nodup) {B : List Byte} (hA : ∀ a ∈ A, a < 8 * B.length) (b : Nat) :
    bufBit (flipAll B A) b = if b ∈ A then !bufBit B b else bufBit B b := by
  induction A generalizing B with
  | nil => rfl
  | cons a A ih =>
    obtain ⟨ha, hnd⟩ := List.nodup_cons.1 hnd
    obtain ⟨hlt, hA⟩ := List.forall_mem_cons.1 hA
    have hcons : bufBit (flipAll B (a :: A)) b = bufBit (flipAll (bufFlip B a) A) b := rfl
    rw [hcons, ih hnd (by simpa using hA), bufBit_bufFlip hlt]
    by_cases hb : b = a
    · simp [hb, ha]
    · simp [hb]

@[simp] theorem flipAll_length (B : List Byte) (A : List Nat) : (flipAll B A).length = B.length := by
  induction A generalizing B with
  | nil => rfl
  | cons a A ih => exact (ih _).trans (bufFlip_length B a)

/-- Flipping different addresses of a buffer makes it differ at exactly so many bits. -/
theorem differingBits_flipAll {B : List Byte} {A : List Nat} (hA : A.Sublist (addrs 0 (8 * B.length))) :
    differingBits B.length B (flipAll B A) = A.length := by
  have hnd : A.Nodup := (addrs_nodup _ _).sublist hA
  have hflip := bufBit_flipAll hnd fun a ha => (mem_addrs.1 (hA.subset ha)).2
  have hdiffer : ∀ a, (bufBit B a != bufBit (flipAll B A) a) = decide (a ∈ A) := by
    intro a
    rw [hflip]
    by_cases ha : a ∈ A <;> simp [ha]
  unfold differingBits
  simp only [hdiffer]
  refine List.Perm.length_eq ((List.perm_ext_iff_of_nodup ((addrs_nodup _ _).filter _) hnd).2 fun a => ?_)
  simpa using fun ha : a ∈ A => hA.subset ha

/-- The addresses of two consecutive buffers are those of the first and, moved by its bits, those of the second. -/
theorem addrs_add (m n : Nat) : addrs 0 (m + n) = addrs 0 m ++ (addrs 0 n).map (m + ·) := by
  rw [← addrs_append (Nat.zero_le m) (Nat.le_add_right m n)]
  simp [addrs, List.map_add_range']

/-- Differing bits of concatenated buffers add up. -/
theorem differingBits_append {B B' C C' : List Byte} (hB : B'.length = B.length) :
    differingBits (B ++ C).length (B ++ C) (B' ++ C') =
      differingBits B.length B B' + differingBits C.length C C' := by
  have hleft : (addrs 0 (8 * B.length)).filter (fun a => bufBit (B ++ C) a != bufBit (B' ++ C') a) =
      (addrs 0 (8 * B.length)).filter (fun a => bufBit B a != bufBit B' a) := by
    refine List.filter_congr fun a ha => ?_
    have hlt := (mem_addrs.1 ha).2
    rw [bufBit_append_left hlt, bufBit_append_left (hB ▸ hlt)]
  have hright (a : Nat) : (bufBit (B ++ C) (8 * B.length + a) != bufBit (B' ++ C') (8 * B.length + a)) =
      (bufBit C a != bufBit C' a) := by
    have h' := bufBit_append_right B' C' a
    rw [hB] at h'
    rw [bufBit_append_right, h']
  unfold differingBits
  rw [List.length_append, Nat.mul_add, addrs_add, List.filter_append, List.length_append, hleft, List.filter_map,
    List.length_map]
  congr 2
  exact List.filter_congr fun a _ => hright a

/-! ### One buffer of a noise command -/

/-- From Y in s to Z in t some of the addresses `as` were inverted, each once and counted in FLIPS. -/
def Flips (as : List Nat) (Y : List Byte) (s : State) (Z : List Byte) (t : State) : Prop :=
  ∃ A : List Nat, A.Sublist as ∧ Z = flipAll Y A ∧ t.cnt.flips = s.cnt.flips + BitVec.ofNat 64 A.length

theorem Flips.none (as : List Nat) (Y : List Byte) {s t : State} (h : t.cnt = s.cnt) : Flips as Y s Y t :=
  ⟨[], List.nil_sublist _, rfl, by simp [h]⟩

theorem Flips.mono {as bs : List Nat} (h : as.Sublist bs) {Y Z : List Byte} {s t : State} (hf : Flips as Y s Z t) :
    Flips bs Y s Z t := by
  obtain ⟨A, hA, hZ, hcnt⟩ := hf
  exact ⟨A, hA.trans h, hZ, hcnt⟩

/-- Flips of a whole list of addresses, and then of some of others. -/
theorem Flips.after {bs as : List Nat} {Y Z : List Byte} {s t u : State}
    (ht : t.cnt.flips = s.cnt.flips + BitVec.ofNat 64 bs.length) (hf : Flips as (flipAll Y bs) t Z u) :
    Flips (bs ++ as) Y s Z u := by
  obtain ⟨A, hA, hZ, hcnt⟩ := hf
  refine ⟨bs ++ A, hA.append_left bs, ?_, ?_⟩
  · rw [hZ, flipAll, flipAll, flipAll, List.foldl_append]
  · rw [hcnt, ht, List.length_append, BitVec.ofNat_add, BitVec.add_assoc]

theorem cnt_of_drawU32 {s t : State} {u : Word} (h : drawU32 s = .ok u t) : t.cnt = s.cnt := by
  rcases drawU32_cases s with ⟨-, hd⟩ | ⟨u, us, -, hd⟩ <;> rw [hd] at h <;> cases h
  rfl

theorem cnt_of_drawLen {m l : Nat} {s t : State} (h : drawLen m s = .ok l t) : t.cnt = s.cnt := by
  rcases drawLen_cases m s with ⟨-, hd⟩ | ⟨l, ls, -, ⟨-, hd⟩ | ⟨-, hd⟩⟩ <;> rw [hd] at h <;> cases h
  rfl

/-- Flips after a draw, which counts nothing. -/
theorem Flips.of_cnt_eq {as : List Nat} {Y Z : List Byte} {s t u : State} (h : t.cnt = s.cnt) (hf : Flips as Y t Z u) :
    Flips as Y s Z u := by
  rwa [Flips, h] at hf

/-- The loop of R113 flips some of its addresses. -/
theorem jamBits_flips {as : List Nat} {Y Z : List Byte} {s t : State} (h : jamBits as Y s = .ok Z t) :
    Flips as Y s Z t := by
  induction as generalizing Y s with
  | nil =>
    cases h
    exact Flips.none [] _ rfl
  | cons a as ih =>
    rw [jamBits] at h
    obtain ⟨u, s', hu, h⟩ := Res.bind_eq_ok h
    refine Flips.of_cnt_eq (cnt_of_drawU32 hu) ?_
    split at h
    · exact Flips.after (bs := [a]) rfl (ih h)
    · exact (ih h).mono (List.sublist_cons_self a as)

/-- The addresses of a burst cut at N, and those from the cursor after it, are addresses from c up. -/
theorem burst_append_sublist {c N : Nat} (hc : c < N) (L : Nat) :
    (addrs c (min (c + L) N) ++ addrs (c + max L 1) N).Sublist (addrs c N) := by
  rw [← addrs_append (show c ≤ min (c + L) N by omega) (Nat.min_le_right _ _)]
  exact (addrs_sublist (by omega)).append_left _

/-- The scan of R116 flips some of the addresses from its cursor up. -/
theorem jamBurst_flips {N fuel c : Nat} {Y Z : List Byte} {s t : State} (h : jamBurst N fuel c Y s = .ok Z t) :
    Flips (addrs c N) Y s Z t := by
  induction fuel generalizing c Y s with
  | zero =>
    cases h
    exact Flips.none _ _ rfl
  | succ fuel ih =>
    rw [jamBurst] at h
    split at h
    · next hc =>
      obtain ⟨u, s₁, hu, h⟩ := Res.bind_eq_ok h
      refine Flips.of_cnt_eq (cnt_of_drawU32 hu) ?_
      split at h
      · obtain ⟨L, s₂, hL, h⟩ := Res.bind_eq_ok h
        refine Flips.of_cnt_eq (cnt_of_drawLen hL) ?_
        have hrest := ih h
        rw [flipRun_eq] at hrest
        exact (Flips.after rfl hrest).mono (burst_append_sublist hc L)
      · exact (ih h).mono (addrs_sublist (Nat.le_succ c))
    · cases h
      exact Flips.none _ _ rfl

/-- What the work of a noise command on one buffer does where it goes on: as many bytes, the differing bits counted in FLIPS,
and the streams left alone. -/
def CountsDifferingBits (tr : List Byte → State → Res (List Byte)) : Prop :=
  ∀ X s Y t, tr X s = .ok Y t → Y.length = X.length ∧
    t.cnt.flips = s.cnt.flips + BitVec.ofNat 64 (differingBits X.length X Y) ∧ t.inRest = s.inRest ∧ t.out = s.out

theorem Flips.counts {X Y : List Byte} {s t : State} (h : Flips (addrs 0 (8 * X.length)) X s Y t) :
    Y.length = X.length ∧ t.cnt.flips = s.cnt.flips + BitVec.ofNat 64 (differingBits X.length X Y) := by
  obtain ⟨A, hA, rfl, hcnt⟩ := h
  exact ⟨flipAll_length X A, by rw [hcnt, differingBits_flipAll hA]⟩

theorem jamBitsBuffer_counts : CountsDifferingBits jamBitsBuffer := by
  intro X s Y t h
  obtain ⟨hlen, hflips⟩ := (jamBits_flips h).counts
  have hstreams : (jamBitsBuffer X s).All fun u => u.inRest = s.inRest ∧ u.out = s.out :=
    jamBits_all (fun _ _ hu => hu) (fun _ hu => hu) _ X ⟨rfl, rfl⟩
  rw [h, Res.all_ok] at hstreams
  exact ⟨hlen, hflips, hstreams⟩

theorem jamBurstBuffer_counts : CountsDifferingBits jamBurstBuffer := by
  intro X s Y t h
  obtain ⟨hlen, hflips⟩ := (jamBurst_flips h).counts
  have hstreams : (jamBurstBuffer X s).All fun u => u.inRest = s.inRest ∧ u.out = s.out :=
    jamBurst_all (fun _ _ hu => hu) (fun _ _ hu => hu) (fun _ hu => hu) _ _ 0 X ⟨rfl, rfl⟩
  rw [h, Res.all_ok] at hstreams
  exact ⟨hlen, hflips, hstreams⟩

/-! ### The whole stream -/

/-- What one pass of the stream loop has done where the loop went on to its end: it was the empty read at the end of IN, or a
unit was read, transformed, written and counted before the rest of the loop (R57). -/
theorem streamLoop_succ_eq_ok {n fuel : Nat} {tr : List Byte → State → Res (List Byte)} {s t : State}
    (h : streamLoop n tr (fuel + 1) s = .ok () t) :
    (s.inRest.take n = [] ∧ t = s.countInCall.consume n) ∨
      ∃ Y u, s.inRest.take n ≠ [] ∧ tr (s.inRest.take n) (s.countInCall.consume n) = .ok Y u ∧
        streamLoop n tr fuel (u.countOutCall.emit Y).countUnit = .ok () t := by
  rw [streamLoop] at h
  rcases inRead_cases n s with ⟨-, hr⟩ | ⟨-, hr⟩ <;> rw [hr] at h
  · cases h
  · rw [Res.bind_ok] at h
    split at h
    · next hnil =>
      cases h
      exact .inl ⟨hnil, rfl⟩
    · next hne =>
      obtain ⟨Y, u, hu, h⟩ := Res.bind_eq_ok h
      refine .inr ⟨Y, u, hne, hu, ?_⟩
      rcases writeUnit_cases (s.countInCall.consume n).cnt.flips Y u with ⟨-, hw⟩ | ⟨-, hw⟩ <;> rw [hw] at h
      · cases h
      · exact h

/-- A noise stream that goes on to its end has read IN to its end, written as many bytes, and counted the differing bits. -/
theorem streamLoop_counts {n : Nat} (hn : 1 ≤ n) {tr : List Byte → State → Res (List Byte)}
    (htr : CountsDifferingBits tr) {fuel : Nat} {s t : State} (hf : s.inRest.length < fuel)
    (h : streamLoop n tr fuel s = .ok () t) :
    ∃ ys, t.out = s.out ++ ys ∧ ys.length = s.inRest.length ∧
      t.cnt.flips = s.cnt.flips + BitVec.ofNat 64 (differingBits s.inRest.length s.inRest ys) := by
  induction fuel generalizing s with
  | zero => omega
  | succ fuel ih =>
    rcases streamLoop_succ_eq_ok h with ⟨hnil, rfl⟩ | ⟨Y, u, hne, hu, h⟩
    · have hrest : s.inRest = [] := (List.take_eq_nil_iff.1 hnil).resolve_left (by omega)
      exact ⟨[], by simp, by simp [hrest], by simp [hrest, differingBits, addrs]⟩
    · obtain ⟨hlen, hflips, hrest, hout⟩ := htr _ _ _ _ hu
      have hpos : 0 < s.inRest.length := List.length_pos_iff.2 fun h0 => hne (by simp [h0])
      have hdrop : (u.countOutCall.emit Y).countUnit.inRest = s.inRest.drop n := hrest
      obtain ⟨ys, hout', hlen', hflips'⟩ := ih (by rw [hdrop, List.length_drop]; omega) h
      rw [hdrop] at hlen' hflips'
      refine ⟨Y ++ ys, ?_, ?_, ?_⟩
      · rw [hout']
        simp [hout]
      · rw [List.length_append, hlen, hlen', ← List.length_append, List.take_append_drop]
      · have hsplit := differingBits_append (C := s.inRest.drop n) (C' := ys) hlen
        rw [List.take_append_drop] at hsplit
        rw [hflips', hsplit, BitVec.ofNat_add, ← BitVec.add_assoc]
        exact congrArg (· + _) hflips

/-- The body of a noise command that goes on to its end, for legal operands. -/
theorem noise_commandBody_counts {i : Instr} (hi : isNoise i) {s t : State} (hl : operandsLegal i s = true)
    (h : commandBody i s = .ok () t) :
    ∃ ys, t.out = s.out ++ ys ∧ ys.length = s.inRest.length ∧
      t.cnt.flips = s.cnt.flips + BitVec.ofNat 64 (differingBits s.inRest.length s.inRest ys) := by
  have hlegal := (operandsLegal_iff i s).1 hl
  rcases hi with rfl | rfl
  · obtain ⟨-, -, hbuf, -⟩ := hlegal
    exact streamLoop_counts hbuf jamBitsBuffer_counts (Nat.lt_succ_self _) h
  · obtain ⟨-, -, -, hbuf, -⟩ := hlegal
    exact streamLoop_counts hbuf jamBurstBuffer_counts (Nat.lt_succ_self _) h

/-- Settles O54: a command that ends OK has completed after its body, and FLIPS was 0 where it began. -/
theorem flipsCountsTheDifferingBits : Obligations.FlipsCountsTheDifferingBits := by
  unfold Obligations.FlipsCountsTheDifferingBits
  intro i s t ys hi ht hok hout
  rcases exec_eq_next ht with ⟨hl, u, hu, rfl⟩ | ⟨c, u, hc, -, rfl⟩
  · obtain ⟨zs, hout', -, hflips⟩ := noise_commandBody_counts hi hl hu
    obtain rfl : ys = zs := List.append_cancel_left (hout.symm.trans hout')
    exact hflips.trans (BitVec.zero_add _)
  · exact absurd hok (code_raise_ne_zero hc u)

end Sys2Proof.Machine
end

section
/-! SUPPORT. The stream loop unit by unit, and where a planned I/O failure stops it (R53, R54, R57, R128, R129). -/

namespace Sys2Proof.Machine

/-! ### The work on a unit and the streams -/

/-- The state s with the streams, the planned failures and the counters of io, FLIPS apart: what the work on one unit of a
stream command neither reads nor writes. -/
def State.withIo (s io : State) : State :=
  { s with
    inDone := io.inDone, inRest := io.inRest, out := io.out
    failIn := io.failIn, failOut := io.failOut, inCalls := io.inCalls, outCalls := io.outCalls
    cnt := { io.cnt with flips := s.cnt.flips } }

/-- The same result in a state with the streams of io. -/
def Res.withIo {α : Type} (r : Res α) (io : State) : Res α :=
  match r with
  | .ok a s => .ok a (s.withIo io)
  | .raised c s => .raised c (s.withIo io)
  | .stuck e => .stuck e

/-- The work on a unit does the same whatever the streams are, and leaves them as they are. -/
def IgnoresIo (tr : List Byte → State → Res (List Byte)) : Prop :=
  ∀ X s io, tr X (s.withIo io) = (tr X s).withIo io

theorem Res.bind_withIo {α β : Type} {f : α → State → Res β} {io : State}
    (hf : ∀ a s, f a (s.withIo io) = (f a s).withIo io) (r : Res α) :
    (r.withIo io).bind f = (r.bind f).withIo io := by
  cases r with
  | ok a s => exact hf a s
  | raised c s => rfl
  | stuck e => rfl

theorem drawU32_withIo (s io : State) : drawU32 (s.withIo io) = (drawU32 s).withIo io := by
  have hdraws : (s.withIo io).drawsU = s.drawsU := rfl
  unfold drawU32
  rw [hdraws]
  cases s.drawsU <;> rfl

theorem drawLen_withIo (m : Nat) (s io : State) : drawLen m (s.withIo io) = (drawLen m s).withIo io := by
  have hdraws : (s.withIo io).drawsL = s.drawsL := rfl
  unfold drawLen
  rw [hdraws]
  cases s.drawsL with
  | nil => rfl
  | cons l ls =>
    by_cases hl : l < m
    · simp only [if_pos hl]; rfl
    · simp only [if_neg hl]; rfl

theorem jamBits_withIo (as : List Nat) (Y : List Byte) (s io : State) :
    jamBits as Y (s.withIo io) = (jamBits as Y s).withIo io := by
  induction as generalizing Y s with
  | nil => rfl
  | cons a as ih =>
    rw [jamBits, jamBits, drawU32_withIo]
    refine Res.bind_withIo (fun u t => ?_) _
    by_cases ht : flipTest t u = true
    · rw [if_pos ht, ← ih]; exact if_pos ht
    · rw [if_neg ht, ← ih]; exact if_neg ht

theorem flipRun_withIo (as : List Nat) (Y : List Byte) (s io : State) :
    flipRun as Y (s.withIo io) = ((flipRun as Y s).1, (flipRun as Y s).2.withIo io) := by
  rw [flipRun_eq, flipRun_eq]
  rfl

theorem jamBurst_withIo (N fuel c : Nat) (Y : List Byte) (s io : State) :
    jamBurst N fuel c Y (s.withIo io) = (jamBurst N fuel c Y s).withIo io := by
  induction fuel generalizing c Y s with
  | zero => rfl
  | succ fuel ih =>
    rw [jamBurst, jamBurst]
    by_cases hc : c < N
    · rw [if_pos hc, if_pos hc, drawU32_withIo]
      refine Res.bind_withIo (fun u t => ?_) _
      by_cases ht : trigger t u = true
      · rw [if_pos ht, if_pos (show trigger (t.withIo io) u = true from ht),
          show (t.withIo io).maxBurst = t.maxBurst from rfl, drawLen_withIo]
        refine Res.bind_withIo (fun L v => ?_) _
        rw [flipRun_withIo, ih]
      · rw [if_neg ht, if_neg (show ¬ trigger (t.withIo io) u = true from ht), ih]
    · rw [if_neg hc, if_neg hc]
      rfl

theorem correctBlock_withIo (B : List Byte) (s io : State) :
    correctBlock B (s.withIo io) = (correctBlock B s).withIo io := by
  simp only [correctBlock]
  split_ifs <;> rfl

theorem decodeBlocks_withIo (d : Nat) (Bs : List (List Byte)) (s io : State) :
    decodeBlocks d Bs (s.withIo io) = (decodeBlocks d Bs s).withIo io := by
  induction Bs generalizing s with
  | nil => rfl
  | cons B Bs ih =>
    rw [decodeBlocks, decodeBlocks, correctBlock_withIo]
    refine Res.bind_withIo (fun C t => ?_) _
    rw [ih]
    exact Res.bind_withIo (fun _ _ => rfl) _

theorem decodeUnit_ignoresIo (d g : Nat) : IgnoresIo (decodeUnit d g) := by
  intro X s io
  unfold decodeUnit
  split
  · rfl
  · exact decodeBlocks_withIo d _ s io

/-- What a stream command does to one unit, s being the state that holds its operands. -/
def unitWork : Instr → State → List Byte → State → Res (List Byte)
  | .encs, s => fun X t => .ok (encodeUnit s.dpb s.groups X) t
  | .decs, s => decodeUnit s.dpb s.groups
  | .jamb, _ => jamBitsBuffer
  | .jamr, _ => jamBurstBuffer
  | .encb, _ | .ilv, _ | .corb, _ | .decb, _ => fun X t => .ok X t

theorem commandBody_stream {i : Instr} (hi : isStream i) (s : State) :
    commandBody i s = runStream (unitSize i s) (unitWork i s) s := by
  rcases hi with rfl | rfl | rfl | rfl <;> rfl

theorem unitWork_ignoresIo (i : Instr) (s : State) : IgnoresIo (unitWork i s) := by
  cases i with
  | decs => exact decodeUnit_ignoresIo _ _
  | jamb => exact fun X t io => jamBits_withIo _ X t io
  | jamr => exact fun X t io => jamBurst_withIo _ _ 0 X t io
  | encs | encb | ilv | corb | decb => exact fun _ _ _ => rfl

/-- Only the noise commands count flips (R36). -/
theorem unitWork_flips {i : Instr} (hi : ¬ isNoise i) (s : State) {X Y : List Byte} {t u : State}
    (h : unitWork i s X t = .ok Y u) : u.cnt.flips = t.cnt.flips := by
  cases i with
  | jamb | jamr => exact absurd (by decide) hi
  | encs | encb | ilv | corb | decb => cases h; rfl
  | decs =>
    have hframe : (decodeUnit s.dpb s.groups X t).All (·.cnt.flips = t.cnt.flips) := by
      unfold decodeUnit
      split
      · rfl
      · exact decodeBlocks_all (fun _ _ _ hv => hv) _ _ rfl
    rwa [show decodeUnit s.dpb s.groups X t = .ok Y u from h, Res.all_ok] at hframe

theorem unitSize_pos {i : Instr} {s : State} (hi : isStream i) (h : LegalOperands i s) : 1 ≤ unitSize i s := by
  rcases hi with rfl | rfl | rfl | rfl
  · obtain ⟨⟨hd, -⟩, hg, -⟩ := h
    exact Nat.mul_pos hd hg
  · obtain ⟨-, hg, -⟩ := h
    exact Nat.mul_pos (codeSize_pos _) hg
  · obtain ⟨-, -, hbuf, -⟩ := h
    exact hbuf
  · obtain ⟨-, -, -, hbuf, -⟩ := h
    exact hbuf

/-! ### What follows where the work ignores the streams -/

/-- The state s with other unread bytes of IN and other planned failures. -/
def State.withHost (s : State) (rest : List Byte) (failIn failOut : List Nat) : State :=
  { s with inRest := rest, failIn := failIn, failOut := failOut }

/-- The streams after the work are those before it. -/
theorem IgnoresIo.frame {tr : List Byte → State → Res (List Byte)} (htr : IgnoresIo tr) {X Y : List Byte} {s t : State}
    (h : tr X s = .ok Y t) : t.withIo s = t := by
  have hself : tr X s = (tr X s).withIo s := htr X s s
  rw [h] at hself
  injection hself with _ hframe
  exact hframe.symm

theorem IgnoresIo.inRest {tr : List Byte → State → Res (List Byte)} (htr : IgnoresIo tr) (X : List Byte) (s : State)
    (Y : List Byte) (t : State) (h : tr X s = .ok Y t) : t.inRest = s.inRest := by
  rw [← htr.frame h]
  rfl

theorem IgnoresIo.withHost {tr : List Byte → State → Res (List Byte)} (htr : IgnoresIo tr) {X Y : List Byte}
    {s t : State} (h : tr X s = .ok Y t) (rest : List Byte) (fi fo : List Nat) :
    tr X (s.withHost rest fi fo) = .ok Y (t.withHost rest fi fo) := by
  rw [← htr.frame h]
  have hres := htr X s (s.withHost rest fi fo)
  rw [h] at hres
  exact hres

/-! ### The loop, unit by unit -/

/-- From s to t the stream loop has done k units: each was read, not empty, transformed, written and counted (R57). -/
inductive UnitsDone (n : Nat) (tr : List Byte → State → Res (List Byte)) : Nat → State → State → Prop
  | none (s : State) : UnitsDone n tr 0 s s
  | unit {k : Nat} {s t u : State} {Y : List Byte} (h : UnitsDone n tr k s t) (hread : t.inRest.take n ≠ [])
      (hwork : tr (t.inRest.take n) (t.countInCall.consume n) = .ok Y u) :
      UnitsDone n tr (k + 1) s (u.countOutCall.emit Y).countUnit

section
variable {n : Nat} {tr : List Byte → State → Res (List Byte)}

/-- What k units leave of IN, of the plans and of the counters. -/
theorem UnitsDone.frame (htr : IgnoresIo tr) {k : Nat} {s t : State} (h : UnitsDone n tr k s t) :
    t.inRest = s.inRest.drop (k * n) ∧ t.failIn = s.failIn ∧ t.failOut = s.failOut ∧ t.inCalls = s.inCalls + k ∧
      t.outCalls = s.outCalls + k ∧ t.cnt.units = s.cnt.units + BitVec.ofNat 64 k := by
  induction h with
  | none => simp
  | @unit k s t u Y _ _ hwork ih =>
    obtain ⟨hrest, hin, hout, hinCalls, houtCalls, hunits⟩ := ih
    rw [← htr.frame hwork]
    refine ⟨?_, hin, hout, congrArg (· + 1) hinCalls, congrArg (· + 1) houtCalls, ?_⟩
    · show t.inRest.drop n = _
      rw [hrest, List.drop_drop, Nat.add_one_mul]
    · show t.cnt.units + 1 = _
      rw [hunits, BitVec.ofNat_add, BitVec.add_assoc]
      rfl

/-- Units that flip nothing leave FLIPS. -/
theorem UnitsDone.flips (htr : ∀ {X s Y t}, tr X s = .ok Y t → t.cnt.flips = s.cnt.flips) {k : Nat} {s t : State}
    (h : UnitsDone n tr k s t) : t.cnt.flips = s.cnt.flips := by
  induction h with
  | none => rfl
  | unit _ _ hwork ih => exact (htr hwork).trans ih

/-- Where IN holds the same bytes for k units, they are done alike, whatever follows and whichever failures are planned. -/
theorem UnitsDone.withHost (htr : IgnoresIo tr) {k : Nat} {s t : State} (h : UnitsDone n tr k s t) {rest : List Byte}
    (hrest : rest.take (k * n) = s.inRest.take (k * n)) (fi fo : List Nat) :
    UnitsDone n tr k (s.withHost rest fi fo) (t.withHost (rest.drop (k * n)) fi fo) := by
  induction h with
  | none => simpa using UnitsDone.none _
  | @unit k s t u Y h hread hwork ih =>
    rw [Nat.add_one_mul] at hrest
    have hbefore : rest.take (k * n) = s.inRest.take (k * n) := by
      simpa [List.take_take] using congrArg (List.take (k * n)) hrest
    have hunit : (rest.drop (k * n)).take n = t.inRest.take n := by
      have hdrop := congrArg (List.drop (k * n)) hrest
      rw [List.drop_take, List.drop_take, Nat.add_sub_cancel_left] at hdrop
      rw [hdrop, (h.frame htr).1]
    have hstep := htr.withHost hwork ((rest.drop (k * n)).drop n) fi fo
    rw [← hunit] at hread hstep
    rw [Nat.add_one_mul, ← List.drop_drop]
    have hconsume : ((t.countInCall.consume n).withHost ((rest.drop (k * n)).drop n) fi fo) =
        (t.withHost (rest.drop (k * n)) fi fo).countInCall.consume n := by
      simp [State.withHost, State.consume, State.countInCall, hunit]
    rw [hconsume] at hstep
    exact (ih hbefore).unit hread hstep

/-! ### One pass of the loop -/

/-- At the end of IN an InRead consumes nothing. -/
theorem State.consume_eq_self {s : State} (h : s.inRest = []) (n : Nat) : s.consume n = s := by
  cases s
  cases h
  simp [State.consume]

/-- A pass whose InRead goes on. -/
theorem streamLoop_read {s : State} (hin : s.inCalls + 1 ∉ s.failIn) (g : Nat) :
    streamLoop n tr (g + 1) s =
      if s.inRest.take n = [] then .ok () (s.countInCall.consume n)
      else
        (tr (s.inRest.take n) (s.countInCall.consume n)).bind fun Y u =>
          (writeUnit s.cnt.flips Y u).bind fun _ v => streamLoop n tr g v.countUnit := by
  rw [streamLoop]
  rcases inRead_cases n s with ⟨hfails, -⟩ | ⟨-, hr⟩
  · exact absurd hfails hin
  · rw [hr]
    rfl

/-- A pass whose InRead fails consumes nothing (R53). -/
theorem streamLoop_failedRead {s : State} (hin : s.inCalls + 1 ∈ s.failIn) (g : Nat) :
    streamLoop n tr (g + 1) s = .raised .ioError s.countInCall := by
  rw [streamLoop]
  rcases inRead_cases n s with ⟨-, hr⟩ | ⟨hnot, -⟩
  · rw [hr]
    rfl
  · exact absurd hin hnot

/-- The pass at the end of IN. -/
theorem streamLoop_end {s : State} (hrest : s.inRest = []) (hin : s.inCalls + 1 ∉ s.failIn) (g : Nat) :
    streamLoop n tr (g + 1) s = .ok () (s.countInCall.consume n) := by
  rw [streamLoop_read hin, if_pos (by rw [hrest, List.take_nil])]

/-- A pass that does a unit. -/
theorem streamLoop_unit {s u : State} {Y : List Byte} (hin : s.inCalls + 1 ∉ s.failIn) (hread : s.inRest.take n ≠ [])
    (hwork : tr (s.inRest.take n) (s.countInCall.consume n) = .ok Y u) (hout : u.outCalls + 1 ∉ u.failOut) (g : Nat) :
    streamLoop n tr (g + 1) s = streamLoop n tr g (u.countOutCall.emit Y).countUnit := by
  rw [streamLoop_read hin, if_neg hread, hwork, Res.bind_ok]
  rcases writeUnit_cases s.cnt.flips Y u with ⟨hfails, -⟩ | ⟨-, hw⟩
  · exact absurd hfails hout
  · rw [hw]
    rfl

/-- A pass whose OutWrite fails leaves neither its bytes on OUT nor its flips in FLIPS (R54, R129; log entry 15). -/
theorem streamLoop_failedWrite {s u : State} {Y : List Byte} (hin : s.inCalls + 1 ∉ s.failIn)
    (hread : s.inRest.take n ≠ []) (hwork : tr (s.inRest.take n) (s.countInCall.consume n) = .ok Y u)
    (hout : u.outCalls + 1 ∈ u.failOut) (g : Nat) :
    streamLoop n tr (g + 1) s = .raised .ioError (u.countOutCall.failedUnit s.cnt.flips) := by
  rw [streamLoop_read hin, if_neg hread, hwork, Res.bind_ok]
  rcases writeUnit_cases s.cnt.flips Y u with ⟨-, hw⟩ | ⟨hnot, -⟩
  · rw [hw]
    rfl
  · exact absurd hout hnot

/-! ### Runs and their units -/

/-- The last of k + 1 units. -/
theorem UnitsDone.succ_inv {k : Nat} {s t : State} (h : UnitsDone n tr (k + 1) s t) :
    ∃ m u Y, UnitsDone n tr k s m ∧ m.inRest.take n ≠ [] ∧
      tr (m.inRest.take n) (m.countInCall.consume n) = .ok Y u ∧ t = (u.countOutCall.emit Y).countUnit := by
  obtain _ | ⟨hm, hread, hwork⟩ := h
  exact ⟨_, _, _, hm, hread, hwork, rfl⟩

/-- While the host fails none of the calls of k units, the loop does them. -/
theorem UnitsDone.streamLoop_eq (htr : IgnoresIo tr) {k : Nat} {s t : State} (h : UnitsDone n tr k s t)
    (hin : ∀ j, s.inCalls < j → j ≤ s.inCalls + k → j ∉ s.failIn)
    (hout : ∀ j, s.outCalls < j → j ≤ s.outCalls + k → j ∉ s.failOut) (g : Nat) :
    streamLoop n tr (k + g) s = streamLoop n tr g t := by
  induction h generalizing g with
  | none => rw [Nat.zero_add]
  | @unit k s t u Y h hread hwork ih =>
    obtain ⟨-, hfailIn, hfailOut, hinCalls, houtCalls, -⟩ := h.frame htr
    have hfirst := ih (fun j h1 h2 => hin j h1 (by omega)) (fun j h1 h2 => hout j h1 (by omega)) (g + 1)
    have hinCall : t.inCalls + 1 ∉ t.failIn := by
      rw [hfailIn]
      exact hin _ (by omega) (by omega)
    have houtCall : u.outCalls + 1 ∉ u.failOut := by
      rw [← htr.frame hwork]
      show t.outCalls + 1 ∉ t.failOut
      rw [hfailOut]
      exact hout _ (by omega) (by omega)
    rw [Nat.add_right_comm, Nat.add_assoc, hfirst, streamLoop_unit hinCall hread hwork houtCall]

/-- A run that goes on to its end has first done any number k of units that IN has, whole ones but for the last. -/
theorem unitsDone_of_streamLoop_ok (hn : 1 ≤ n) (htr : IgnoresIo tr) {s t : State} (k : Nat)
    (hk : k * n < s.inRest.length + n) {f : Nat} (hf : s.inRest.length < f) (h : streamLoop n tr f s = .ok () t) :
    ∃ m g, UnitsDone n tr k s m ∧ m.inRest.length < g ∧ streamLoop n tr g m = .ok () t := by
  induction k with
  | zero => exact ⟨s, f, .none s, hf, h⟩
  | succ k ih =>
    rw [Nat.add_one_mul] at hk
    obtain ⟨m, g, hm, hg, hloop⟩ := ih (by omega)
    obtain ⟨hrest, -⟩ := hm.frame htr
    have hlen : 0 < m.inRest.length := by rw [hrest, List.length_drop]; omega
    obtain _ | g := g
    · omega
    rcases streamLoop_succ_eq_ok hloop with ⟨hnil, -⟩ | ⟨Y, u, hread, hwork, hnext⟩
    · have := congrArg List.length hnil
      rw [List.length_take, List.length_nil] at this
      omega
    · have hdrop : (u.countOutCall.emit Y).countUnit.inRest = m.inRest.drop n := htr.inRest _ _ _ _ hwork
      refine ⟨_, g, hm.unit hread hwork, ?_, hnext⟩
      rw [hdrop, List.length_drop]
      omega

/-- A run that goes on to its end, on at most k units, is k units and the empty read at the end of IN. -/
theorem streamLoop_ok_eq_units (hn : 1 ≤ n) (htr : IgnoresIo tr) {s t : State} {k : Nat}
    (hk : k * n < s.inRest.length + n) (hall : s.inRest.length ≤ k * n) {f : Nat} (hf : s.inRest.length < f)
    (h : streamLoop n tr f s = .ok () t) :
    ∃ m, UnitsDone n tr k s m ∧ m.inRest = [] ∧ t = m.countInCall.consume n := by
  obtain ⟨m, g, hm, hg, hloop⟩ := unitsDone_of_streamLoop_ok hn htr k hk hf h
  obtain ⟨hrest, -⟩ := hm.frame htr
  have hnil : m.inRest = [] := by rw [hrest, List.drop_eq_nil_of_le hall]
  obtain _ | g := g
  · omega
  refine ⟨m, hm, hnil, ?_⟩
  rcases streamLoop_succ_eq_ok hloop with ⟨-, ht⟩ | ⟨Y, u, hread, -⟩
  · exact ht
  · exact absurd (by rw [hnil, List.take_nil]) hread

/-- A stream command that does k units without a failure goes on from there. -/
theorem UnitsDone.runStream_eq (hn : 1 ≤ n) (htr : IgnoresIo tr) {k : Nat} {s t : State} (h : UnitsDone n tr k s t)
    (hin : ∀ j, s.inCalls < j → j ≤ s.inCalls + k → j ∉ s.failIn)
    (hout : ∀ j, s.outCalls < j → j ≤ s.outCalls + k → j ∉ s.failOut) :
    runStream n tr s = streamLoop n tr (s.inRest.length + 1) t :=
  (streamLoop_fuel hn htr.inRest _ _ (Nat.lt_succ_self _) (by omega)).trans (h.streamLoop_eq htr hin hout _)

end

/-! ### Stream commands -/

theorem unitSize_of_ops (i : Instr) {s t : State} (h : t.ops = s.ops) : unitSize i t = unitSize i s := by
  cases i <;> simp only [unitSize, State.dpb, State.groups, State.bufSize, h]

theorem unitWork_of_ops (i : Instr) {s t : State} (h : t.ops = s.ops) : unitWork i t = unitWork i s := by
  cases i <;> simp only [unitWork, State.dpb, State.groups, h]

/-- The body of a stream command on other input and other plans than those of s. -/
theorem commandBody_withHost {i : Instr} (hi : isStream i) (s : State) (rest : List Byte) (fi fo : List Nat) :
    commandBody i (s.withHost rest fi fo).beginCommand =
      runStream (unitSize i s) (unitWork i s) (s.beginCommand.withHost rest fi fo) := by
  have hops : (s.withHost rest fi fo).beginCommand.ops = s.ops := rfl
  rw [commandBody_stream hi, unitSize_of_ops i hops, unitWork_of_ops i hops]
  rfl

/-- A stream command with operands legal in s ends as its loop does, on other input and other plans too. -/
theorem exec_stream {i : Instr} (hi : isStream i) {s : State} (hl : LegalOperands i s) (rest : List Byte)
    (fi fo : List Nat) :
    exec i (s.withHost rest fi fo) =
      finish (runStream (unitSize i s) (unitWork i s) (s.beginCommand.withHost rest fi fo)) := by
  have hlegal : LegalOperands i (s.withHost rest fi fo).beginCommand := by
    rcases hi with rfl | rfl | rfl | rfl <;> exact hl
  rw [exec_eq_runCommand, runCommand_legal ((operandsLegal_iff _ _).2 hlegal), commandBody_withHost hi]

/-- A stream command whose loop raises IO_ERROR ends with it, and leaves the host's state and no result (R127, R35). -/
theorem exec_stream_ioError {i : Instr} (hi : isStream i) {s u : State} (hl : LegalOperands i s)
    (h : runStream (unitSize i s) (unitWork i s) s.beginCommand = .raised .ioError u) :
    exec i s = .next (u.raise .ioError) ∧ endsRaised 0x06#8 s (u.raise .ioError) ∧ keepsHost s (u.raise .ioError) ∧
      dstHolds (u.raise .ioError) [] := by
  have hexec : exec i s = .next (u.raise .ioError) :=
    (exec_stream hi hl s.inRest s.failIn s.failOut).trans (congrArg finish h)
  obtain ⟨-, -, hreserved⟩ := exec_recordsCode hexec
  exact ⟨hexec, ⟨statusCode_statusRaised _ _, statusSticky_statusRaised _ _, hreserved⟩,
    commandsKeepTheHostsState i s _ hexec, faultsAndStreamsLeaveNoResult i s _ hexec (.inr hi)⟩

/-- Where a run on the bytes of k units alone, with no failure planned, ends OK, those k units can be done from s. -/
theorem unitsDone_of_exec_ok {i : Instr} (hi : isStream i) {s t : State} (hl : LegalOperands i s) {k : Nat}
    (hk : k * unitSize i s < s.inRest.length + unitSize i s)
    (ht : exec i (s.withHost (s.inRest.take (k * unitSize i s)) [] []) = .next t) (hok : t.code = 0x00#8) :
    ∃ m, UnitsDone (unitSize i s) (unitWork i s) k s.beginCommand m ∧
      t = (m.withHost [] [] []).countInCall.complete := by
  have hn := unitSize_pos hi hl
  have htr := unitWork_ignoresIo i s
  rcases exec_eq_next ht with ⟨-, u, hu, rfl⟩ | ⟨c, u, hc, -, rfl⟩
  · rw [commandBody_withHost hi] at hu
    have hlen : (s.beginCommand.withHost (s.inRest.take (k * unitSize i s)) [] []).inRest.length =
        min (k * unitSize i s) s.inRest.length := List.length_take
    obtain ⟨m, hm, hnil, rfl⟩ := streamLoop_ok_eq_units hn htr (k := k) (by omega) (by omega) (Nat.lt_succ_self _) hu
    obtain ⟨-, hfi, hfo, -⟩ := hm.frame htr
    have hhost : m = m.withHost m.inRest m.failIn m.failOut := rfl
    rw [hnil, hfi, hfo] at hhost
    refine ⟨_, hm.withHost htr (rest := s.inRest) ?_ s.failIn s.failOut, ?_⟩
    · exact (List.take_take.trans (by rw [min_self])).symm
    · rw [State.consume_eq_self (s := m.countInCall) hnil]
      exact congrArg (·.countInCall.complete) hhost
  · exact absurd hok (code_raise_ne_zero hc u)

/-- The run on the bytes of k units alone that can be done from s, with no failure planned. -/
theorem exec_of_unitsDone {i : Instr} (hi : isStream i) {s m : State} (hl : LegalOperands i s) {k : Nat}
    (hm : UnitsDone (unitSize i s) (unitWork i s) k s.beginCommand m) :
    exec i (s.withHost (s.inRest.take (k * unitSize i s)) [] []) = .next (m.withHost [] [] []).countInCall.complete := by
  have htr := unitWork_ignoresIo i s
  have hq := hm.withHost htr (rest := s.inRest.take (k * unitSize i s)) (List.take_take.trans (by rw [min_self]; rfl)) [] []
  rw [List.drop_take_self] at hq
  rw [exec_stream hi hl, hq.runStream_eq (unitSize_pos hi hl) htr (fun _ _ _ => List.not_mem_nil)
    (fun _ _ _ => List.not_mem_nil), streamLoop_end rfl List.not_mem_nil, State.consume_eq_self rfl]
  rfl

/-! ### The settled obligations -/

/-- Where the first planned failure is call number k + 1, none of the k calls before it fails. -/
theorem not_mem_before {plan : List Nat} {k : Nat} (h : ∀ j ∈ plan, 1 ≤ j → k + 1 ≤ j) (j : Nat) (hpos : 0 < j)
    (hle : j ≤ 0 + k) : j ∉ plan := fun hmem => by
  have := h j hmem hpos
  omega

/-- Settles O49: the k units are done alike whatever follows them, and there the next InRead fails where u makes its last. -/
theorem failedInReadKeepsEarlierUnits : Obligations.FailedInReadKeepsEarlierUnits := by
  unfold Obligations.FailedInReadKeepsEarlierUnits
  intro i s u k hi hl hfo hfails hfirst hk hu hok
  have hn := unitSize_pos hi hl
  have htr := unitWork_ignoresIo i s
  have hk' : k * unitSize i s < s.inRest.length + unitSize i s := by
    have := (Nat.le_div_iff_mul_le hn).1 hk
    omega
  change exec i (s.withHost _ [] s.failOut) = _ at hu
  rw [hfo] at hu
  obtain ⟨m, hm, rfl⟩ := unitsDone_of_exec_ok hi hl hk' hu hok
  obtain ⟨hrest, hfailIn, -, hcalls, -⟩ := hm.frame htr
  have hread : m.inCalls + 1 ∈ m.failIn := by
    rw [hfailIn, hcalls, State.beginCommand_inCalls, Nat.zero_add]
    exact hfails
  have hrun : runStream (unitSize i s) (unitWork i s) s.beginCommand = .raised .ioError m.countInCall := by
    rw [hm.runStream_eq hn htr (not_mem_before hfirst) (by simp [hfo]), streamLoop_failedRead hread]
  obtain ⟨hexec, hend, hhost, hdst⟩ := exec_stream_ioError hi hl hrun
  exact ⟨_, hexec, hend, hhost, rfl, rfl, hrest, rfl, rfl, rfl, hdst⟩

/-- Settles O50: the k units before are done as u does them, and unit k + 1 is read and transformed as w does it; then its
OutWrite fails. -/
theorem failedOutWriteKeepsEarlierUnits : Obligations.FailedOutWriteKeepsEarlierUnits := by
  unfold Obligations.FailedOutWriteKeepsEarlierUnits
  intro i s u w k hi hl hfi hfails hfirst hk hu hw hok
  have hn := unitSize_pos hi hl
  have htr := unitWork_ignoresIo i s
  change exec i (s.withHost _ s.failIn []) = _ at hu hw
  rw [hfi] at hu hw
  obtain ⟨m₁, hm₁, rfl⟩ := unitsDone_of_exec_ok hi hl (by rw [Nat.add_one_mul]; omega) hw hok
  obtain ⟨m, v, Y, hm, hread, hwork, rfl⟩ := hm₁.succ_inv
  obtain rfl := Host.Outcome.next.inj ((exec_of_unitsDone hi hl hm).symm.trans hu)
  obtain ⟨-, hfailIn, hfailOut, -, hcalls, hunits⟩ := hm.frame htr
  obtain ⟨hrest, -⟩ := hm₁.frame htr
  have hkept := htr.frame hwork
  have hin : m.inCalls + 1 ∉ m.failIn := by
    rw [hfailIn, State.beginCommand_failIn, hfi]
    exact List.not_mem_nil
  have hwrite : v.outCalls + 1 ∈ v.failOut := by
    rw [← hkept]
    show m.outCalls + 1 ∈ m.failOut
    rw [hfailOut, hcalls, State.beginCommand_outCalls, Nat.zero_add]
    exact hfails
  have hrun : runStream (unitSize i s) (unitWork i s) s.beginCommand =
      .raised .ioError (v.countOutCall.failedUnit m.cnt.flips) := by
    rw [hm.runStream_eq hn htr (by simp [hfi]) (not_mem_before hfirst), streamLoop_failedWrite hin hread hwork hwrite]
  obtain ⟨hexec, hend, hhost, hdst⟩ := exec_stream_ioError hi hl hrun
  have hbytesIn : v.cnt.bytesIn = BitVec.ofNat 64 (min ((k + 1) * unitSize i s) s.inRest.length) := by
    obtain ⟨xs, -, -, hxs, -, hbytes, -⟩ := exec_streamed hexec
    have hlen : s.inRest.length = xs.length + v.inRest.length := (congrArg List.length hxs).trans List.length_append
    have hrest' : v.inRest.length = s.inRest.length - (k + 1) * unitSize i s :=
      (congrArg List.length hrest).trans List.length_drop
    exact hbytes.trans (congrArg _ (by omega))
  have hout : v.out = m.out := by rw [← hkept]; rfl
  have hunits' : v.cnt.units = BitVec.ofNat 64 k := by rw [← hkept]; exact hunits.trans (BitVec.zero_add _)
  have hbytesOut : v.cnt.bytesOut = m.cnt.bytesOut := by rw [← hkept]; rfl
  exact ⟨_, hexec, hend, hhost, hdst, hout, rfl, hrest, rfl, rfl,
    fun hc => onlyTheCorrectorWritesTheClass i s _ hc hexec, hunits', hbytesOut, hbytesIn, rfl,
    fun hquiet => hm.flips (unitWork_flips hquiet s)⟩

end Sys2Proof.Machine
end

section
/-! SUPPORT. The decoder: what it reads in the two fields of a word, each of its three answers, and the encoder as its
inverse. -/

namespace Sys2Proof

/-! ### The fields of a command word (R66) -/

theorem opcodeField_toNat (w : Word) : (opcodeField w).toNat = w.toNat % 2 ^ 8 := by
  rw [opcodeField, BitVec.extractLsb'_toNat, Nat.shiftRight_zero]

theorem rsvdField_eq_zero_iff (w : Word) : rsvdField w = 0#24 ↔ reservedZero w := by
  rw [← BitVec.toNat_inj, rsvdField, BitVec.extractLsb'_toNat, Nat.shiftRight_eq_div_pow, BitVec.toNat_ofNat]
  have := w.isLt
  omega

/-- A word is RSVD above OPCODE. -/
theorem rsvdField_append_opcodeField (w : Word) : rsvdField w ++ opcodeField w = w :=
  BitVec.extractLsb'_append_extractLsb'_eq_extractLsb' rfl |>.trans BitVec.extractLsb'_eq_self

theorem rsvdField_encode (i : Instr) : rsvdField (encode i) = 0#24 := by cases i <;> rfl

theorem opcodeField_encode (i : Instr) : opcodeField (encode i) = opcodeOf i := by cases i <;> rfl

/-! ### The opcode map (R68) -/

/-- The two readings of the opcode map are the same. -/
theorem instrOfOpcode_eq_some_iff {op : BitVec 8} {i : Instr} : instrOfOpcode op = some i ↔ op = opcodeOf i := by
  constructor
  · intro h
    unfold instrOfOpcode at h
    split_ifs at h <;> cases h <;> assumption
  · rintro rfl
    cases i <;> rfl

theorem opcodeAssigned_iff (w : Word) : opcodeAssigned w ↔ ∃ i, instrOfOpcode (opcodeField w) = some i := by
  rw [opcodeAssigned, ← opcodeField_toNat]
  constructor
  · intro h
    have hmap : ∀ n ∈ legalOpcodes, (instrOfOpcode (BitVec.ofNat 8 n)).isSome = true := by decide
    have hsome := hmap _ h
    rw [BitVec.ofNat_toNat, BitVec.setWidth_eq] at hsome
    exact Option.isSome_iff_exists.1 hsome
  · rintro ⟨i, hi⟩
    rw [instrOfOpcode_eq_some_iff.1 hi]
    cases i <;> decide

/-! ### The three answers of the decoder (R66, R69) -/

/-- Everything the decoder can answer. -/
theorem decode_cases (w : Word) :
    (rsvdField w ≠ 0#24 ∧ decode w = .error .reservedNonzero) ∨
      (rsvdField w = 0#24 ∧ instrOfOpcode (opcodeField w) = none ∧ decode w = .error .opcodeUnassigned) ∨
      ∃ i, rsvdField w = 0#24 ∧ instrOfOpcode (opcodeField w) = some i ∧ decode w = .ok i := by
  by_cases hr : rsvdField w = 0#24
  · cases ho : instrOfOpcode (opcodeField w) with
    | none => exact .inr (.inl ⟨hr, rfl, by simp [decode, hr, ho]⟩)
    | some i => exact .inr (.inr ⟨i, hr, rfl, by simp [decode, hr, ho]⟩)
  · exact .inl ⟨hr, by simp [decode, hr]⟩

theorem decode_eq_ok_iff {w : Word} {i : Instr} :
    decode w = .ok i ↔ rsvdField w = 0#24 ∧ instrOfOpcode (opcodeField w) = some i := by
  rcases decode_cases w with ⟨hr, hd⟩ | ⟨hr, ho, hd⟩ | ⟨j, hr, ho, hd⟩
  · simp [hd, hr]
  · simp [hd, ho]
  · simp [hd, hr, ho]

theorem decode_encode (i : Instr) : decode (encode i) = .ok i :=
  decode_eq_ok_iff.2 ⟨rsvdField_encode i, instrOfOpcode_eq_some_iff.2 (opcodeField_encode i)⟩

/-! ### The statements -/

/-- Settles O5: each answer of the decoder says which field is to blame. -/
theorem legalWordsAreTheDecodedOnes : Obligations.LegalWordsAreTheDecodedOnes := by
  unfold Obligations.LegalWordsAreTheDecodedOnes
  intro w
  rw [LegalWord, ← rsvdField_eq_zero_iff, opcodeAssigned_iff]
  rcases decode_cases w with ⟨hr, hd⟩ | ⟨hr, ho, hd⟩ | ⟨i, hr, ho, hd⟩
  · simp [hd, hr]
  · simp [hd, hr, ho]
  · simp [hd, hr, ho]

/-- Settles O6: the decoder reads both fields of an encoding, and a word is determined by its two fields. -/
theorem decodeAndEncodeAgree : Obligations.DecodeAndEncodeAgree := by
  unfold Obligations.DecodeAndEncodeAgree
  refine ⟨fun i _ => decode_encode i, fun w i h => ?_⟩
  obtain ⟨hrsvd, hop⟩ := decode_eq_ok_iff.1 h
  calc encode i = rsvdField w ++ opcodeField w := by rw [hrsvd, instrOfOpcode_eq_some_iff.1 hop, encode]
    _ = w := rsvdField_append_opcodeField w

/-- Settles O7: the first eight words are the encodings of the commands; of the last two one has a bit of RSVD set and the other
an OPCODE that the map does not list. -/
theorem opcodeMapWords : Obligations.OpcodeMapWords := by
  unfold Obligations.OpcodeMapWords
  exact ⟨decode_encode .encb, decode_encode .encs, decode_encode .ilv, decode_encode .corb, decode_encode .decb,
    decode_encode .decs, decode_encode .jamb, decode_encode .jamr, by decide, by decide⟩

end Sys2Proof
end

section
/-! SUPPORT. The pseudo-instructions LOAD and TAKE, as runs of their expansions (R75). -/

namespace Sys2Proof.Machine

/-! ### Runs -/

/-- A run on any machine whose first k steps are known. -/
theorem core_run_add {M : Host.Core} {s t : M.State} {k : Nat} (h : M.run k s = .next t) (j : Nat) :
    M.run (k + j) s = M.run j t := by
  induction k generalizing s with
  | zero =>
    obtain rfl : s = t := Host.Outcome.next.inj h
    rw [Nat.zero_add]
  | succ k ih =>
    rw [Nat.add_right_comm]
    rw [Host.Core.run] at h ⊢
    cases hs : M.step s with
    | next u =>
      rw [hs] at h
      exact ih h
    | fault | refused =>
      rw [hs] at h
      cases h

/-- `core_run_add` on this machine, with its state type written out, so that a rewrite finds it. -/
theorem run_add {s t : State} {k : Nat} (h : Host.Core.run Sys2Proof.core k s = .next t) (j : Nat) :
    Host.Core.run Sys2Proof.core (k + j) s = Host.Core.run Sys2Proof.core j t := core_run_add h j

theorem core_run_one {M : Host.Core} (s : M.State) : M.run 1 s = M.step s := by
  rw [Host.Core.run]
  cases M.step s <;> rfl

/-- `core_run_one` on this machine, likewise. -/
theorem run_one (s : State) : Host.Core.run Sys2Proof.core 1 s = step s := core_run_one (M := Sys2Proof.core) s

/-- A run whose first step is known. -/
theorem run_succ {s t : State} (h : step s = .next t) (k : Nat) :
    Host.Core.run Sys2Proof.core (k + 1) s = Host.Core.run Sys2Proof.core k t := by
  rw [Nat.add_comm, run_add ((run_one s).trans h)]

/-! ### The steps of LOAD -/

/-- The host writes of consecutive bytes of SRC from index i, as LOAD expands to them. -/
theorem run_srcWrites (bytes : List Byte) {i : Nat} {s : State} {rest : List HostOp}
    (h : s.pending = (bytes.zipIdx i).map (fun p => HostOp.srcWrite p.2 p.1) ++ rest)
    (hcap : i + bytes.length ≤ s.params.bufCap) :
    Host.Core.run Sys2Proof.core bytes.length s = .next { s with pending := rest, src := s.src.writeBytes i bytes } := by
  induction bytes generalizing i s with
  | nil =>
    cases s
    cases h
    rfl
  | cons b bs ih =>
    rw [List.length_cons] at hcap ⊢
    have hstep := (step_pending h).trans (if_pos (show i < s.params.bufCap by omega))
    rw [run_succ hstep]
    exact ih rfl (show i + 1 + bs.length ≤ s.params.bufCap by omega)

theorem registerValue_of_lt {n : Nat} (h : n < 2 ^ 32) : registerValue n = BitVec.ofNat 32 n := if_pos h

/-- LOAD of bytes that fit SRC: its expansion, the host writes, and SET SRC_LEN. -/
theorem run_load {s : State} {bytes : List Byte} {rest : List HostOp} (hp : s.params.wf)
    (h : s.pending = .load bytes :: rest) (hcap : bytes.length ≤ s.params.bufCap) :
    Host.Core.run Sys2Proof.core (bytes.length + 2) s =
      .next { s with
        pending := rest, src := s.src.writeBytes 0 bytes
        ops := { s.ops with srcLen := BitVec.ofNat 32 bytes.length } } := by
  obtain ⟨-, hbuf, -⟩ := hp
  have hwrites := run_srcWrites bytes (i := 0) (rest := .set .srcLen bytes.length :: rest)
    (s := ({ s with pending := rest } : State).expandTo (loadOps bytes)) (by simp [loadOps])
    (show 0 + bytes.length ≤ s.params.bufCap by omega)
  rw [run_succ (step_pending h), run_add hwrites, run_one, step_pending rfl, hostStep,
    registerValue_of_lt (by omega)]
  rfl

/-- Settles O14: what SRC reads after the host writes. -/
theorem loadFillsTheOperand : Obligations.LoadFillsTheOperand := by
  unfold Obligations.LoadFillsTheOperand
  intro s bytes rest hp h hcap
  exact ⟨_, run_load hp h hcap, fun i => (Memory.read_writeBytes s.src 0 i bytes).trans (if_pos (Nat.zero_le i))⟩

/-! ### TAKE -/

theorem dstResult_length (s : State) : s.dstResult.length = s.dstLen.toNat := by simp [State.dstResult]

/-- Settles O15: TAKE is the LOAD of the result, which the invariant bounds by BUF_CAP. -/
theorem takeMakesTheResultTheOperand : Obligations.TakeMakesTheResultTheOperand := by
  unfold Obligations.TakeMakesTheResultTheOperand
  intro s rest hs h
  have hload := run_load (s := ({ s with pending := rest } : State).expandTo [.load s.dstResult]) (bytes := s.dstResult)
    (rest := rest) hs.params rfl (dstResult_length s ▸ hs.dstLen)
  have hlen : BitVec.ofNat 32 s.dstResult.length = s.dstLen := by
    rw [dstResult_length, BitVec.ofNat_toNat, BitVec.setWidth_eq]
  rw [hlen, dstResult_length] at hload
  refine ⟨_, (run_succ (step_pending h) _).trans hload, ?_, rfl, rfl, rfl, rfl⟩
  show (s.src.writeBytes 0 s.dstResult).readBytes 0 s.dstLen.toNat = s.dstResult
  rw [← dstResult_length]
  exact Memory.readBytes_writeBytes _ _ _

end Sys2Proof.Machine
end

section
/-! SUPPORT. The pseudo-instruction DILV: the interleave with the swapped group count is the inverse, and how the expansion ends
(R75, R95, R98). -/

namespace Sys2Proof.Machine

/-! ### The inverse interleave (R95) -/

/-- R95: interleaving with 8|S| div g groups undoes interleaving with g groups. -/
theorem interleave_interleave {S : List Byte} {g : Nat} (hd : 8 * S.length % g = 0) :
    interleave (interleave S g) (8 * S.length / g) = S := by
  have hdiv : g ∣ 8 * S.length := Nat.dvd_of_mod_eq_zero hd
  refine buf_ext (by simp) fun a ha => ?_
  rw [interleave_length, interleave_length] at ha
  have hlen : 8 * (interleave S g).length = 8 * S.length := by rw [interleave_length]
  have hq : 0 < 8 * S.length / g := Nat.div_pos (Nat.le_of_dvd (by omega) hdiv) (Nat.pos_of_dvd_of_pos hdiv (by omega))
  have hback : 8 * S.length / (8 * S.length / g) = g := Nat.div_div_self hdiv (by omega)
  have hrow : a / (8 * S.length / g) < g := by
    rw [Nat.div_lt_iff_lt_mul hq, Nat.mul_comm, Nat.div_mul_cancel hdiv]
    exact ha
  have hcol : a % (8 * S.length / g) < 8 * S.length / g := Nat.mod_lt a hq
  have hout := bufBit_interleave (S := interleave S g) (groups := 8 * S.length / g) (i := a % (8 * S.length / g))
    (j := a / (8 * S.length / g)) (by rw [hlen]; exact Nat.mod_eq_zero_of_dvd (Nat.div_dvd_of_dvd hdiv)) hcol
    (by rw [hlen, hback]; exact hrow)
  rw [hlen, hback, bufBit_interleave hd hrow hcol, Nat.div_add_mod'] at hout
  exact hout

/-! ### The steps of DILV -/

/-- The state in which the ILV of DILV g is performed: GROUPS holds the quotient (R75). -/
def State.dilvGroups (s : State) (g : Nat) (rest : List HostOp) : State :=
  ({ s with pending := rest } : State).writeReg .groups (registerValue (8 * s.srcLen / g))

theorem State.groups_dilvGroups {s : State} {g : Nat} {rest : List HostOp} (h : 8 * s.srcLen / g < 2 ^ 32) :
    (s.dilvGroups g rest).groups = 8 * s.srcLen / g := by
  show (registerValue (8 * s.srcLen / g)).toNat = _
  rw [registerValue_of_lt h, toNat_ofNat_of_lt h]

/-- DILV sets GROUPS to the quotient and then performs the ILV of its expansion, which raises for an illegal g. -/
theorem run_dilv {s : State} {g : Nat} {rest : List HostOp} (h : s.pending = .dilv g :: rest) (hg : 1 ≤ g) :
    Host.Core.run Sys2Proof.core 3 s =
      hostStep (if 8 * s.srcLen % g = 0 then .run .ilv else .ilvRaising)
        (s.dilvGroups g rest) := by
  have hexpand : step s = .next (({ s with pending := rest } : State).expandTo (dilvOps s g)) :=
    (step_pending h).trans (if_neg (show g ≠ 0 by omega))
  have hset : step (({ s with pending := rest } : State).expandTo (dilvOps s g)) =
      .next ((s.dilvGroups g rest).expandTo [if 8 * s.srcLen % g = 0 then .run .ilv else .ilvRaising]) := rfl
  rw [run_succ hexpand, run_succ hset, run_one]
  rfl

theorem hostStep_run_ilv (s : State) : hostStep (.run .ilv) s = execIlv (s.issue (encode .ilv)) :=
  writeCmd_legal (decode_encode .ilv) s

/-- A command that completes with a result has it in DST (R51, R70). -/
theorem complete_writeResult {s u : State} {bytes : List Byte} (hst : u.status = s.status) (hd : u.dst = Memory.zeroed)
    (hl : bytes.length < 2 ^ 32) :
    endsOk s (u.writeResult bytes).complete ∧ dstHolds (u.writeResult bytes).complete bytes := by
  refine ⟨⟨code_complete _, ?_, ?_⟩, toNat_ofNat_of_lt hl, dstResult_writeResult hd hl, fun i => read_writeResult_above hd⟩
  · exact (statusSticky_setStatusCode _ _).trans (congrArg statusSticky hst)
  · rw [State.complete_status, setStatusCode_shift, State.writeResult_status, hst]

/-- A command that raises before its body leaves STATUS with the fault and no result (R127, R70). -/
theorem raise_beginCommand {s u : State} (hst : u.status = s.status) (c : Code) :
    endsRaised c.byte s (u.beginCommand.raise c) ∧ dstHolds (u.beginCommand.raise c) [] := by
  have hnone : NoResult (u.beginCommand.raise c) := ⟨rfl, rfl⟩
  refine ⟨⟨statusCode_statusRaised _ _, statusSticky_statusRaised _ _, ?_⟩, hnone.dstHolds_nil⟩
  rw [State.raise_status, statusRaised_shift, State.beginCommand_status, hst]

/-- ILV on legal operands, its result being the interleave (R98). -/
theorem execIlv_legal {s : State} (h : LegalOperands .ilv s) :
    execIlv s = .next (s.beginCommand.writeResult (interleave s.srcOperand s.groups)).complete := by
  rw [execIlv, runCommand_legal ((ilvOperandsLegal_iff s.beginCommand).2 h)]
  rfl

theorem execIlv_illegal {s : State} (h : ¬ LegalOperands .ilv s) : execIlv s = .next (s.beginCommand.raise .configError) :=
  runCommand_illegal (Bool.eq_false_iff.2 (mt (ilvOperandsLegal_iff s.beginCommand).1 h))

/-- Settles O16: for a legal g the quotient is the group count of the inverse interleave, or 0 for an empty operand; for an
illegal one the expansion raises. -/
theorem dilvRestoresTheOriginal : Obligations.DilvRestoresTheOriginal := by
  unfold Obligations.DilvRestoresTheOriginal
  refine ⟨fun s S g rest hp h hcap hS hg hd => ?_, fun s g rest h hg hd => ?_, fun s rest h => step_pending h⟩
  · obtain ⟨-, hbuf, -⟩ := hp
    have hlen : s.srcLen = S.length := by rw [← s.srcOperand_length, hS, interleave_length]
    have hquot : 8 * s.srcLen / g ≤ 8 * s.srcLen := Nat.div_le_self _ _
    rw [← hlen] at hd
    rw [run_dilv h hg, if_pos hd, hostStep_run_ilv]
    have hgroups : ((s.dilvGroups g rest).issue (encode .ilv)).groups = 8 * s.srcLen / g :=
      State.groups_dilvGroups (by omega)
    by_cases hnil : S = []
    · have hillegal : ¬ LegalOperands .ilv ((s.dilvGroups g rest).issue (encode .ilv)) := by
        rintro ⟨-, hpos, -⟩
        simp [hgroups, hlen, hnil] at hpos
      exact ⟨_, execIlv_illegal hillegal, rfl, fun hne => absurd hnil hne, fun _ => (raise_beginCommand rfl .configError).1⟩
    · have hdiv : g ∣ 8 * s.srcLen := Nat.dvd_of_mod_eq_zero hd
      have hpos : 0 < S.length := List.length_pos_iff.2 hnil
      have hlegal : LegalOperands .ilv ((s.dilvGroups g rest).issue (encode .ilv)) :=
        ⟨hcap, hgroups ▸ Nat.div_pos (Nat.le_of_dvd (by omega) hdiv) hg,
          hgroups ▸ Nat.mod_eq_zero_of_dvd (Nat.div_dvd_of_dvd hdiv)⟩
      have hresult : interleave s.srcOperand (8 * s.srcLen / g) = S := by
        rw [hS, hlen, interleave_interleave (hlen ▸ hd)]
      have hexec := execIlv_legal hlegal
      rw [hgroups, show ((s.dilvGroups g rest).issue (encode .ilv)).srcOperand = s.srcOperand from rfl, hresult] at hexec
      exact ⟨_, hexec, rfl, fun _ => complete_writeResult rfl rfl (by omega), fun h0 => absurd h0 hnil⟩
  · rw [run_dilv h hg, if_neg hd]
    obtain ⟨hend, hdst⟩ := raise_beginCommand (s := s) (u := (s.dilvGroups g rest).issue (encode .ilv)) rfl .configError
    exact ⟨_, rfl, rfl, rfl, hend, ⟨rfl, rfl⟩, ⟨rfl, rfl, rfl⟩, hdst, fun hq => State.groups_dilvGroups hq⟩

end Sys2Proof.Machine
end

section
/-! SUPPORT. Two runs of one command from states that agree on what the command reads (R71). -/

namespace Sys2Proof.Machine

/-! ### Parts of two runs -/

/-- Two parts of a command go on with the same value, raise the same fault or stop alike, in states related by R. -/
inductive Res.Both {α : Type} (R : State → State → Prop) : Res α → Res α → Prop
  | ok (a : α) {s u : State} (h : R s u) : Res.Both R (.ok a s) (.ok a u)
  | raised (c : Code) {s u : State} (h : R s u) : Res.Both R (.raised c s) (.raised c u)
  | stuck (f : Fault) : Res.Both R (.stuck f) (.stuck f)

theorem Res.Both.bind {α β : Type} {R : State → State → Prop} {r q : Res α} {f g : α → State → Res β} (h : Res.Both R r q)
    (hf : ∀ a s u, R s u → Res.Both R (f a s) (g a u)) : Res.Both R (r.bind f) (q.bind g) := by
  cases h with
  | ok a h => exact hf a _ _ h
  | raised c h => exact .raised c h
  | stuck e => exact .stuck e

/-- A block is corrected or rejected alike in two states, and classified alike. -/
theorem correctBlock_both {R : State → State → Prop} {B : List Byte} {s u : State}
    (h : R (s.recordClass (classOf (errorAddr B) (parityCheck B)) (errorAddr B))
      (u.recordClass (classOf (errorAddr B) (parityCheck B)) (errorAddr B))) :
    Res.Both R (correctBlock B s) (correctBlock B u) := by
  simp only [correctBlock]
  split_ifs
  · exact .ok _ h
  · exact .raised _ h
  · exact .raised _ h
  · exact .ok _ h

theorem exec_illegal {i : Instr} {s : State} (h : operandsLegal i s.beginCommand = false) :
    exec i s = .next (s.beginCommand.raise .configError) :=
  (exec_eq_runCommand i s).trans (runCommand_illegal h)

theorem exec_legal {i : Instr} {s : State} (h : operandsLegal i s.beginCommand = true) :
    exec i s = finish (commandBody i s.beginCommand) :=
  (exec_eq_runCommand i s).trans (runCommand_legal h)

/-- Two runs of a command that begin related end related and with the same CODE, where completing and raising keep the
relation. -/
theorem exec_both {i : Instr} {R : State → State → Prop} {s u t : State}
    (hlegal : operandsLegal i s.beginCommand = operandsLegal i u.beginCommand)
    (hbegin : operandsLegal i s.beginCommand = false → R s.beginCommand u.beginCommand)
    (hbody : operandsLegal i s.beginCommand = true →
      Res.Both R (commandBody i s.beginCommand) (commandBody i u.beginCommand))
    (hcomplete : ∀ p q, R p q → R p.complete q.complete) (hraise : ∀ p q c, R p q → R (p.raise c) (q.raise c))
    (ht : exec i s = .next t) : ∃ v, exec i u = .next v ∧ v.code = t.code ∧ R t v := by
  cases hl : operandsLegal i s.beginCommand with
  | false =>
    rw [exec_illegal hl] at ht
    cases ht
    exact ⟨_, exec_illegal (hlegal ▸ hl), (statusCode_statusRaised _ _).trans (statusCode_statusRaised _ _).symm,
      hraise _ _ _ (hbegin hl)⟩
  | true =>
    rw [exec_legal hl] at ht
    rw [exec_legal (hlegal ▸ hl)]
    generalize commandBody i s.beginCommand = r, commandBody i u.beginCommand = q at hbody ht
    cases hbody hl with
    | @ok a p q h =>
      cases ht
      exact ⟨q.complete, rfl, (code_complete q).trans (code_complete p).symm, hcomplete _ _ h⟩
    | @raised c p q h =>
      cases ht
      exact ⟨q.raise c, rfl, (statusCode_statusRaised _ _).trans (statusCode_statusRaised _ _).symm, hraise _ _ c h⟩
    | stuck e => cases ht

/-! ### Block commands -/

/-- The result in DST is the same, and where c holds OUTCOME and SYNDROME are. -/
def SameResult (c : Prop) (s u : State) : Prop :=
  s.dst = u.dst ∧ s.dstLen = u.dstLen ∧ (c → s.outcome = u.outcome ∧ s.syndrome = u.syndrome)

theorem SameResult.writeResult {c : Prop} {s u : State} (h : SameResult c s u) (bs : List Byte) :
    SameResult c (s.writeResult bs) (u.writeResult bs) := by
  obtain ⟨hdst, -, hclass⟩ := h
  exact ⟨congrArg (·.writeBytes 0 bs) hdst, rfl, hclass⟩

/-- What R71 lists for a block command is the same in both states. -/
structure SameBlockOperands (i : Instr) (s u : State) : Prop where
  bufCap : s.params.bufCap = u.params.bufCap
  srcLen : s.srcLen = u.srcLen
  operand : s.srcOperand = u.srcOperand
  groups : i = .ilv → s.groups = u.groups
  dsize : i = .decb → s.dsize = u.dsize

theorem SameBlockOperands.operandsLegal {i : Instr} {s u : State} (h : SameBlockOperands i s u) (hi : ¬ isStream i) :
    operandsLegal i s = operandsLegal i u := by
  cases i with
  | encb => simp only [Machine.operandsLegal, encbOperandsLegal, h.bufCap, h.srcLen]
  | ilv => simp only [Machine.operandsLegal, ilvOperandsLegal, h.bufCap, h.srcLen, h.groups rfl]
  | corb => simp only [Machine.operandsLegal, corbOperandsLegal, h.bufCap, h.srcLen]
  | decb => simp only [Machine.operandsLegal, decbOperandsLegal, h.bufCap, h.srcLen, h.dsize rfl]
  | encs | decs | jamb | jamr => exact absurd (by decide) hi

theorem SameBlockOperands.commandBody {i : Instr} {s u : State} (h : SameBlockOperands i s u) (hi : ¬ isStream i)
    (hr : SameResult False s u) : Res.Both (SameResult (i = .corb)) (commandBody i s) (commandBody i u) := by
  obtain ⟨hdst, hlen, -⟩ := hr
  have hsame (hne : i ≠ .corb) (bs : List Byte) : SameResult (i = .corb) (s.writeResult bs) (u.writeResult bs) :=
    SameResult.writeResult ⟨hdst, hlen, fun hc => absurd hc hne⟩ bs
  cases i with
  | encb =>
    simp only [Machine.commandBody, h.operand]
    exact .ok () (hsame (by decide) _)
  | ilv =>
    simp only [Machine.commandBody, h.operand, h.groups rfl]
    exact .ok () (hsame (by decide) _)
  | decb =>
    simp only [Machine.commandBody, h.operand, h.dsize rfl]
    exact .ok () (hsame (by decide) _)
  | corb =>
    simp only [Machine.commandBody, h.operand]
    exact (correctBlock_both ⟨hdst, hlen, fun _ => ⟨rfl, rfl⟩⟩).bind fun B _ _ h => .ok () (h.writeResult B)
  | encs | decs | jamb | jamr => exact absurd (by decide) hi

/-- Settles O25: the body of a block command is a function of the listed operands, and CORB ends with CONFIG_ERROR where it
classifies no block. -/
theorem blockResultsDependOnListedOperands : Obligations.BlockResultsDependOnListedOperands := by
  unfold Obligations.BlockResultsDependOnListedOperands
  intro i s u t hi hcap hlen hop hgroups hdsize ht
  have h : SameBlockOperands i s.beginCommand u.beginCommand :=
    ⟨hcap, congrArg BitVec.toNat hlen, hop, fun hc => congrArg BitVec.toNat (hgroups hc),
      fun hc => congrArg BitVec.toNat (hdsize hc)⟩
  have hbegin {c : Prop} (hc : ¬ c) : SameResult c s.beginCommand u.beginCommand := ⟨rfl, rfl, fun h => absurd h hc⟩
  obtain ⟨v, hv, hcode, hdst, hdstLen, hclass⟩ :=
    exec_both (R := SameResult (i = .corb ∧ operandsLegal i s.beginCommand = true)) (h.operandsLegal hi)
      (fun hl => hbegin (by simp [hl])) (fun hl => by simpa [hl] using h.commandBody hi (hbegin id))
      (fun _ _ h => h) (fun _ _ _ h => h) ht
  refine ⟨v, hv, hcode, hdstLen.symm, fun k => ?_, fun hc hne => ?_⟩
  · rw [State.readDst, State.readDst, hdst, hdstLen]
  · have hl : operandsLegal i s.beginCommand = true := by
      by_contra hl
      rw [exec_illegal (Bool.eq_false_iff.2 hl)] at ht
      cases ht
      exact hne (statusCode_statusRaised _ _)
    obtain ⟨hout, hsyn⟩ := hclass ⟨hc, hl⟩
    exact ⟨hout.symm, hsyn.symm⟩

end Sys2Proof.Machine
end

section
/-! SUPPORT. Two runs of a stream command from states that agree on the listed operands, IN and the environment (R71). -/

namespace Sys2Proof.Machine

/-! ### The listed operands -/

/-- The registers that R71 lists for a stream command hold the same. -/
structure SameStreamOperands (i : Instr) (o p : OperandRegs) : Prop where
  codec : i = .encs ∨ i = .decs → o.dpb = p.dpb ∧ o.groups = p.groups
  noise : isNoise i → o.pNum = p.pNum ∧ o.pDen = p.pDen ∧ o.bufSize = p.bufSize
  burst : i = .jamr → o.maxBurst = p.maxBurst

section
variable {i : Instr} {s u : State}

theorem SameStreamOperands.codecOperands (h : SameStreamOperands i s.ops u.ops) (hi : i = .encs ∨ i = .decs) :
    s.dpb = u.dpb ∧ s.groups = u.groups := by
  simp only [State.dpb, State.groups, h.codec hi, and_self]

theorem SameStreamOperands.noiseOperands (h : SameStreamOperands i s.ops u.ops) (hi : isNoise i) :
    s.pNum = u.pNum ∧ s.pDen = u.pDen ∧ s.bufSize = u.bufSize := by
  simp only [State.pNum, State.pDen, State.bufSize, h.noise hi, and_self]

theorem SameStreamOperands.burstOperand (h : SameStreamOperands .jamr s.ops u.ops) : s.maxBurst = u.maxBurst :=
  congrArg BitVec.toNat (h.burst rfl)

theorem SameStreamOperands.operandsLegal (h : SameStreamOperands i s.ops u.ops) (hi : isStream i)
    (hcap : s.params.frameCap = u.params.frameCap) : operandsLegal i s = operandsLegal i u := by
  have hcodec (hi : i = .encs ∨ i = .decs) : codecStreamOperandsLegal s = codecStreamOperandsLegal u := by
    simp only [codecStreamOperandsLegal, h.codecOperands hi, hcap]
  have hnoise (hi : isNoise i) : jambOperandsLegal s = jambOperandsLegal u := by
    simp only [jambOperandsLegal, h.noiseOperands hi, hcap]
  rcases hi with rfl | rfl | rfl | rfl
  · exact hcodec (by decide)
  · exact hcodec (by decide)
  · exact hnoise (by decide)
  · simp only [Machine.operandsLegal, jamrOperandsLegal, hnoise (by decide), h.burstOperand]

theorem SameStreamOperands.unitSize (h : SameStreamOperands i s.ops u.ops) (hi : isStream i) :
    unitSize i s = unitSize i u := by
  rcases hi with rfl | rfl | rfl | rfl
  · simp only [Machine.unitSize, h.codecOperands (by decide)]
  · simp only [Machine.unitSize, h.codecOperands (by decide)]
  · simp only [Machine.unitSize, h.noiseOperands (by decide)]
  · simp only [Machine.unitSize, h.noiseOperands (by decide)]

theorem SameStreamOperands.unitWork (h : SameStreamOperands i s.ops u.ops) (hi : isStream i) :
    unitWork i s = unitWork i u := by
  rcases hi with rfl | rfl | rfl | rfl
  · simp only [Machine.unitWork, h.codecOperands (by decide)]
  · simp only [Machine.unitWork, h.codecOperands (by decide)]
  · rfl
  · rfl

theorem SameStreamOperands.flipTest (h : SameStreamOperands i s.ops u.ops) (hi : isNoise i) :
    flipTest s = flipTest u := by
  funext w
  simp only [Machine.flipTest, h.noiseOperands hi]

theorem SameStreamOperands.trigger (h : SameStreamOperands .jamr s.ops u.ops) : trigger s = trigger u := by
  funext w
  simp only [Machine.trigger, h.noiseOperands (by decide), h.burstOperand]

end

/-! ### Two runs in step -/

/-- Two runs of the stream command i, begun in s₀ and u₀, are in step: they agree on the listed operands, on what is left of IN
and of the environment's choices and on the counters, they have appended the same bytes to OUT, and where c holds OUTCOME and
SYNDROME are the same. -/
structure InStep (i : Instr) (c : Prop) (s₀ u₀ s u : State) : Prop where
  operands : SameStreamOperands i s.ops u.ops
  cnt : s.cnt = u.cnt
  inRest : s.inRest = u.inRest
  failIn : s.failIn = u.failIn
  failOut : s.failOut = u.failOut
  drawsU : s.drawsU = u.drawsU
  drawsL : s.drawsL = u.drawsL
  inCalls : s.inCalls = u.inCalls
  outCalls : s.outCalls = u.outCalls
  out : ∃ ys, s.out = s₀.out ++ ys ∧ u.out = u₀.out ++ ys
  sameClass : c → s.outcome = u.outcome ∧ s.syndrome = u.syndrome

section
variable {i : Instr} {c : Prop} {s₀ u₀ s u : State}

/-! ### The shared operations -/

theorem InStep.mono {c' : Prop} (h : InStep i c s₀ u₀ s u) (hc : c' → c) : InStep i c' s₀ u₀ s u :=
  { h with sameClass := fun h' => h.sameClass (hc h') }

theorem InStep.countInCall (h : InStep i c s₀ u₀ s u) : InStep i c s₀ u₀ s.countInCall u.countInCall :=
  { h with inCalls := congrArg (· + 1) h.inCalls }

theorem InStep.countOutCall (h : InStep i c s₀ u₀ s u) : InStep i c s₀ u₀ s.countOutCall u.countOutCall :=
  { h with outCalls := congrArg (· + 1) h.outCalls }

theorem InStep.consume (h : InStep i c s₀ u₀ s u) (n : Nat) : InStep i c s₀ u₀ (s.consume n) (u.consume n) :=
  { h with
    cnt := by rw [State.consume_cnt, State.consume_cnt, h.cnt, h.inRest]
    inRest := congrArg (·.drop n) h.inRest }

theorem InStep.emit (h : InStep i c s₀ u₀ s u) (bs : List Byte) : InStep i c s₀ u₀ (s.emit bs) (u.emit bs) :=
  { h with
    cnt := by rw [State.emit_cnt, State.emit_cnt, h.cnt]
    out := by
      obtain ⟨ys, hs, hu⟩ := h.out
      exact ⟨ys ++ bs, by rw [State.emit_out, hs, List.append_assoc], by rw [State.emit_out, hu, List.append_assoc]⟩ }

theorem InStep.failedUnit (h : InStep i c s₀ u₀ s u) (f : DWord) : InStep i c s₀ u₀ (s.failedUnit f) (u.failedUnit f) :=
  { h with cnt := by rw [State.failedUnit_cnt, State.failedUnit_cnt, h.cnt] }

theorem InStep.countUnit (h : InStep i c s₀ u₀ s u) : InStep i c s₀ u₀ s.countUnit u.countUnit :=
  { h with cnt := by rw [State.countUnit_cnt, State.countUnit_cnt, h.cnt] }

theorem InStep.countFlip (h : InStep i c s₀ u₀ s u) : InStep i c s₀ u₀ s.countFlip u.countFlip :=
  { h with cnt := by rw [State.countFlip_cnt, State.countFlip_cnt, h.cnt] }

/-- After a block both runs have recorded the same class. -/
theorem InStep.recordClass (h : InStep i c s₀ u₀ s u) (k : BlockClass) (e : Nat) (c' : Prop) :
    InStep i c' s₀ u₀ (s.recordClass k e) (u.recordClass k e) :=
  { h with sameClass := fun _ => ⟨rfl, rfl⟩ }

theorem InStep.complete (h : InStep i c s₀ u₀ s u) : InStep i c s₀ u₀ s.complete u.complete :=
  { h with failIn := rfl, failOut := rfl, drawsU := rfl, drawsL := rfl, inCalls := rfl, outCalls := rfl }

theorem InStep.raise (h : InStep i c s₀ u₀ s u) (f : Code) : InStep i c s₀ u₀ (s.raise f) (u.raise f) :=
  { h with failIn := rfl, failOut := rfl, drawsU := rfl, drawsL := rfl, inCalls := rfl, outCalls := rfl }

theorem InStep.drawU32 (h : InStep i c s₀ u₀ s u) : Res.Both (InStep i c s₀ u₀) (drawU32 s) (drawU32 u) := by
  unfold Machine.drawU32
  rw [h.drawsU]
  cases u.drawsU with
  | nil => exact .stuck _
  | cons w ws => exact .ok w { h with drawsU := rfl }

theorem InStep.drawLen (h : InStep i c s₀ u₀ s u) (m : Nat) :
    Res.Both (InStep i c s₀ u₀) (drawLen m s) (drawLen m u) := by
  unfold Machine.drawLen
  rw [h.drawsL]
  cases u.drawsL with
  | nil => exact .stuck _
  | cons l ls =>
    by_cases hl : l < m
    · simp only [if_pos hl]
      exact .ok l { h with drawsL := rfl }
    · simp only [if_neg hl]
      exact .stuck _

theorem InStep.writeUnit (h : InStep i c s₀ u₀ s u) (before : DWord) (bs : List Byte) :
    Res.Both (InStep i c s₀ u₀) (writeUnit before bs s) (writeUnit before bs u) := by
  have hplan : u.outCalls + 1 ∈ u.failOut ↔ s.outCalls + 1 ∈ s.failOut := by rw [h.outCalls, h.failOut]
  rcases writeUnit_cases before bs s with ⟨hfails, hs⟩ | ⟨hgoes, hs⟩ <;>
    rcases writeUnit_cases before bs u with ⟨hu', hu⟩ | ⟨hu', hu⟩ <;> rw [hs, hu]
  · exact .raised _ (h.countOutCall.failedUnit before)
  · exact absurd (hplan.2 hfails) hu'
  · exact absurd (hplan.1 hu') hgoes
  · exact .ok () (h.countOutCall.emit bs)

/-! ### The work on one unit -/

theorem frameBlocks_ne_nil {g : Nat} (h : 1 ≤ g) (Fr : List Byte) (cs : Nat) : frameBlocks Fr cs g ≠ [] := by
  simpa [frameBlocks] using Nat.ne_of_gt h

/-- A frame is decoded alike; where it has a block, the runs agree on OUTCOME and SYNDROME from then on. -/
theorem InStep.decodeBlocks {c' : Prop} (d : Nat) {Bs : List (List Byte)} (h : InStep i c s₀ u₀ s u)
    (hc : c' → c ∨ Bs ≠ []) : Res.Both (InStep i c' s₀ u₀) (decodeBlocks d Bs s) (decodeBlocks d Bs u) := by
  induction Bs generalizing c s u with
  | nil => exact .ok [] (h.mono fun h' => (hc h').resolve_right fun hne => hne rfl)
  | cons B Bs ih =>
    refine (correctBlock_both (h.recordClass _ _ c')).bind fun C _ _ hC => ?_
    exact (ih hC .inl).bind fun rest _ _ hrest => .ok _ hrest

theorem InStep.decodeUnit {c' : Prop} {d g : Nat} {X : List Byte} (h : InStep i c s₀ u₀ s u)
    (hc : c' → c ∨ (frameSize d g ≤ X.length ∧ 1 ≤ g)) :
    Res.Both (InStep i c' s₀ u₀) (decodeUnit d g X s) (decodeUnit d g X u) := by
  unfold Machine.decodeUnit
  by_cases hX : X.length < frameSize d g
  · rw [if_pos hX, if_pos hX]
    exact .raised _ (h.mono fun h' => (hc h').resolve_right fun hw => by omega)
  · rw [if_neg hX, if_neg hX]
    exact h.decodeBlocks d fun h' => (hc h').imp_right fun hw => frameBlocks_ne_nil hw.2 _ _

theorem InStep.jamBits (hi : isNoise i) (as : List Nat) (Y : List Byte) (h : InStep i c s₀ u₀ s u) :
    Res.Both (InStep i c s₀ u₀) (jamBits as Y s) (jamBits as Y u) := by
  induction as generalizing Y s u with
  | nil => exact .ok Y h
  | cons a as ih =>
    refine h.drawU32.bind fun w p q hpq => ?_
    rw [hpq.operands.flipTest hi]
    split
    · exact ih _ hpq.countFlip
    · exact ih _ hpq

theorem InStep.flipRun (as : List Nat) (Y : List Byte) (h : InStep i c s₀ u₀ s u) :
    (flipRun as Y s).1 = (flipRun as Y u).1 ∧ InStep i c s₀ u₀ (flipRun as Y s).2 (flipRun as Y u).2 := by
  induction as generalizing Y s u with
  | nil => exact ⟨rfl, h⟩
  | cons a as ih => exact ih _ h.countFlip

theorem InStep.jamBurst (N fuel cur : Nat) (Y : List Byte) (h : InStep .jamr c s₀ u₀ s u) :
    Res.Both (InStep .jamr c s₀ u₀) (jamBurst N fuel cur Y s) (jamBurst N fuel cur Y u) := by
  induction fuel generalizing cur Y s u with
  | zero => exact .ok Y h
  | succ fuel ih =>
    rw [Machine.jamBurst, Machine.jamBurst]
    split
    · refine h.drawU32.bind fun w p q hpq => ?_
      rw [hpq.operands.trigger, hpq.operands.burstOperand]
      split
      · refine (hpq.drawLen _).bind fun L p q hpq => ?_
        obtain ⟨hbuf, hrun⟩ := hpq.flipRun (addrs cur (min (cur + L) N)) Y
        rw [hbuf]
        exact ih _ _ hrun
      · exact ih _ _ hpq
    · exact .ok Y h

/-- A unit is worked on alike; where it is a whole frame of DECS, the runs agree on OUTCOME and SYNDROME from then on. -/
theorem InStep.unitWork {c' : Prop} (r : State) {X : List Byte} (h : InStep i c s₀ u₀ s u)
    (hc : c' → c ∨ (i = .decs ∧ frameSize r.dpb r.groups ≤ X.length ∧ 1 ≤ r.groups)) :
    Res.Both (InStep i c' s₀ u₀) (unitWork i r X s) (unitWork i r X u) := by
  have hkeep (hi : i ≠ .decs) : InStep i c' s₀ u₀ s u := h.mono fun h' => (hc h').resolve_right fun hw => hi hw.1
  cases i with
  | decs => exact h.decodeUnit fun h' => (hc h').imp_right And.right
  | jamb => exact (hkeep (by decide)).jamBits (by decide) _ X
  | jamr => exact (hkeep (by decide)).jamBurst _ _ 0 X
  | encs | encb | ilv | corb | decb => exact .ok _ (hkeep (by decide))

/-! ### The whole stream -/

/-- DECS from s, with the operands of r, reads a whole frame first. -/
def ReadsFrame (r s : State) : Prop :=
  s.inCalls + 1 ∉ s.failIn ∧ frameSize r.dpb r.groups ≤ s.inRest.length ∧ 1 ≤ r.groups

/-- The loop runs alike; where it is one of DECS that reads a whole frame first, it ends with the same OUTCOME and SYNDROME. -/
theorem InStep.streamLoop {c' : Prop} (r : State) (fuel : Nat) (h : InStep i c s₀ u₀ s u)
    (hc : c' → c ∨ (i = .decs ∧ 0 < fuel ∧ ReadsFrame r s)) :
    Res.Both (InStep i c' s₀ u₀) (streamLoop (unitSize i r) (Machine.unitWork i r) fuel s)
      (streamLoop (unitSize i r) (Machine.unitWork i r) fuel u) := by
  induction fuel generalizing c s u with
  | zero => exact .ok () (h.mono fun h' => (hc h').resolve_right fun hw => by omega)
  | succ fuel ih =>
    by_cases hin : s.inCalls + 1 ∈ s.failIn
    · have hin' : u.inCalls + 1 ∈ u.failIn := by rwa [← h.inCalls, ← h.failIn]
      rw [streamLoop_failedRead hin, streamLoop_failedRead hin']
      refine .raised _ (h.countInCall.mono fun h' => (hc h').resolve_right ?_)
      rintro ⟨-, -, hgoes, -⟩
      exact hgoes hin
    · have hin' : u.inCalls + 1 ∉ u.failIn := by rwa [← h.inCalls, ← h.failIn]
      rw [streamLoop_read hin, streamLoop_read hin', ← h.inRest, ← h.cnt]
      have hread := h.countInCall.consume (unitSize i r)
      have hwhole (hw : i = .decs ∧ 0 < fuel + 1 ∧ ReadsFrame r s) :
          i = .decs ∧ frameSize r.dpb r.groups ≤ (s.inRest.take (unitSize i r)).length ∧ 1 ≤ r.groups := by
        obtain ⟨rfl, -, -, hlen, hg⟩ := hw
        refine ⟨rfl, ?_, hg⟩
        rw [List.length_take]
        exact Nat.le_min.2 ⟨le_rfl, hlen⟩
      by_cases hnil : s.inRest.take (unitSize i r) = []
      · rw [if_pos hnil, if_pos hnil]
        refine .ok () (hread.mono fun h' => (hc h').resolve_right fun hw => ?_)
        obtain ⟨-, hlen, hg⟩ := hwhole hw
        have hpos : 0 < frameSize r.dpb r.groups := Nat.mul_pos (codeSize_pos _) hg
        rw [hnil, List.length_nil] at hlen
        omega
      · rw [if_neg hnil, if_neg hnil]
        refine (hread.unitWork r fun h' => (hc h').imp_right hwhole).bind fun Y _ _ hY => ?_
        exact (hY.writeUnit _ Y).bind fun _ _ _ hwritten => ih hwritten.countUnit .inl

/-- The body of a stream command runs alike. -/
theorem InStep.commandBody {c' : Prop} (hi : isStream i) (h : InStep i c s₀ u₀ s u)
    (hc : c' → c ∨ (i = .decs ∧ ReadsFrame s s)) :
    Res.Both (InStep i c' s₀ u₀) (commandBody i s) (commandBody i u) := by
  rw [commandBody_stream hi, commandBody_stream hi, ← h.operands.unitSize hi, ← h.operands.unitWork hi, runStream, runStream,
    ← h.inRest]
  exact h.streamLoop s _ fun h' => (hc h').imp_right fun ⟨hd, hw⟩ => ⟨hd, Nat.succ_pos _, hw⟩

/-- DECS that reads no whole frame classifies no block: the read fails, is empty, or is a truncated frame (R53, R57, R125). -/
theorem decs_runStream_keepsClass {d g : Nat} {s : State}
    (h : ¬ (s.inCalls + 1 ∉ s.failIn ∧ frameSize d g ≤ s.inRest.length)) :
    (runStream (frameSize d g) (decodeUnit d g) s).All (keepsClass s) := by
  have hsame : keepsClass s s := ⟨rfl, rfl⟩
  unfold runStream
  by_cases hin : s.inCalls + 1 ∈ s.failIn
  · rw [streamLoop_failedRead hin]
    exact hsame
  · have hshort : (s.inRest.take (frameSize d g)).length < frameSize d g := by
      rw [List.length_take]
      have : ¬ frameSize d g ≤ s.inRest.length := fun hlen => h ⟨hin, hlen⟩
      omega
    rw [streamLoop_read hin]
    split
    · exact hsame
    · rw [Machine.decodeUnit, if_pos hshort]
      exact hsame

/-- DECS with legal operands reads a whole frame first, so it classifies a block. -/
def DecsClassifies (s : State) : Prop :=
  LegalOperands .decs s ∧ 1 ∉ s.failIn ∧ frameSize s.dpb s.groups ≤ s.inRest.length

/-- DECS leaves OUTCOME and SYNDROME alone where its operands are illegal or it reads no whole frame. -/
theorem decs_keepsClass {s t : State} (ht : exec .decs s = .next t) (h : ¬ DecsClassifies s) : keepsClass s t := by
  rw [exec_eq_runCommand] at ht
  rcases runCommand_eq_next ht with ⟨-, rfl⟩ | ⟨hl, hend⟩
  · exact ⟨rfl, rfl⟩
  · have hbody : (commandBody .decs s.beginCommand).All (keepsClass s) :=
      decs_runStream_keepsClass (s := s.beginCommand) fun hw => h ⟨(operandsLegal_iff .decs _).1 hl, hw⟩
    rcases hend with ⟨u, hu, rfl⟩ | ⟨f, u, hu, rfl⟩ <;> rw [hu] at hbody <;> exact hbody

end

/-- Two runs begin in step where the states agree on what R71 lists. -/
theorem InStep.beginCommand {i : Instr} {s u : State} (hops : SameStreamOperands i s.ops u.ops)
    (hin : s.inRest = u.inRest) (hfi : s.failIn = u.failIn) (hfo : s.failOut = u.failOut) (hu : s.drawsU = u.drawsU)
    (hl : s.drawsL = u.drawsL) : InStep i False s u s.beginCommand u.beginCommand where
  operands := hops
  cnt := rfl
  inRest := hin
  failIn := hfi
  failOut := hfo
  drawsU := hu
  drawsL := hl
  inCalls := rfl
  outCalls := rfl
  out := ⟨[], (List.append_nil _).symm, (List.append_nil _).symm⟩
  sameClass := False.elim

/-- Settles O26: the two runs are in step from beginning to end, and from the first whole frame of DECS on they agree on OUTCOME
and SYNDROME. -/
theorem streamResultsDependOnListedOperands : Obligations.StreamResultsDependOnListedOperands := by
  unfold Obligations.StreamResultsDependOnListedOperands
  intro i s u t hi hcap hcodec hnoise hburst hin hfi hfo hdu hdl ht
  have hops : SameStreamOperands i s.ops u.ops := ⟨hcodec, hnoise, hburst⟩
  have hbegin := InStep.beginCommand hops hin hfi hfo hdu hdl
  have hlegal : operandsLegal i s.beginCommand = operandsLegal i u.beginCommand := hbegin.operands.operandsLegal hi hcap
  have hillegal (hl : operandsLegal i s.beginCommand = false) : ¬ (i = .decs ∧ DecsClassifies s) := by
    rintro ⟨rfl, hw, -⟩
    exact absurd ((operandsLegal_iff .decs s).2 hw) (Bool.eq_false_iff.1 hl)
  have hreads : i = .decs ∧ DecsClassifies s →
      False ∨ (i = .decs ∧ ReadsFrame s.beginCommand s.beginCommand) := by
    rintro ⟨rfl, ⟨-, hg, -⟩, hgoes, hlen⟩
    exact .inr ⟨rfl, hgoes, hlen, hg⟩
  obtain ⟨v, hv, hcode, hstep⟩ := exec_both (R := InStep i (i = .decs ∧ DecsClassifies s) s u) hlegal
    (fun hl => hbegin.mono (hillegal hl)) (fun _ => hbegin.commandBody hi hreads) (fun _ _ h => h.complete)
    (fun _ _ f h => h.raise f) ht
  obtain ⟨ys, hout, hout'⟩ := hstep.out
  refine ⟨v, ys, hv, hcode, hstep.cnt.symm, hstep.inRest.symm, hout, hout', ?_⟩
  rintro rfl
  refine ⟨fun hw => ?_, fun hno => ⟨decs_keepsClass ht hno, decs_keepsClass hv fun hw => hno ?_⟩⟩
  · obtain ⟨houtcome, hsyndrome⟩ := hstep.sameClass ⟨rfl, hw⟩
    exact ⟨houtcome.symm, hsyndrome.symm⟩
  · obtain ⟨hl, hgoes, hlen⟩ := hw
    obtain ⟨hd, hg⟩ := hops.codecOperands (.inr rfl)
    refine ⟨(operandsLegal_iff .decs s).1 ?_, hfi ▸ hgoes, ?_⟩
    · exact hlegal.trans ((operandsLegal_iff .decs u).2 hl)
    · rw [hd, hg, hin]
      exact hlen

end Sys2Proof.Machine
end

section
/-! SUPPORT. The layout of a Code Block: the addresses below its end are 0, the parity positions and the data positions, so an
admitted size has one data position for each data bit (R79, R81). -/

namespace Sys2Proof.Machine

/-! ### The addresses of a block -/

/-- Below T the powers of two are 2^0 to 2^(r − 1). -/
def PowersBelow (T r : Nat) : Prop := ∀ k, 2 ^ k < T ↔ k < r

/-- A parity position is no data position (R79). -/
theorem two_pow_not_mem_dataPositions (T k : Nat) : 2 ^ k ∉ dataPositions T := fun h =>
  Bool.eq_false_iff.1 (mem_dataPositions.1 h).2.2 (isPow2_iff.2 ⟨k, rfl⟩)

/-- The addresses 1 to T − 1 are the powers of two and the data positions (R79). -/
theorem addrs_perm_positions {T r : Nat} (h : PowersBelow T r) :
    (addrs 1 T).Perm ((List.range r).map (2 ^ ·) ++ dataPositions T) := by
  have hpowers : ((List.range r).map (2 ^ ·)).Nodup := List.nodup_range.map (Nat.pow_right_injective (le_refl 2))
  have hdisjoint : ((List.range r).map (2 ^ ·)).Disjoint (dataPositions T) := by
    intro a ha ha'
    obtain ⟨k, -, rfl⟩ := List.mem_map.1 ha
    exact two_pow_not_mem_dataPositions T k ha'
  refine (List.perm_ext_iff_of_nodup (addrs_nodup 1 T) (hpowers.append (dataPositions_nodup T) hdisjoint)).2 fun a => ?_
  rw [mem_addrs, List.mem_append, mem_dataPositions, List.mem_map]
  constructor
  · rintro ⟨h1, hT⟩
    cases hpow : isPow2 a with
    | true =>
      obtain ⟨k, rfl⟩ := isPow2_iff.1 hpow
      exact .inl ⟨k, List.mem_range.2 ((h k).1 hT), rfl⟩
    | false =>
      have ha1 : a ≠ 1 := fun e => Bool.eq_false_iff.1 hpow (isPow2_iff.2 ⟨0, e⟩)
      have ha2 : a ≠ 2 := fun e => Bool.eq_false_iff.1 hpow (isPow2_iff.2 ⟨1, e⟩)
      exact .inr ⟨by omega, hT, rfl⟩
  · rintro (⟨k, hk, rfl⟩ | ⟨h3, hT, -⟩)
    · exact ⟨Nat.two_pow_pos k, (h k).2 (List.mem_range.1 hk)⟩
    · exact ⟨by omega, hT⟩

theorem dataPositions_length {T r : Nat} (h : PowersBelow T r) : r + (dataPositions T).length = T - 1 := by
  simpa using (addrs_perm_positions h).length_eq.symm

/-! ### Sizes (R76, R77, R81) -/

/-- An admitted block has its parity positions below its end, and no other power of two (R83). -/
theorem admitted_powersBelow {d : Nat} (h : admittedSize d) : PowersBelow (totalBits d) (parityBits d) := by
  obtain ⟨hd, hroom⟩ := h
  refine fun k => ⟨fun hk => ?_, parityPosition_lt hd⟩
  by_contra hge
  have : 2 ^ parityBits d ≤ 2 ^ k := Nat.pow_le_pow_right (by omega) (by omega)
  unfold totalBits at hk
  omega

/-- What a deficient layout is short of: one more power of two lies below its end (R81). -/
theorem deficient_powersBelow {d : Nat} (h : deficient d = true) : PowersBelow (totalBits d) (parityBits d + 1) := by
  simp only [deficient, Bool.and_eq_true, decide_eq_true_eq] at h
  obtain ⟨hd, hfull⟩ := h
  have hbits : d < 2 ^ bitLength d := (bitLength_le_iff d _).1 (le_refl _)
  have hself : bitLength d < 2 ^ bitLength d := Nat.lt_two_pow_self
  refine fun k => ⟨fun hk => ?_, fun hk => ?_⟩
  · by_contra hge
    have : 2 ^ (parityBits d + 1) ≤ 2 ^ k := Nat.pow_le_pow_right (by omega) (by omega)
    have : 2 ^ (parityBits d + 1) = 2 ^ bitLength d * 16 := by rw [parityBits, Nat.pow_succ, Nat.pow_add]; omega
    unfold totalBits parityBits at hk
    omega
  · have : 2 ^ k ≤ 2 ^ parityBits d := Nat.pow_le_pow_right (by omega) (by omega)
    unfold totalBits
    omega

theorem dataPositions_length_of_admitted {d : Nat} (h : admittedSize d) : (dataPositions (totalBits d)).length = 8 * d := by
  have := dataPositions_length (admitted_powersBelow h)
  unfold totalBits at this ⊢
  omega

/-- Settles O27: the positions of a block are counted by taking the powers of two below its end from the addresses. -/
theorem dataPositionsOfALayout : Obligations.DataPositionsOfALayout := by
  unfold Obligations.DataPositionsOfALayout
  refine ⟨fun d h => ⟨(deficient_eq_false_iff h.1).2 h.2, dataPositions_length_of_admitted h⟩, fun d h => ?_, ?_⟩
  · have := dataPositions_length (deficient_powersBelow h)
    unfold totalBits at this ⊢
    omega
  · rintro d b m hd rfl hm
    have hpow : 2 ^ (bitLength d + 3) = 2 ^ bitLength d * 8 := Nat.pow_add 2 _ 3
    simp only [deficient, parityBits, Bool.and_eq_true, decide_eq_true_eq, hd, true_and, hpow]
    omega

end Sys2Proof.Machine
end

section
/-! SUPPORT. What EncodeBlock returns, bit by bit: the data bits stand at the data positions, and each later loop of R84 writes
parity positions only, so the parity groups stay those of the data (R79, R84 to R86). -/

namespace Sys2Proof.Machine

/-! ### The three parts of EncodeBlock (R84) -/

theorem placements_in (D : List Byte) :
    ∀ w ∈ (dataPositions (totalBits D.length)).zipIdx.map fun p => (p.1, bufBit D p.2),
      w.1 < 8 * (zeros (codeSize D.length)).length := by
  intro w hw
  obtain ⟨p, hp, rfl⟩ := List.mem_map.1 hw
  have hlt := (mem_dataPositions.1 (List.fst_mem_of_mem_zipIdx hp)).2.1
  rw [zeros_length]
  exact lt_of_lt_of_le hlt (codeSize_bounds D.length).1

theorem placements_fst (D : List Byte) :
    ((dataPositions (totalBits D.length)).zipIdx.map fun p => (p.1, bufBit D p.2)).map Prod.fst =
      dataPositions (totalBits D.length) := by
  rw [List.map_map]
  exact List.zipIdx_map_fst 0 _

/-- The n-th data position of the placed block holds data bit n. -/
theorem bufBit_placeData {D : List Byte} {n a : Nat} (h : (dataPositions (totalBits D.length))[n]? = some a) :
    bufBit (placeData D) a = bufBit D n :=
  bufBit_bufSetAll_mem (placements_in D) (by rw [placements_fst]; exact dataPositions_nodup _)
    (List.mem_map.2 ⟨(a, n), List.mem_zipIdx_iff_getElem?.2 h, rfl⟩)

theorem bufBit_placeData_of_not_mem {D : List Byte} {a : Nat} (h : a ∉ dataPositions (totalBits D.length)) :
    bufBit (placeData D) a = false := by
  rw [placeData, bufBit_bufSetAll_not_mem (placements_in D) (by rwa [placements_fst]), bufBit_zeros]

/-- A parity group is a group of data bits. -/
theorem groupParity_congr {B C : List Byte} {T : Nat} (h : ∀ a ∈ dataPositions T, bufBit B a = bufBit C a) (k : Nat) :
    groupParity B T k = groupParity C T k :=
  congrArg xorBits (List.map_congr_left fun a ha => h a (List.mem_of_mem_filter ha))

theorem addGroupParities_succ (C : List Byte) (T r : Nat) :
    addGroupParities C T (r + 1) =
      if groupParity (addGroupParities C T r) T r then bufSet (addGroupParities C T r) (2 ^ r) true
      else addGroupParities C T r := by
  unfold addGroupParities
  rw [List.range_succ, List.foldl_append]
  rfl

/-- The loop over the parity bits writes powers of two only. -/
theorem bufBit_addGroupParities_of_ne {C : List Byte} {T r a : Nat} (hr : ∀ k < r, 2 ^ k < 8 * C.length)
    (ha : ∀ k < r, a ≠ 2 ^ k) : bufBit (addGroupParities C T r) a = bufBit C a := by
  induction r with
  | zero => rfl
  | succ r ih =>
    have hrest := ih (fun k hk => hr k (by omega)) fun k hk => ha k (by omega)
    rw [addGroupParities_succ]
    split
    · rw [bufBit_bufSet true (by simpa using hr r (by omega)), if_neg (ha r (by omega)), hrest]
    · exact hrest

theorem groupParity_addGroupParities {C : List Byte} {T r : Nat} (hr : ∀ k < r, 2 ^ k < 8 * C.length) (k : Nat) :
    groupParity (addGroupParities C T r) T k = groupParity C T k :=
  groupParity_congr (fun _ ha => bufBit_addGroupParities_of_ne hr fun j _ e =>
    two_pow_not_mem_dataPositions T j (e ▸ ha)) k

/-- Where the parity positions are 0 before the loop, each holds the parity of its group after it. -/
theorem bufBit_addGroupParities {C : List Byte} {T r : Nat} (hr : ∀ k < r, 2 ^ k < 8 * C.length)
    (h0 : ∀ k < r, bufBit C (2 ^ k) = false) {k : Nat} (hk : k < r) :
    bufBit (addGroupParities C T r) (2 ^ k) = groupParity C T k := by
  induction r with
  | zero => omega
  | succ r ih =>
    have hr' : ∀ k < r, 2 ^ k < 8 * C.length := fun k hk => hr k (by omega)
    have hparity := groupParity_addGroupParities (T := T) hr' r
    rw [addGroupParities_succ, hparity]
    rcases Nat.lt_succ_iff_lt_or_eq.1 hk with hlt | rfl
    · have hrest := ih hr' (fun k hk => h0 k (by omega)) hlt
      have hne : 2 ^ k ≠ 2 ^ r := (Nat.pow_lt_pow_right (by omega) hlt).ne
      split
      · rw [bufBit_bufSet true (by simpa using hr r (by omega)), if_neg hne, hrest]
      · exact hrest
    · cases groupParity C T k with
      | true =>
        rw [if_pos rfl, bufBit_bufSet true (by simpa using hr k hk), if_pos rfl]
      | false =>
        rw [if_neg Bool.false_ne_true,
          bufBit_addGroupParities_of_ne hr' fun j hj => (Nat.pow_lt_pow_right (by omega) hj).ne', h0 k hk]

/-- Writing the extended parity bit leaves every other bit. -/
theorem bufBit_addExtendedParity {C : List Byte} (hC : 0 < C.length) (T a : Nat) :
    bufBit (addExtendedParity C T) a = if a = 0 then xorBits ((addrs 1 T).map (bufBit C)) else bufBit C a :=
  bufBit_bufSet _ (by omega) a

/-! ### The Code Block -/

/-- The block before its extended parity bit is written. -/
def hammingBlock (D : List Byte) : List Byte :=
  addGroupParities (placeData D) (totalBits D.length) (parityBits D.length)

/-- What EncodeBlock returns is that block with the extended parity bit at address 0 (R84). -/
theorem bufBit_encodeBlock (D : List Byte) (a : Nat) :
    bufBit (encodeBlock D) a =
      if a = 0 then xorBits ((addrs 1 (totalBits D.length)).map (bufBit (hammingBlock D))) else bufBit (hammingBlock D) a := by
  refine bufBit_addExtendedParity ?_ _ a
  rw [addGroupParities_length, placeData_length]
  exact codeSize_pos D.length

section
variable {D : List Byte} (hD : 1 ≤ D.length)
include hD

/-- The parity positions lie in the block (R83). -/
theorem parityPosition_in_block : ∀ k < parityBits D.length, 2 ^ k < 8 * (placeData D).length := fun k hk => by
  rw [placeData_length]
  exact lt_of_lt_of_le (parityPosition_lt hD hk) (codeSize_bounds D.length).1

/-- Away from the parity bits the block is as the data were placed. -/
theorem bufBit_encodeBlock_of_ne {a : Nat} (h0 : a ≠ 0) (hne : ∀ k < parityBits D.length, a ≠ 2 ^ k) :
    bufBit (encodeBlock D) a = bufBit (placeData D) a := by
  rw [bufBit_encodeBlock, if_neg h0, hammingBlock, bufBit_addGroupParities_of_ne (parityPosition_in_block hD) hne]

theorem bufBit_encodeBlock_of_mem {a : Nat} (ha : a ∈ dataPositions (totalBits D.length)) :
    bufBit (encodeBlock D) a = bufBit (placeData D) a := by
  have h3 := (mem_dataPositions.1 ha).1
  exact bufBit_encodeBlock_of_ne hD (by omega) fun k _ e => two_pow_not_mem_dataPositions _ k (e ▸ ha)

/-- EncodeBlock returns the Code Block of its data, for deficient sizes too. -/
theorem isCodeBlock_encodeBlock : IsCodeBlock D (encodeBlock D) where
  length := encodeBlock_length D
  data n a h := by rw [bufBit_encodeBlock_of_mem hD (List.mem_of_getElem? h), bufBit_placeData h]
  parity k hk := by
    have hzero : ∀ j < parityBits D.length, bufBit (placeData D) (2 ^ j) = false := fun j _ =>
      bufBit_placeData_of_not_mem (two_pow_not_mem_dataPositions _ j)
    rw [bufBit_encodeBlock, if_neg (Nat.two_pow_pos k).ne', hammingBlock,
      bufBit_addGroupParities (parityPosition_in_block hD) hzero hk]
    exact (groupParity_congr (fun a => bufBit_encodeBlock_of_mem hD) k).symm
  extended := by
    rw [bufBit_encodeBlock, if_pos rfl]
    refine congrArg xorBits (List.map_congr_left fun a ha => ?_)
    have h1 := (mem_addrs.1 ha).1
    rw [bufBit_encodeBlock, if_neg (by omega)]
  padding a hT _ := by
    have hpos : 0 < totalBits D.length := Nat.succ_pos _
    rw [bufBit_encodeBlock_of_ne hD (by omega) fun k hk => by have := parityPosition_lt hD hk; omega]
    exact bufBit_placeData_of_not_mem fun hm => by have := (mem_dataPositions.1 hm).2.1; omega

end

/-- Settles O28: the body of ENCB writes what EncodeBlock returns, which is short enough for DST_LEN. -/
theorem encbWritesTheCodeBlock : Obligations.EncbWritesTheCodeBlock := by
  unfold Obligations.EncbWritesTheCodeBlock
  intro s hp hl
  have hexec : exec .encb s = .next (s.beginCommand.writeResult (encodeBlock s.srcOperand)).complete :=
    exec_legal ((operandsLegal_iff .encb s.beginCommand).2 hl)
  obtain ⟨⟨hd, -⟩, -, hfits⟩ := hl
  obtain ⟨-, hcap, -⟩ := hp
  have hlen : (encodeBlock s.srcOperand).length < 2 ^ 32 := by
    rw [encodeBlock_length, s.srcOperand_length]
    omega
  obtain ⟨hend, hdst⟩ := complete_writeResult (s := s) (u := s.beginCommand) rfl rfl hlen
  obtain ⟨hstreams, hcnt⟩ := block_exec_keepsStreams (by decide) hexec
  exact ⟨_, _, hexec, hend, ⟨commandsKeepTheHostsState _ _ _ hexec, onlyTheCorrectorWritesTheClass _ _ _ (by decide) hexec,
    hstreams, hcnt⟩, hdst, isCodeBlock_encodeBlock (by rwa [s.srcOperand_length])⟩

end Sys2Proof.Machine
end

section
/-! SUPPORT. Every parity group of a Code Block is even, and the syndrome is read off the groups (R86, R100). -/

namespace Sys2Proof.Machine

/-! ### XORs of lists of bits -/

theorem xorBits_perm {as bs : List Bool} (h : as.Perm bs) : xorBits as = xorBits bs :=
  h.foldr_eq' (f := Bool.xor) (fun _ _ _ _ _ => Bool.xor_left_comm ..) false

theorem xorBits_eq_false {bs : List Bool} (h : ∀ b ∈ bs, b = false) : xorBits bs = false := by
  rw [List.eq_replicate_of_mem h, xorBits_eq_odd, List.count_replicate]
  simp

/-- Choosing by p and reading q is choosing by q and reading p. -/
theorem xorBits_filter_map_comm {α : Type} (p q : α → Bool) (l : List α) :
    xorBits ((l.filter p).map q) = xorBits ((l.filter q).map p) := by
  induction l with
  | nil => rfl
  | cons a l ih => cases hp : p a <;> cases hq : q a <;> simp [hp, hq, ih]

/-! ### The groups of a Code Block -/

section
variable {D C : List Byte}

/-- The padding adds nothing: a group of addresses of the block has the parity of its addresses below totalBits. -/
theorem IsCodeBlock.xorBits_filter (h : IsCodeBlock D C) (p : Nat → Bool) :
    xorBits (((addrs 0 (8 * codeSize D.length)).filter p).map (bufBit C)) =
      xorBits (((addrs 0 (totalBits D.length)).filter p).map (bufBit C)) := by
  have hpad : xorBits (((addrs (totalBits D.length) (8 * codeSize D.length)).filter p).map (bufBit C)) = false := by
    refine xorBits_eq_false fun b hb => ?_
    obtain ⟨a, ha, rfl⟩ := List.mem_map.1 hb
    obtain ⟨hge, hlt⟩ := mem_addrs.1 (List.mem_of_mem_filter ha)
    exact h.padding a hge (by rwa [h.length])
  rw [← addrs_append (Nat.zero_le _) (codeSize_bounds D.length).1, List.filter_append, List.map_append, xorBits_append,
    hpad, Bool.xor_false]

/-- Address 0 and the rest. -/
theorem addrs_zero_cons {T : Nat} (hT : 0 < T) : addrs 0 T = 0 :: addrs 1 T := by
  rw [addrs_split (Nat.le_refl 0) hT, addrs_eq_nil (Nat.le_refl 0), List.nil_append]

theorem totalBits_pos (d : Nat) : 0 < totalBits d := Nat.succ_pos _

/-- The extended parity bit makes the whole block even. -/
theorem IsCodeBlock.parityCheck_eq (h : IsCodeBlock D C) : parityCheck C = false := by
  have hall := h.xorBits_filter fun _ => true
  rw [List.filter_true, List.filter_true] at hall
  rw [parityCheck, h.length, hall, addrs_zero_cons (totalBits_pos _), List.map_cons, xorBits_cons, ← h.extended,
    Bool.xor_self]

/-- Of the powers of two, 2^k alone has value bit k. -/
theorem filter_valBit_powers {r k : Nat} (hk : k < r) : ((List.range r).map (2 ^ ·)).filter (valBit · k) = [2 ^ k] := by
  have hbit : (fun j => valBit (2 ^ j) k) = fun j => decide (j = k) := by
    funext j
    exact Nat.testBit_two_pow
  rw [List.filter_map, show ((valBit · k) ∘ (2 ^ ·)) = fun j => decide (j = k) from hbit, List.filter_eq,
    List.count_eq_one_of_mem List.nodup_range (List.mem_range.2 hk)]
  rfl

/-- Parity bit k makes its group even. -/
theorem IsCodeBlock.group_even (h : IsCodeBlock D C) (hD : admittedSize D.length) {k : Nat} (hk : k < parityBits D.length) :
    xorBits (((addrs 0 (8 * codeSize D.length)).filter (valBit · k)).map (bufBit C)) = false := by
  have hsplit := (((addrs_perm_positions (admitted_powersBelow hD)).filter (valBit · k)).map (bufBit C))
  have hzero : valBit 0 k = false := Nat.zero_testBit k
  rw [h.xorBits_filter, addrs_zero_cons (totalBits_pos _), List.filter_cons_of_neg (by simp [hzero]), xorBits_perm hsplit,
    List.filter_append, filter_valBit_powers hk, List.map_append, xorBits_append, ← h.parity k hk]
  simp

/-! ### The syndrome -/

/-- Value bit k of the syndrome is the parity of group k (R100). -/
theorem valBit_errorAddr (B : List Byte) (k : Nat) :
    valBit (errorAddr B) k = xorBits (((addrs 0 (8 * B.length)).filter (valBit · k)).map (bufBit B)) := by
  rw [errorAddr, valBit_xorNats, xorBits_filter_map_comm]
  rcases Nat.eq_zero_or_pos B.length with h | h
  · rw [h]
    rfl
  · have hzero : valBit 0 k = false := Nat.zero_testBit k
    rw [addrs_zero_cons (show 0 < 8 * B.length by omega), List.filter_cons_of_neg (by simp [hzero])]

/-- A block of an admitted size, padding included, has no address that its parity groups do not tell apart. -/
theorem codeBits_le_two_pow {d : Nat} (h : admittedSize d) : 8 * codeSize d ≤ 2 ^ parityBits d := by
  obtain ⟨-, hroom⟩ := h
  have hbounds := codeSize_bounds d
  have hpow : 2 ^ parityBits d = 2 ^ bitLength d * 8 := Nat.pow_add 2 _ 3
  unfold totalBits at hbounds
  omega

theorem IsCodeBlock.errorAddr_eq (h : IsCodeBlock D C) (hD : admittedSize D.length) : errorAddr C = 0 := by
  have hlt : errorAddr C < 2 ^ parityBits D.length := errorAddr_lt (by rw [h.length]; exact codeBits_le_two_pow hD)
  refine Nat.eq_of_testBit_eq fun k => ?_
  rw [Nat.zero_testBit]
  rcases Nat.lt_or_ge k (parityBits D.length) with hk | hk
  · have hgroup := valBit_errorAddr C k
    rw [h.length, h.group_even hD hk] at hgroup
    exact hgroup
  · exact Nat.testBit_lt_two_pow (lt_of_lt_of_le hlt (Nat.pow_le_pow_right (by omega) hk))

end

/-- Settles O29: these are facts of every Code Block. -/
theorem codeBlocksHaveZeroSyndrome : Obligations.CodeBlocksHaveZeroSyndrome := by
  unfold Obligations.CodeBlocksHaveZeroSyndrome
  intro D hD
  have h := isCodeBlock_encodeBlock hD.1
  have hall := h.parityCheck_eq
  refine ⟨h.extended, ?_, fun k hk => h.group_even hD hk, Prod.ext (h.errorAddr_eq hD) hall⟩
  rwa [parityCheck, h.length] at hall

end Sys2Proof.Machine
end

section
/-! SUPPORT. Streams that end OK: the units are done one after the other and their output stands on OUT in order; and on an
empty IN there are none (R57, R90, R108, R112). -/

namespace Sys2Proof.Machine

/-! ### Units -/

/-- k units are as many as the bytes need, each but the last a whole one (R9). -/
theorem ceilDiv_bounds {n : Nat} (hn : 1 ≤ n) (a : Nat) : a ≤ ceilDiv a n * n ∧ ∀ k < ceilDiv a n, k * n < a := by
  have hmod := Nat.div_add_mod' (a + n - 1) n
  have hlt := Nat.mod_lt (a + n - 1) hn
  refine ⟨by unfold ceilDiv; omega, fun k hk => ?_⟩
  have := (Nat.le_div_iff_mul_le hn).1 hk
  rw [Nat.succ_mul] at this
  omega

/-- Where the work goes on with Y k on the k-th unit of IN, those units can be done, and OUT has their output in order. -/
theorem unitsDone_of_work {n : Nat} (hn : 1 ≤ n) {tr : List Byte → State → Res (List Byte)} (htr : IgnoresIo tr)
    {s : State} {Y : Nat → List Byte} {K : Nat} (hread : ∀ k < K, k * n < s.inRest.length)
    (hwork : ∀ k < K, ∀ t, ∃ u, tr (slice s.inRest (k * n) n) t = .ok (Y k) u) :
    ∃ m, UnitsDone n tr K s m ∧ m.out = s.out ++ (List.range K).flatMap Y := by
  induction K with
  | zero => exact ⟨s, .none s, by simp⟩
  | succ K ih =>
    obtain ⟨m, hm, hout⟩ := ih (fun k hk => hread k (by omega)) fun k hk => hwork k (by omega)
    have hunit : m.inRest.take n = slice s.inRest (K * n) n := by rw [(hm.frame htr).1, slice]
    obtain ⟨u, hu⟩ := hwork K (Nat.lt_succ_self K) (m.countInCall.consume n)
    rw [← hunit] at hu
    have hne : m.inRest.take n ≠ [] := by
      have := hread K (Nat.lt_succ_self K)
      rw [hunit]
      exact List.length_pos_iff.1 (by rw [slice_length]; omega)
    refine ⟨_, hm.unit hne hu, ?_⟩
    have hkept : u.out = m.out := by rw [← htr.frame hu]; rfl
    rw [State.countUnit_out, State.emit_out, State.countOutCall_out, hkept, hout, List.range_succ, List.flatMap_append,
      List.append_assoc, List.flatMap_singleton]

/-- A command whose CODE is OK has left STICKY and bits 31:9 of STATUS (R25). -/
theorem endsOk_of_exec {i : Instr} {s t : State} (ht : exec i s = .next t) (hok : t.code = 0x00#8) : endsOk s t := by
  obtain ⟨-, hsticky, hreserved⟩ := exec_recordsCode ht
  exact ⟨hok, Bool.eq_iff_iff.2 (hsticky.trans (or_iff_left fun hne => hne hok)), hreserved⟩

/-- A stream command without planned failures, whose work goes on with Y k on the k-th of the K units of IN, ends OK having
read IN to its end and written their output. -/
theorem exec_stream_units {i : Instr} (hi : isStream i) {s : State} (hl : LegalOperands i s) (hq : s.ioQuiet)
    {Y : Nat → List Byte} {K : Nat} (hread : ∀ k < K, k * unitSize i s < s.inRest.length)
    (hall : s.inRest.length ≤ K * unitSize i s)
    (hwork : ∀ k < K, ∀ t, ∃ u, unitWork i s (slice s.inRest (k * unitSize i s) (unitSize i s)) t = .ok (Y k) u) :
    ∃ t, exec i s = .next t ∧ endsOk s t ∧ readsAll s t ∧ t.out = s.out ++ (List.range K).flatMap Y ∧
      t.cnt.units = BitVec.ofNat 64 K ∧ (¬ isNoise i → t.cnt.flips = 0#64) := by
  obtain ⟨hfi, hfo⟩ := hq
  have htr := unitWork_ignoresIo i s
  obtain ⟨m, hm, hout⟩ := unitsDone_of_work (s := s.beginCommand) (unitSize_pos hi hl) htr hread hwork
  obtain ⟨-, -, -, -, -, hunits⟩ := hm.frame htr
  have hself : s.withHost (s.inRest.take (K * unitSize i s)) [] [] = s := by
    cases s
    cases hfi
    cases hfo
    simp [State.withHost, List.take_of_length_le hall]
  have hexec := exec_of_unitsDone hi hl hm
  rw [hself] at hexec
  obtain ⟨xs, -, hdone, hrest, -⟩ := exec_streamed hexec
  have hxs : xs = s.inRest := hrest.trans (List.append_nil xs) |>.symm
  exact ⟨_, hexec, endsOk_of_exec hexec (code_complete _), ⟨hxs ▸ hdone, rfl⟩, hout, hunits.trans (BitVec.zero_add _),
    fun hquiet => hm.flips (unitWork_flips hquiet s)⟩

/-- Settles O48: the first InRead is the last, and it consumes nothing. -/
theorem emptyInputEndsOk : Obligations.EmptyInputEndsOk := by
  unfold Obligations.EmptyInputEndsOk
  intro i s hi hl hempty hgoes
  have hexec : exec i s = .next s.beginCommand.countInCall.complete := by
    have hloop : runStream (unitSize i s) (unitWork i s) s.beginCommand = .ok () s.beginCommand.countInCall := by
      rw [runStream, streamLoop_end (s := s.beginCommand) hempty hgoes,
        State.consume_eq_self (s := s.beginCommand.countInCall) hempty]
    exact (exec_stream hi hl s.inRest s.failIn s.failOut).trans (congrArg finish hloop)
  exact ⟨_, hexec, endsOk_of_exec hexec (code_complete _),
    ⟨commandsKeepTheHostsState i s _ hexec, ⟨rfl, rfl⟩, ⟨rfl, rfl, rfl⟩, rfl⟩,
    faultsAndStreamsLeaveNoResult i s _ hexec (.inr hi)⟩

end Sys2Proof.Machine
end

section
/-! SUPPORT. Frames and streams cut into parts of one length, and where the bits of the Code Blocks stand in an interleaved frame
(R82, R88 to R90, R99). -/

namespace Sys2Proof.Machine

/-! ### Parts of one length -/

theorem slice_append_left {B : List Byte} {i n : Nat} (h : i + n ≤ B.length) (C : List Byte) :
    slice (B ++ C) i n = slice B i n := by
  rw [slice, slice, List.drop_append_of_le_length (by omega), List.take_append_of_le_length (by rw [List.length_drop]; omega)]

theorem slice_slice {i m n : Nat} (h : i + m ≤ n) (B : List Byte) (a : Nat) :
    slice (slice B a n) i m = slice B (a + i) m := by
  rw [slice, slice, slice, List.drop_take, List.drop_drop, List.take_take, Nat.min_eq_left (by omega)]

/-- A short part padded with zeros is the part of the padded buffer (R90). -/
theorem slice_append_zeros {B : List Byte} {i : Nat} (h : i ≤ B.length) (n : Nat) :
    slice (B ++ zeros n) i n = slice B i n ++ zeros (n - (slice B i n).length) := by
  rw [slice_length, slice, slice, List.drop_append_of_le_length h, List.take_append, List.length_drop, zeros, zeros,
    List.take_replicate, show min (n - (B.length - i)) n = n - min n (B.length - i) by omega]

theorem length_flatMap_range {f : Nat → List Byte} {L K : Nat} (hf : ∀ k < K, (f k).length = L) :
    ((List.range K).flatMap f).length = K * L := by
  have hlens : (List.range K).map (fun k => (f k).length) = List.replicate K L := by
    rw [List.map_congr_left fun k hk => hf k (List.mem_range.1 hk), List.map_const', List.length_range]
  rw [List.length_flatMap, hlens, List.sum_replicate, smul_eq_mul]

/-- The k-th of the parts of length L that a buffer is made of. -/
theorem slice_flatMap_range {f : Nat → List Byte} {L k K : Nat} (hf : ∀ k < K, (f k).length = L) (hk : k < K) :
    slice ((List.range K).flatMap f) (k * L) L = f k := by
  induction K with
  | zero => omega
  | succ K ih =>
    have hf' : ∀ k < K, (f k).length = L := fun k hk => hf k (by omega)
    have hlen := length_flatMap_range hf'
    rw [List.range_succ, List.flatMap_append, List.flatMap_singleton]
    rcases Nat.lt_succ_iff_lt_or_eq.1 hk with hlt | rfl
    · have : (k + 1) * L ≤ K * L := Nat.mul_le_mul_right L hlt
      rw [Nat.succ_mul] at this
      rw [slice_append_left (by omega), ih hf' hlt]
    · rw [slice, ← hlen, List.drop_left, ← hf k hk, List.take_length]

/-- The parts of a buffer in order are its beginning. -/
theorem flatMap_slices (x : List Byte) (n K : Nat) : (List.range K).flatMap (fun k => slice x (k * n) n) = x.take (K * n) := by
  induction K with
  | zero => simp
  | succ K ih => rw [List.range_succ, List.flatMap_append, ih, List.flatMap_singleton, slice, ← List.take_add, Nat.succ_mul]

theorem bufBit_flatMap_range {f : Nat → List Byte} {L k K a : Nat} (hf : ∀ k < K, (f k).length = L) (hk : k < K)
    (ha : a < 8 * L) : bufBit ((List.range K).flatMap f) (8 * (k * L) + a) = bufBit (f k) a := by
  rw [← bufBit_slice ha, slice_flatMap_range hf hk]

/-! ### Interleaved frames -/

theorem length_slice_of_lt {P : List Byte} {d g i : Nat} (hP : P.length = d * g) (hi : i < g) :
    (slice P (i * d) d).length = d := by
  have : (i + 1) * d ≤ g * d := Nat.mul_le_mul_right d hi
  rw [Nat.succ_mul, Nat.mul_comm g] at this
  rw [slice_length]
  omega

/-- Each Data Block of a frame is encoded to codeSize bytes (R88). -/
theorem encodeFrame_block_length {P : List Byte} {d g : Nat} (hP : P.length = d * g) :
    ∀ i < g, (encodeBlock (slice P (i * d) d)).length = codeSize d := fun i hi => by
  rw [encodeBlock_length, length_slice_of_lt hP hi]

theorem encodeFrame_length {P : List Byte} {d g : Nat} (hP : P.length = d * g) :
    (encodeFrame P d g).length = frameSize d g := by
  rw [encodeFrame, length_flatMap_range (encodeFrame_block_length hP), frameSize, Nat.mul_comm]

/-- The unit that is encoded: what was read, padded with zeros (R90). -/
theorem length_padded {X : List Byte} {d g : Nat} (hX : X.length ≤ d * g) :
    (X ++ zeros (d * g - X.length)).length = d * g := by
  rw [List.length_append, zeros_length]
  omega

theorem encodeUnit_length {X : List Byte} {d g : Nat} (hX : X.length ≤ d * g) :
    (encodeUnit d g X).length = frameSize d g := by
  rw [encodeUnit, interleave_length, encodeFrame_length (length_padded hX)]

theorem frameBits_eq (d g : Nat) : 8 * frameSize d g = 8 * codeSize d * g := (Nat.mul_assoc ..).symm

/-- R89, R92: bit j of Code Block i stands at address j·g + i of the frame. -/
theorem bufBit_encodeUnit {X : List Byte} {d g i j : Nat} (hX : X.length ≤ d * g) (hi : i < g) (hj : j < 8 * codeSize d) :
    bufBit (encodeUnit d g X) (j * g + i) =
      bufBit (encodeBlock (slice (X ++ zeros (d * g - X.length)) (i * d) d)) j := by
  have hP := length_padded hX
  have hbits : 8 * (encodeFrame (X ++ zeros (d * g - X.length)) d g).length = 8 * codeSize d * g := by
    rw [encodeFrame_length hP, frameBits_eq]
  have hrows : 8 * (encodeFrame (X ++ zeros (d * g - X.length)) d g).length / g = 8 * codeSize d := by
    rw [hbits, Nat.mul_div_cancel _ (by omega)]
  rw [encodeUnit, bufBit_interleave (by rw [hbits, Nat.mul_mod_left]) hi (by rwa [hrows]), hrows, Nat.mul_left_comm]
  exact bufBit_flatMap_range (encodeFrame_block_length hP) hi hj

theorem length_slice_le (x : List Byte) (i n : Nat) : (slice x i n).length ≤ n := by
  rw [slice_length]
  exact Nat.min_le_left _ _

/-- The first K frames that ENCS writes for the input x (R90). -/
def framesOf (x : List Byte) (d g K : Nat) : List Byte :=
  (List.range K).flatMap fun k => encodeUnit d g (slice x (k * (d * g)) (d * g))

section
variable (x : List Byte) (d g : Nat)

theorem encodeUnit_slice_length (k : Nat) : (encodeUnit d g (slice x (k * (d * g)) (d * g))).length = frameSize d g :=
  encodeUnit_length (length_slice_le x _ _)

@[simp] theorem framesOf_length (K : Nat) : (framesOf x d g K).length = K * frameSize d g :=
  length_flatMap_range fun k _ => encodeUnit_slice_length x d g k

theorem bufBit_framesOf {k K a : Nat} (hk : k < K) (ha : a < 8 * frameSize d g) :
    bufBit (framesOf x d g K) (8 * (k * frameSize d g) + a) =
      bufBit (encodeUnit d g (slice x (k * (d * g)) (d * g))) a :=
  bufBit_flatMap_range (fun k _ => encodeUnit_slice_length x d g k) hk ha

end

/-- Bit j of Code Block i lies in its frame. -/
theorem frameAddr_lt {d g i j : Nat} (hi : i < g) (hj : j < 8 * codeSize d) : j * g + i < 8 * frameSize d g :=
  frameBits_eq d g ▸ row_col_lt hj hi

/-- The Code Block at its place in the k-th frame is that of its Data Block in the padded input (R89, R90). -/
theorem bufBit_encodeUnit_slice {x : List Byte} {d g k i j : Nat} (hk : k * (d * g) ≤ x.length) (hi : i < g)
    (hj : j < 8 * codeSize d) :
    bufBit (encodeUnit d g (slice x (k * (d * g)) (d * g))) (j * g + i) =
      bufBit (encodeBlock (slice (x ++ zeros (d * g)) ((k * g + i) * d) d)) j := by
  have hpart : (i + 1) * d ≤ g * d := Nat.mul_le_mul_right d hi
  rw [Nat.succ_mul, Nat.mul_comm g] at hpart
  rw [bufBit_encodeUnit (length_slice_le x _ _) hi hj, ← slice_append_zeros hk, slice_slice hpart, Nat.add_mul,
    Nat.mul_assoc k, Nat.mul_comm g]

/-! ### ENCS -/

/-- ENCS writes the frame of each read in order (R90). -/
theorem exec_encs {s : State} (hl : LegalOperands .encs s) (hq : s.ioQuiet) :
    ∃ t, exec .encs s = .next t ∧ endsOk s t ∧ readsAll s t ∧
      t.out = s.out ++ framesOf s.inRest s.dpb s.groups (ceilDiv s.inRest.length (s.dpb * s.groups)) ∧
      t.cnt.units = BitVec.ofNat 64 (ceilDiv s.inRest.length (s.dpb * s.groups)) ∧ t.cnt.flips = 0#64 := by
  obtain ⟨hall, hread⟩ := ceilDiv_bounds (unitSize_pos (i := .encs) (by decide) hl) s.inRest.length
  obtain ⟨t, hexec, hend, hreads, hout, hunits, hflips⟩ := exec_stream_units (i := .encs) (by decide) hl hq hread hall
    (fun k _ t => ⟨t, rfl⟩)
  exact ⟨t, hexec, hend, hreads, hout, hunits, hflips (by decide)⟩

/-- Settles O30: each read gives one frame, and the stream counters are the numbers of what was read and written. -/
theorem encsWritesInterleavedFrames : Obligations.EncsWritesInterleavedFrames := by
  unfold Obligations.EncsWritesInterleavedFrames
  intro s hl hq
  obtain ⟨t, hexec, hend, hreads, hout, hunits, hflips⟩ := exec_encs hl hq
  obtain ⟨xs, ys, hdone, -, hout', hin, hby⟩ := exec_streamed hexec
  obtain rfl := List.append_cancel_left (hout'.symm.trans hout)
  obtain rfl := List.append_cancel_left (hdone.symm.trans hreads.1)
  refine ⟨t, _, hexec, hend, commandsKeepTheHostsState _ _ _ hexec,
    onlyTheCorrectorWritesTheClass _ _ _ (by decide) hexec, hreads,
    faultsAndStreamsLeaveNoResult _ _ _ hexec (.inr (by decide)), hout, framesOf_length .., fun k hk i hi j hj => ?_, ?_⟩
  · have hread := (ceilDiv_bounds (unitSize_pos (i := .encs) (by decide) hl) s.inRest.length).2 k hk
    rw [bufBit_framesOf _ _ _ hk (frameAddr_lt hi hj), bufBit_encodeUnit_slice hread.le hi hj]
  · rw [← hunits, ← hin, ← hby]
    exact congrArg (fun f => ({ t.cnt with flips := f } : Counters)) hflips

end Sys2Proof.Machine
end

section
/-! SUPPORT. What the Corrector and the Decoder make of a Code Block with at most one bit flipped, and the frames a short burst
leaves: at most one flip in each Code Block (R91, R102, R103, R105, R107, R108). -/

namespace Sys2Proof.Machine

/-! ### Decoding a block -/

/-- The data positions of a longer buffer begin with those of the block. -/
theorem dataPositions_eq_append {T U : Nat} (h : T ≤ U) : ∃ rest, dataPositions U = dataPositions T ++ rest := by
  rcases Nat.le_total 3 T with h3 | h3
  · exact ⟨_, by rw [dataPositions, dataPositions, ← addrs_append h3 h, List.filter_append]⟩
  · exact ⟨dataPositions U, by simp [dataPositions, addrs_eq_nil h3]⟩

/-- R105: a buffer of the block's length with the data bits at the data positions decodes to the data. -/
theorem decodeBlock_eq {D C : List Byte} (hD : admittedSize D.length) (hlen : C.length = codeSize D.length)
    (hdata : ∀ n a, (dataPositions (totalBits D.length))[n]? = some a → bufBit C a = bufBit D n) :
    decodeBlock C D.length = D := by
  refine buf_ext (decodeBlock_length C _) fun n hn => ?_
  rw [decodeBlock_length] at hn
  have hmem : n < (dataPositions (totalBits D.length)).length := by rwa [dataPositions_length_of_admitted hD]
  have hpos := List.getElem?_eq_getElem hmem
  obtain ⟨rest, hrest⟩ := dataPositions_eq_append (codeSize_bounds D.length).1
  rw [bufBit_decodeBlock hn, hlen, hrest, List.getElem?_append_left hmem, hpos]
  exact hdata n _ hpos

section
variable {D : List Byte}

theorem decodeBlock_encodeBlock (hD : admittedSize D.length) : decodeBlock (encodeBlock D) D.length = D :=
  decodeBlock_eq hD (encodeBlock_length D) (isCodeBlock_encodeBlock hD.1).data

/-- The extended parity bit is no data bit. -/
theorem decodeBlock_bufFlip_zero (hD : admittedSize D.length) : decodeBlock (bufFlip (encodeBlock D) 0) D.length = D := by
  have hblock := isCodeBlock_encodeBlock hD.1
  refine decodeBlock_eq hD ((bufFlip_length _ _).trans hblock.length) fun n a h => ?_
  have h3 := (mem_dataPositions.1 (List.mem_of_getElem? h)).1
  have hpos := codeSize_pos D.length
  rw [bufBit_bufFlip (by rw [hblock.length]; omega), if_neg (by omega), hblock.data n a h]

/-! ### At most one flip -/

/-- Flipping an address twice restores the buffer. -/
theorem bufFlip_bufFlip {B : List Byte} {a : Nat} (ha : a < 8 * B.length) : bufFlip (bufFlip B a) a = B := by
  refine buf_ext (by simp) fun b _ => ?_
  rw [bufBit_bufFlip (by rwa [bufFlip_length]), bufBit_bufFlip ha]
  by_cases h : b = a <;> simp [h]

/-- Two buffers of one length that differ at no two addresses are equal or one flip apart. -/
theorem eq_or_eq_bufFlip {B E : List Byte} (hlen : B.length = E.length)
    (h : ∀ a < 8 * E.length, ∀ b < 8 * E.length, bufBit B a ≠ bufBit E a → bufBit B b ≠ bufBit E b → a = b) :
    B = E ∨ ∃ a < 8 * E.length, B = bufFlip E a := by
  by_cases hall : ∀ a < 8 * E.length, bufBit B a = bufBit E a
  · exact .inl (buf_ext hlen (by rwa [hlen]))
  · push Not at hall
    obtain ⟨a, ha, hne⟩ := hall
    refine .inr ⟨a, ha, buf_ext (by rw [hlen, bufFlip_length]) fun b hb => ?_⟩
    rw [bufBit_bufFlip ha]
    by_cases hb' : b = a
    · rw [if_pos hb', hb']
      exact Bool.eq_not_of_ne hne
    · rw [if_neg hb']
      by_contra hne'
      exact hb' (h b (hlen ▸ hb) a ha hne' hne)

/-- R103: a Code Block with at most one flip goes through the Corrector, and what it returns decodes to the data. -/
theorem correctBlock_of_oneFlip {B : List Byte} (hD : admittedSize D.length)
    (h : B = encodeBlock D ∨ ∃ a < 8 * (encodeBlock D).length, B = bufFlip (encodeBlock D) a) (s : State) :
    ∃ C u, correctBlock B s = .ok C u ∧ decodeBlock C D.length = D := by
  have hblock := isCodeBlock_encodeBlock hD.1
  have hclean := hblock.errorAddr_eq hD
  rcases h with rfl | ⟨a, ha, rfl⟩
  · rcases correctBlock_cases (encodeBlock D) s with ⟨-, hc⟩ | ⟨he, -⟩ | ⟨he, -⟩ | ⟨he, -⟩
    · exact ⟨_, _, hc, decodeBlock_encodeBlock hD⟩
    all_goals exact absurd hclean he
  · have herr : errorAddr (bufFlip (encodeBlock D) a) = a := by rw [errorAddr_bufFlip ha, hclean, Nat.zero_xor]
    have hodd : parityCheck (bufFlip (encodeBlock D) a) = true := by
      rw [parityCheck_bufFlip ha, hblock.parityCheck_eq, Bool.not_false]
    rcases correctBlock_cases (bufFlip (encodeBlock D) a) s with ⟨he, hc⟩ | ⟨-, hp, -⟩ | ⟨-, -, hl, -⟩ | ⟨-, -, -, hc⟩
    · obtain rfl := herr.symm.trans he
      exact ⟨_, _, hc, decodeBlock_bufFlip_zero hD⟩
    · exact absurd hodd (Bool.eq_false_iff.1 hp)
    · rw [herr, bufFlip_length] at hl
      exact absurd ha (Nat.not_lt.2 hl)
    · rw [herr, bufFlip_bufFlip ha] at hc
      exact ⟨_, _, hc, decodeBlock_encodeBlock hD⟩

end

/-! ### Decoding a frame -/

/-- Blocks that all go through the Corrector are decoded in order (R107). -/
theorem decodeBlocks_ok {d : Nat} {B D : Nat → List Byte} {l : List Nat}
    (h : ∀ i ∈ l, ∀ s, ∃ C u, correctBlock (B i) s = .ok C u ∧ decodeBlock C d = D i) (s : State) :
    ∃ u, decodeBlocks d (l.map B) s = .ok (l.flatMap D) u := by
  induction l generalizing s with
  | nil => exact ⟨s, rfl⟩
  | cons i l ih =>
    obtain ⟨C, t, hC, hdec⟩ := h i (by simp) s
    obtain ⟨u, hu⟩ := ih (fun j hj => h j (by simp [hj])) t
    exact ⟨u, by rw [List.map_cons, decodeBlocks, hC, Res.bind_ok, hu, Res.bind_ok, hdec, List.flatMap_cons]⟩

/-- R99, R92: bit j of Code Block i of a received frame is bit j·g + i of the frame. -/
theorem bufBit_frameBlock {Z : List Byte} {d g i j : Nat} (hZ : Z.length = frameSize d g) (hi : i < g)
    (hj : j < 8 * codeSize d) :
    bufBit (slice (interleave Z (8 * codeSize d)) (i * codeSize d) (codeSize d)) j = bufBit Z (j * g + i) := by
  have hcols : 8 * Z.length / (8 * codeSize d) = g := by
    rw [hZ, frameBits_eq, Nat.mul_div_cancel_left g (by omega)]
  have hbit := bufBit_interleave (S := Z) (groups := 8 * codeSize d)
    (by rw [hZ, frameBits_eq, Nat.mul_mod_right]) hj (by rwa [hcols])
  rw [hcols, Nat.mul_left_comm] at hbit
  rw [bufBit_slice hj, hbit]

/-- A frame encoded from X in which no Code Block has two wrong bits is decoded to X. -/
theorem decodeUnit_of_oneFlip {d g : Nat} {X Z : List Byte} (hd : admittedSize d) (hX : X.length = d * g)
    (hZ : Z.length = frameSize d g)
    (hflip : ∀ i < g, ∀ a < 8 * codeSize d, ∀ b < 8 * codeSize d,
      bufBit Z (a * g + i) ≠ bufBit (encodeUnit d g X) (a * g + i) →
      bufBit Z (b * g + i) ≠ bufBit (encodeUnit d g X) (b * g + i) → a = b) (s : State) :
    ∃ u, decodeUnit d g Z s = .ok X u := by
  have hblocks : ∀ i ∈ List.range g, ∀ s, ∃ C u,
      correctBlock (slice (interleave Z (8 * codeSize d)) (i * codeSize d) (codeSize d)) s = .ok C u ∧
        decodeBlock C d = slice X (i * d) d := by
    intro i hi s
    have hi := List.mem_range.1 hi
    have hlen : (slice X (i * d) d).length = d := length_slice_of_lt hX hi
    have hsize : (encodeBlock (slice X (i * d) d)).length = codeSize d := by rw [encodeBlock_length, hlen]
    have hsent : ∀ j < 8 * codeSize d,
        bufBit (encodeUnit d g X) (j * g + i) = bufBit (encodeBlock (slice X (i * d) d)) j := by
      intro j hj
      have hnone : X ++ zeros (d * g - X.length) = X := by rw [hX, Nat.sub_self]; exact List.append_nil X
      rw [bufBit_encodeUnit hX.le hi hj, hnone]
    have hreceived : (slice (interleave Z (8 * codeSize d)) (i * codeSize d) (codeSize d)).length =
        (encodeBlock (slice X (i * d) d)).length := by
      rw [length_slice_of_lt ((interleave_length Z _).trans hZ) hi, hsize]
    have hone := eq_or_eq_bufFlip hreceived (by
      rw [hsize]
      intro a ha b hb
      rw [bufBit_frameBlock hZ hi ha, bufBit_frameBlock hZ hi hb, ← hsent a ha, ← hsent b hb]
      exact hflip i hi a ha b hb)
    have hok := correctBlock_of_oneFlip (hlen.symm ▸ hd) hone s
    rwa [hlen] at hok
  obtain ⟨u, hu⟩ := decodeBlocks_ok hblocks s
  rw [flatMap_slices, Nat.mul_comm g, ← hX, List.take_length] at hu
  exact ⟨u, (if_neg (by omega)).trans hu⟩

/-! ### Bursts -/

/-- Addresses of one Code Block are g apart, so a run of at most g addresses has one of them at most (R91). -/
theorem eq_of_near_rows {g n c p a b : Nat} (hn : n ≤ g) (ha : c ≤ p + a * g ∧ p + a * g < c + n)
    (hb : c ≤ p + b * g ∧ p + b * g < c + n) : a = b := by
  have hlt : ∀ {x y : Nat}, x < y → p + x * g + g ≤ p + y * g := fun h => by
    have := Nat.mul_le_mul_right g (Nat.succ_le_of_lt h)
    rw [Nat.succ_mul] at this
    omega
  rcases Nat.lt_trichotomy a b with h | h | h
  · have := hlt h; omega
  · exact h
  · have := hlt h; omega

section
variable {x : List Byte} {A : List Nat} {K d g : Nat}

/-- A bit of a received frame that is not the bit sent was flipped. -/
theorem mem_of_wrongBit (hnd : A.Nodup) (hA : ∀ a ∈ A, a < 8 * (K * frameSize d g)) {k p : Nat} (hk : k < K)
    (hp : p < 8 * frameSize d g)
    (hne : bufBit (slice (flipAll (framesOf x d g K) A) (k * frameSize d g) (frameSize d g)) p ≠
      bufBit (encodeUnit d g (slice x (k * (d * g)) (d * g))) p) : 8 * (k * frameSize d g) + p ∈ A := by
  by_contra hmem
  refine hne ?_
  rw [bufBit_slice hp, bufBit_flipAll hnd (by simpa using hA), if_neg hmem, bufBit_framesOf x d g hk hp]

/-- Each frame of a stream with a burst of at most g bits is decoded to its input. -/
theorem decodeUnit_of_burst {c n : Nat} (hd : admittedSize d) (hx : x.length = K * (d * g)) (hn : n ≤ g)
    (hend : c + n ≤ 8 * (K * frameSize d g)) (hnd : A.Nodup) (hA : ∀ a ∈ A, c ≤ a ∧ a < c + n) {k : Nat} (hk : k < K)
    (s : State) :
    ∃ u, decodeUnit d g (slice (flipAll (framesOf x d g K) A) (k * frameSize d g) (frameSize d g)) s =
      .ok (slice x (k * (d * g)) (d * g)) u := by
  have hX := length_slice_of_lt (hx.trans (Nat.mul_comm _ _)) hk
  have hZ : (slice (flipAll (framesOf x d g K) A) (k * frameSize d g) (frameSize d g)).length = frameSize d g :=
    length_slice_of_lt (by rw [flipAll_length, framesOf_length, Nat.mul_comm]) hk
  refine decodeUnit_of_oneFlip hd hX hZ (fun i hi a ha b hb hna hnb => ?_) s
  have hbound : ∀ a ∈ A, a < 8 * (K * frameSize d g) := fun a ha => lt_of_lt_of_le (hA a ha).2 hend
  have hma := hA _ (mem_of_wrongBit hnd hbound hk (frameAddr_lt hi ha) hna)
  have hmb := hA _ (mem_of_wrongBit hnd hbound hk (frameAddr_lt hi hb) hnb)
  rw [Nat.add_left_comm, Nat.add_comm] at hma hmb
  exact eq_of_near_rows hn hma hmb

end

/-- Settles O45: every frame of the stream is a unit that DECS decodes to its part of x. -/
theorem burstsUpToTheGroupCountAreCorrected : Obligations.BurstsUpToTheGroupCountAreCorrected := by
  unfold Obligations.BurstsUpToTheGroupCountAreCorrected
  intro s x A K c n hl hq hx hn hend hnd hA hin
  change s.inRest = flipAll (framesOf x s.dpb s.groups K) A at hin
  have hpos := unitSize_pos (i := .decs) (by decide) hl
  have hlen : s.inRest.length = K * unitSize .decs s := by rw [hin, flipAll_length, framesOf_length, unitSize]
  have hwork : ∀ k < K, ∀ t, ∃ u, unitWork .decs s (slice s.inRest (k * unitSize .decs s) (unitSize .decs s)) t =
      .ok (slice x (k * (s.dpb * s.groups)) (s.dpb * s.groups)) u := fun k hk t => by
    rw [hin]
    exact decodeUnit_of_burst hl.1 hx hn hend hnd hA hk t
  obtain ⟨t, hexec, hok, hreads, hout, -⟩ := exec_stream_units (i := .decs) (by decide) hl hq
    (fun k hk => hlen ▸ Nat.mul_lt_mul_of_pos_right hk hpos) hlen.le hwork
  rw [flatMap_slices, ← hx, List.take_length] at hout
  exact ⟨t, hexec, hok, hreads, hout⟩

end Sys2Proof.Machine
end

section
/-! SUPPORT. The Interleaver as a permutation of the bit addresses: the transpose of a matrix of bits, its square and trivial
cases, and its command (R92 to R98). -/

namespace Sys2Proof.Machine

/-! ### The address map (R93, R94) -/

/-- The address, in a matrix of `rows` rows and `cols` columns stored row by row, of the bit that the transpose has at b. -/
def transposeAddr (rows cols b : Nat) : Nat := b % rows * cols + b / rows

section
variable {rows cols : Nat}

/-- An address of the transpose names a row and a column of the matrix. -/
theorem row_col_bounds {b : Nat} (hb : b < rows * cols) : b % rows < rows ∧ b / rows < cols :=
  ⟨Nat.mod_lt b (Nat.pos_of_mul_pos_right (Nat.zero_lt_of_lt hb)), Nat.div_lt_of_lt_mul hb⟩

theorem transposeAddr_lt {b : Nat} (hb : b < rows * cols) : transposeAddr rows cols b < rows * cols :=
  row_col_lt (row_col_bounds hb).1 (row_col_bounds hb).2

theorem transposeAddr_inj {b b' : Nat} (hb : b < rows * cols) (hb' : b' < rows * cols)
    (h : transposeAddr rows cols b = transposeAddr rows cols b') : b = b' := by
  obtain ⟨hcol, hrow⟩ := row_col_unique (row_col_bounds hb).2 (row_col_bounds hb').2 h
  rw [← Nat.div_add_mod' b rows, ← Nat.div_add_mod' b' rows, hcol, hrow]

/-- R94: the map is a bijection of the addresses, since it is injective and stays below their number. -/
theorem map_transposeAddr_perm (rows cols : Nat) :
    ((addrs 0 (rows * cols)).map (transposeAddr rows cols)).Perm (addrs 0 (rows * cols)) := by
  have hnodup : ((addrs 0 (rows * cols)).map (transposeAddr rows cols)).Nodup :=
    List.Nodup.map_on (fun a ha b hb => transposeAddr_inj (mem_addrs.1 ha).2 (mem_addrs.1 hb).2) (addrs_nodup _ _)
  have hsubset : (addrs 0 (rows * cols)).map (transposeAddr rows cols) ⊆ addrs 0 (rows * cols) := by
    intro a ha
    obtain ⟨b, hb, rfl⟩ := List.mem_map.1 ha
    exact mem_addrs.2 ⟨Nat.zero_le _, transposeAddr_lt (mem_addrs.1 hb).2⟩
  exact (hnodup.subperm hsubset).perm_of_length_le (List.length_map _).ge

end

/-! ### The permuted bits (R94) -/

section
variable {S : List Byte} {groups : Nat} (hd : 8 * S.length % groups = 0)
include hd

/-- The bits of the buffer are a matrix of `groups` rows (R93). -/
theorem bits_eq_rows_mul_cols : 8 * S.length = groups * (8 * S.length / groups) :=
  (Nat.mul_div_cancel' (Nat.dvd_of_mod_eq_zero hd)).symm

/-- R92 read at an address of the result. -/
theorem bufBit_interleave_transposeAddr {b : Nat} (hb : b < 8 * S.length) :
    bufBit (interleave S groups) b = bufBit S (transposeAddr groups (8 * S.length / groups) b) := by
  obtain ⟨hrow, hcol⟩ := row_col_bounds (bits_eq_rows_mul_cols hd ▸ hb)
  have hbit := bufBit_interleave hd hrow hcol
  rwa [Nat.div_add_mod'] at hbit

/-- R94: a permutation of the bits keeps the number of set ones. -/
theorem setBits_interleave : setBits (interleave S groups) = setBits S := by
  have hN := bits_eq_rows_mul_cols hd
  have hperm := map_transposeAddr_perm groups (8 * S.length / groups)
  rw [← hN] at hperm
  have hread : ∀ b ∈ addrs 0 (8 * S.length), (bufBit (interleave S groups) b = true ↔
      (bufBit S ∘ transposeAddr groups (8 * S.length / groups)) b = true) := fun b hb => by
    rw [bufBit_interleave_transposeAddr hd (mem_addrs.1 hb).2, Function.comp_apply]
  rw [setBits, setBits, interleave_length, ← List.countP_eq_length_filter, ← List.countP_eq_length_filter,
    List.countP_congr hread, ← List.countP_map, hperm.countP_eq]

end

/-- Settles O32: the address map has a row and a column for every address of the result, and it is a bijection. -/
theorem interleavePermutesTheBits : Obligations.InterleavePermutesTheBits := by
  unfold Obligations.InterleavePermutesTheBits
  intro S groups _ hd
  refine ⟨interleave_length S groups, setBits_interleave hd, fun b hb => ?_⟩
  have hN := bits_eq_rows_mul_cols hd
  obtain ⟨hrow, hcol⟩ := row_col_bounds (hN ▸ hb)
  have haddr : b = b / groups * groups + b % groups := (Nat.div_add_mod' b groups).symm
  exact ⟨transposeAddr groups (8 * S.length / groups) b, (transposeAddr_lt (hN ▸ hb)).trans_eq hN.symm,
    bufBit_interleave_transposeAddr hd hb, _, _, hrow, hcol, rfl, haddr,
    fun i' j' hi' _ h => row_col_unique hi' hrow (h.symm.trans haddr)⟩

/-! ### The inverse and the identity cases (R95 to R97) -/

theorem interleave_nil (groups : Nat) : interleave [] groups = [] :=
  List.length_eq_zero_iff.1 (interleave_length [] groups)

/-- Settles O33: the quotient divides the bit length, and the swapped count is the inverse. -/
theorem interleaveInverseIsTheSwappedCount : Obligations.InterleaveInverseIsTheSwappedCount := by
  unfold Obligations.InterleaveInverseIsTheSwappedCount
  refine ⟨fun S groups hne hpos hd => ?_, fun groups _ => interleave_nil groups⟩
  have hdiv : groups ∣ 8 * S.length := Nat.dvd_of_mod_eq_zero hd
  have hbits : 0 < 8 * S.length := Nat.mul_pos (by decide) (List.length_pos_iff.2 hne)
  exact ⟨Nat.div_pos (Nat.le_of_dvd hbits hdiv) hpos, Nat.mod_eq_zero_of_dvd (Nat.div_dvd_of_dvd hdiv),
    interleave_interleave hd⟩

/-- For a square matrix the swapped count is the same count. -/
theorem interleave_interleave_square {S : List Byte} {groups : Nat} (h : groups * groups = 8 * S.length) :
    interleave (interleave S groups) groups = S := by
  have hd : 8 * S.length % groups = 0 := h ▸ Nat.mul_mod_right groups groups
  have hswap : 8 * S.length / groups = groups := by
    rw [← h]
    rcases Nat.eq_zero_or_pos groups with rfl | hpos
    · rfl
    · exact Nat.mul_div_cancel_left groups hpos
  have hinverse := interleave_interleave hd
  rwa [hswap] at hinverse

/-- The example of R96. -/
theorem interleave_interleave_three :
    interleave (interleave [0x12, 0x34, 0x56] 3) 3 = [0x2D, 0xA3, 0x04] := by decide

/-- Settles O34: a square matrix is its own swapped shape; the example of R96 is a matrix of 3 rows and 8 columns. -/
theorem sameCountTwiceRestoresSquares : Obligations.SameCountTwiceRestoresSquares := by
  unfold Obligations.SameCountTwiceRestoresSquares
  refine ⟨fun S groups h => interleave_interleave_square h, [0x12, 0x34, 0x56], 3, by decide, by decide, ?_⟩
  rw [interleave_interleave_three]
  decide

/-- R97: with one group, bit j stays at address j·1 + 0. -/
theorem interleave_one (S : List Byte) : interleave S 1 = S := by
  refine buf_ext (interleave_length S 1) fun b hb => ?_
  rw [interleave_length] at hb
  rw [bufBit_interleave_transposeAddr (Nat.mod_one _) hb, transposeAddr, Nat.mod_one, Nat.zero_mul, Nat.zero_add, Nat.div_one]

/-- R97: one bit per group is the inverse of one group. -/
theorem interleave_bits (S : List Byte) : interleave S (8 * S.length) = S := by
  have hinverse := interleave_interleave (S := S) (Nat.mod_one _)
  rwa [interleave_one, Nat.div_one] at hinverse

/-- Settles O35: one group leaves every bit in its place, and so does its inverse. -/
theorem interleaveIdentityCases : Obligations.InterleaveIdentityCases := by
  unfold Obligations.InterleaveIdentityCases
  exact ⟨interleave_one, fun S _ => interleave_bits S, fun groups _ => interleave_nil groups⟩

/-! ### ILV (R98) -/

/-- A block command that does not classify and whose body only writes a result ends OK with that result, all else as before
(R35, R36, R70). -/
theorem exec_endsOk_of_writeResult {i : Instr} (hi : ¬ isStream i) (hc : ¬ classifies i) {s : State} {O : List Byte}
    (hl : O.length < 2 ^ 32) (hexec : exec i s = .next (s.beginCommand.writeResult O).complete) :
    ∃ t, exec i s = .next t ∧ endsOk s t ∧ blockFrame s t ∧ dstHolds t O := by
  obtain ⟨hend, hdst⟩ := complete_writeResult (s := s) (u := s.beginCommand) rfl rfl hl
  obtain ⟨hstreams, hcnt⟩ := block_exec_keepsStreams hi hexec
  exact ⟨_, hexec, hend,
    ⟨commandsKeepTheHostsState _ _ _ hexec, onlyTheCorrectorWritesTheClass _ _ _ hc hexec, hstreams, hcnt⟩, hdst⟩

/-- Settles O31: the body of ILV writes the interleave of the operand, which is as long as the operand. -/
theorem ilvTransposesTheOperand : Obligations.IlvTransposesTheOperand := by
  unfold Obligations.IlvTransposesTheOperand
  intro s hp hl
  have hexec : exec .ilv s = .next (s.beginCommand.writeResult (interleave s.srcOperand s.groups)).complete :=
    execIlv_legal hl
  obtain ⟨-, hbuf, -⟩ := hp
  obtain ⟨hcap, -, hd⟩ := hl
  have hlen : (interleave s.srcOperand s.groups).length = s.srcLen := by rw [interleave_length, s.srcOperand_length]
  obtain ⟨t, ht, hend, hframe, hdst⟩ := exec_endsOk_of_writeResult (by decide) (by decide) (by omega) hexec
  refine ⟨t, _, ht, hend, hframe, hdst, hlen, fun i hi j hj => ?_⟩
  rw [← s.srcOperand_length] at hd hj ⊢
  exact bufBit_interleave hd hi hj

end Sys2Proof.Machine
end

section
/-! SUPPORT. The Corrector on one block, split by whether the block can be corrected, and its command CORB
(R100 to R104). -/

namespace Sys2Proof.Machine

/-! ### One block (R101, R102) -/

/-- The state with the class and the syndrome of block B recorded. -/
def State.classify (s : State) (B : List Byte) : State :=
  s.recordClass (classOf (errorAddr B) (parityCheck B)) (errorAddr B)

/-- The record of a later block replaces that of an earlier one. -/
@[simp] theorem State.classify_classify (s : State) (A B : List Byte) : (s.classify A).classify B = s.classify B := rfl

/-- The fault of a block that cannot be corrected: the syndrome names no bit, or the parity is even (R101). -/
def uncorrectableCode (B : List Byte) : Code := if parityCheck B = true then .malformedInput else .doubleError

theorem uncorrectableCode_byte (B : List Byte) :
    (uncorrectableCode B).byte = if parityCheck B = true then 0x04#8 else 0x03#8 := by
  rw [uncorrectableCode]
  split <;> rfl

theorem uncorrectableCode_ne_ok (B : List Byte) : uncorrectableCode B ≠ .ok := by
  rw [uncorrectableCode]
  split <;> decide

theorem correctBlock_of_correctable {B : List Byte} (h : correctable B) (s : State) :
    correctBlock B s = .ok (corrected B) (s.classify B) := by
  rcases correctBlock_cases B s with ⟨he, hc⟩ | ⟨he, hp, -⟩ | ⟨he, -, hl, -⟩ | ⟨he, -, -, hc⟩
  · rw [hc, corrected, if_pos he, State.classify]
  · exact absurd hp (by simp [(h.resolve_left he).1])
  · exact absurd (h.resolve_left he).2 (Nat.not_lt.2 hl)
  · rw [hc, corrected, if_neg he, State.classify]

theorem correctBlock_of_not_correctable {B : List Byte} (h : ¬ correctable B) (s : State) :
    correctBlock B s = .raised (uncorrectableCode B) (s.classify B) := by
  rcases correctBlock_cases B s with ⟨he, -⟩ | ⟨-, hp, hc⟩ | ⟨-, hp, -, hc⟩ | ⟨-, hp, hl, -⟩
  · exact absurd (.inl he) h
  · rw [hc, uncorrectableCode, if_neg (by simp [hp]), State.classify]
  · rw [hc, uncorrectableCode, if_pos hp, State.classify]
  · exact absurd (.inr ⟨hp, hl⟩) h

@[simp] theorem corrected_length (B : List Byte) : (corrected B).length = B.length := by
  unfold corrected
  split <;> simp

/-- OUTCOME of a block with syndrome 0 (R101). -/
theorem outcomeWord_classOf_zero (p : Bool) : outcomeWord (classOf 0 p) = if p = true then 1#32 else 0#32 := by
  cases p <;> rfl

/-- OUTCOME of a block with a syndrome (R101). -/
theorem outcomeWord_classOf_ne_zero {e : Nat} (h : e ≠ 0) (p : Bool) :
    outcomeWord (classOf e p) = if p = true then 2#32 else 3#32 := by
  rw [classOf, if_neg h]
  cases p <;> rfl

/-- SYNDROME holds the syndrome of block B and OUTCOME its class (R102). -/
def Records (t : State) (B : List Byte) : Prop :=
  t.syndrome.toNat = errorAddr B ∧ t.outcome = outcomeWord (classOf (errorAddr B) (parityCheck B))

/-- The syndrome of a block with addresses below 2^31 fits the register (R27). -/
theorem records_classify (s : State) {B : List Byte} (hB : 8 * B.length ≤ 2 ^ 31) : Records (s.classify B) B :=
  ⟨toNat_ofNat_of_lt ((errorAddr_lt hB).trans (by decide)), rfl⟩

/-! ### CORB (R104) -/

section
variable {s : State} (hl : LegalOperands .corb s)
include hl

theorem exec_corb_of_correctable (h : correctable s.srcOperand) :
    exec .corb s = .next ((s.beginCommand.classify s.srcOperand).writeResult (corrected s.srcOperand)).complete := by
  have hbody : commandBody .corb s.beginCommand =
      .ok () ((s.beginCommand.classify s.srcOperand).writeResult (corrected s.srcOperand)) := by
    rw [commandBody, State.srcOperand_beginCommand, correctBlock_of_correctable h, Res.bind_ok]
  rw [exec_legal ((operandsLegal_iff .corb s.beginCommand).2 hl), hbody, finish]

theorem exec_corb_of_not_correctable (h : ¬ correctable s.srcOperand) :
    exec .corb s = .next ((s.beginCommand.classify s.srcOperand).raise (uncorrectableCode s.srcOperand)) := by
  have hbody : commandBody .corb s.beginCommand =
      .raised (uncorrectableCode s.srcOperand) (s.beginCommand.classify s.srcOperand) := by
    rw [commandBody, State.srcOperand_beginCommand, correctBlock_of_not_correctable h, Res.bind_raised]
  rw [exec_legal ((operandsLegal_iff .corb s.beginCommand).2 hl), hbody, finish]

variable (hp : s.params.wf)
include hp

theorem eight_mul_srcOperand_length_le : 8 * s.srcOperand.length ≤ 2 ^ 31 := by
  obtain ⟨-, hcap, -⟩ := hp
  have hlen : s.srcLen ≤ s.params.bufCap := hl
  rw [s.srcOperand_length]
  omega

/-- CORB returns a block that can be corrected, the class recorded (R101, R102). -/
theorem corb_corrects (h : correctable s.srcOperand) :
    ∃ t, exec .corb s = .next t ∧ endsOk s t ∧ dstHolds t (corrected s.srcOperand) ∧ Records t s.srcOperand := by
  have hbits := eight_mul_srcOperand_length_le hl hp
  obtain ⟨hend, hdst⟩ := complete_writeResult (s := s) (u := s.beginCommand.classify s.srcOperand)
    (bytes := corrected s.srcOperand) rfl rfl (by rw [corrected_length]; omega)
  exact ⟨_, exec_corb_of_correctable hl h, hend, hdst, records_classify s hbits⟩

/-- CORB raises on a block that cannot be corrected, the class recorded before (R101, R102). -/
theorem corb_raises (h : ¬ correctable s.srcOperand) :
    ∃ t, exec .corb s = .next t ∧ endsRaised (uncorrectableCode s.srcOperand).byte s t ∧ dstHolds t [] ∧
      Records t s.srcOperand := by
  obtain ⟨hend, hdst⟩ := raise_beginCommand (s := s) (u := s.classify s.srcOperand) rfl (uncorrectableCode s.srcOperand)
  exact ⟨_, exec_corb_of_not_correctable hl h, hend, hdst, records_classify s (eight_mul_srcOperand_length_le hl hp)⟩

end

/-- Settles O36: the rows of the table are the blocks that can be corrected, with or without a syndrome, and those that
cannot, by their parity. -/
theorem corbFollowsTheDecisionTable : Obligations.CorbFollowsTheDecisionTable := by
  unfold Obligations.CorbFollowsTheDecisionTable
  intro s hp hl
  have hlen := s.srcOperand_length
  have hkept {t : State} (ht : exec .corb s = .next t) := block_exec_keepsStreams (by decide) ht
  by_cases hcorr : correctable s.srcOperand
  · obtain ⟨t, ht, hend, hdst, hsyn, hout⟩ := corb_corrects hl hp hcorr
    obtain ⟨hstreams, hcnt⟩ := hkept ht
    refine ⟨t, ht, commandsKeepTheHostsState _ _ _ ht, hstreams, hcnt, hsyn, fun he => ?_, fun he hodd => ?_,
      fun he heven => absurd heven (by simp [(hcorr.resolve_left he).1])⟩
    · rw [corrected, if_pos he] at hdst
      rw [he, outcomeWord_classOf_zero] at hout
      exact ⟨hend, hdst, hout⟩
    · rw [corrected, if_neg he] at hdst
      rw [outcomeWord_classOf_ne_zero he, if_pos hodd] at hout
      refine ⟨hout, fun hlt => ⟨hend, _, hdst, (bufFlip_length _ _).trans hlen, fun a _ => ?_⟩, fun hge => ?_⟩
      · rw [bufBit_bufFlip (hlen.symm ▸ hlt)]
        by_cases ha : a = errorAddr s.srcOperand <;> simp [ha]
      · have := (hcorr.resolve_left he).2
        omega
  · obtain ⟨t, ht, hend, hdst, hsyn, hout⟩ := corb_raises hl hp hcorr
    obtain ⟨hstreams, hcnt⟩ := hkept ht
    rw [uncorrectableCode_byte] at hend
    refine ⟨t, ht, commandsKeepTheHostsState _ _ _ ht, hstreams, hcnt, hsyn, fun he => absurd (.inl he) hcorr,
      fun he hodd => ?_, fun he heven => ?_⟩
    · rw [outcomeWord_classOf_ne_zero he, if_pos hodd] at hout
      rw [if_pos hodd] at hend
      exact ⟨hout, fun hlt => absurd (.inr ⟨hodd, hlen.symm ▸ hlt⟩) hcorr, fun _ => ⟨hend, hdst⟩⟩
    · rw [outcomeWord_classOf_ne_zero he, if_neg (by simp [heven])] at hout
      rw [if_neg (by simp [heven])] at hend
      exact ⟨hout, hend, hdst⟩

/-- Settles O37: an XOR of addresses below a power of two is below it, so only an even parity can make CORB fail. -/
theorem powerOfTwoLengthsAreNeverMalformed : Obligations.PowerOfTwoLengthsAreNeverMalformed := by
  unfold Obligations.PowerOfTwoLengthsAreNeverMalformed
  have hbelow (B : List Byte) (h : ∃ k, 8 * B.length = 2 ^ k) : errorAddr B < 8 * B.length := by
    obtain ⟨k, hk⟩ := h
    exact hk ▸ errorAddr_lt hk.le
  refine ⟨hbelow, fun s t hpow ht => ?_⟩
  by_cases hl : LegalOperands .corb s
  · by_cases hcorr : correctable s.srcOperand
    · cases (exec_corb_of_correctable hl hcorr).symm.trans ht
      rw [code_complete]
      decide
    · have heven : ¬ parityCheck s.srcOperand = true := fun hodd =>
        hcorr (.inr ⟨hodd, hbelow _ (by rwa [s.srcOperand_length])⟩)
      cases (exec_corb_of_not_correctable hl hcorr).symm.trans ht
      rw [State.code, State.raise_status, statusCode_statusRaised, uncorrectableCode_byte, if_neg heven]
      decide
  · have hillegal := Bool.eq_false_iff.2 (mt (operandsLegal_iff .corb s.beginCommand).1 hl)
    cases (exec_illegal hillegal).symm.trans ht
    rw [State.code, State.raise_status, statusCode_statusRaised]
    decide

/-! ### Flips of a block (R103) -/

theorem xorNats_filter_ne_zero (A : List Nat) : xorNats (A.filter (fun a => a ≠ 0)) = xorNats A := by
  induction A with
  | nil => rfl
  | cons a A ih => by_cases h : a = 0 <;> simp_all

/-- Each flip adds its address to the syndrome and inverts the parity. -/
theorem classifyBlock_flipAll {B : List Byte} {A : List Nat} (hA : ∀ a ∈ A, a < 8 * B.length) :
    errorAddr (flipAll B A) = errorAddr B ^^^ xorNats A ∧
      parityCheck (flipAll B A) = Bool.xor (parityCheck B) (decide (A.length % 2 = 1)) := by
  induction A generalizing B with
  | nil => simp [flipAll]
  | cons a A ih =>
    obtain ⟨ha, hA⟩ := List.forall_mem_cons.1 hA
    obtain ⟨herr, hpar⟩ := ih (B := bufFlip B a) (by simpa using hA)
    have hcons : flipAll B (a :: A) = flipAll (bufFlip B a) A := rfl
    have hodd : decide ((a :: A).length % 2 = 1) = !decide (A.length % 2 = 1) := by
      rw [List.length_cons, ← decide_not]
      exact decide_eq_decide.2 (by omega)
    rw [hcons, herr, hpar, errorAddr_bufFlip ha, parityCheck_bufFlip ha, hodd, xorNats_cons, Nat.xor_assoc, Bool.not_xor,
      Bool.xor_not]
    exact ⟨rfl, rfl⟩

section
variable {D : List Byte} (hD : admittedSize D.length)
include hD

theorem errorAddr_encodeBlock : errorAddr (encodeBlock D) = 0 := (isCodeBlock_encodeBlock hD.1).errorAddr_eq hD

theorem parityCheck_encodeBlock : parityCheck (encodeBlock D) = false := (isCodeBlock_encodeBlock hD.1).parityCheck_eq

/-- A Code Block has syndrome 0 and even parity, so the flips alone are seen. -/
theorem classifyBlock_flipAll_encodeBlock {A : List Nat} (hA : ∀ a ∈ A, a < 8 * codeSize D.length) :
    errorAddr (flipAll (encodeBlock D) A) = xorNats A ∧
      parityCheck (flipAll (encodeBlock D) A) = decide (A.length % 2 = 1) := by
  obtain ⟨herr, hpar⟩ := classifyBlock_flipAll (B := encodeBlock D) (A := A) (by rwa [encodeBlock_length])
  rw [errorAddr_encodeBlock hD, Nat.zero_xor] at herr
  rw [parityCheck_encodeBlock hD, Bool.false_xor] at hpar
  exact ⟨herr, hpar⟩

end

/-- Settles O38: address 0 adds nothing to an XOR. -/
theorem flipsOfACodeBlockAreClassifiedByTheirXor : Obligations.FlipsOfACodeBlockAreClassifiedByTheirXor := by
  unfold Obligations.FlipsOfACodeBlockAreClassifiedByTheirXor
  intro D A hD _ hA
  obtain ⟨herr, hpar⟩ := classifyBlock_flipAll_encodeBlock hD hA
  rw [xorNats_filter_ne_zero, classifyBlock, herr, hpar]

/-- Settles O39: a single flip has its own address as syndrome and odd parity, so flipping that address again restores the
block; a syndrome of 0 leaves the flip of address 0. -/
theorem singleFlipsAreUndoneExceptAtBitZero : Obligations.SingleFlipsAreUndoneExceptAtBitZero := by
  unfold Obligations.SingleFlipsAreUndoneExceptAtBitZero
  intro s D a hp hl hD ha hsrc
  have hin : a < 8 * (encodeBlock D).length := by rwa [encodeBlock_length]
  obtain ⟨herr, hodd⟩ := classifyBlock_flipAll_encodeBlock hD (A := [a]) (by simpa using ha)
  change errorAddr (bufFlip (encodeBlock D) a) = xorNats [a] at herr
  change parityCheck (bufFlip (encodeBlock D) a) = true at hodd
  rw [xorNats_cons, xorNats_nil, Nat.xor_zero] at herr
  have hcorr : correctable s.srcOperand := by
    rw [hsrc]
    exact .inr ⟨hodd, by rwa [herr, bufFlip_length]⟩
  obtain ⟨t, ht, hend, hdst, hsyn, hout⟩ := corb_corrects hl hp hcorr
  rw [hsrc, herr] at hsyn hout
  rw [hodd] at hout
  rw [hsrc, corrected, herr] at hdst
  refine ⟨t, ht, hend, hsyn, fun h0 => ?_, fun hne => ?_⟩
  · subst h0
    exact ⟨hout, hdst⟩
  · rw [outcomeWord_classOf_ne_zero hne] at hout
    rw [if_neg hne, bufFlip_bufFlip hin] at hdst
    exact ⟨hout, hdst⟩

/-- Settles O40: two different addresses have an XOR other than 0, and their parity is even. -/
theorem doubleFlipsAreDetected : Obligations.DoubleFlipsAreDetected := by
  unfold Obligations.DoubleFlipsAreDetected
  intro s D a b hp hl hD ha hb hne hsrc
  obtain ⟨herr, heven⟩ := classifyBlock_flipAll_encodeBlock hD (A := [a, b]) (by simp [ha, hb])
  replace heven : parityCheck (flipAll (encodeBlock D) [a, b]) = false := heven.trans (by simp)
  rw [xorNats_cons, xorNats_cons, xorNats_nil, Nat.xor_zero] at herr
  rw [← hsrc] at herr heven
  have hxor : a ^^^ b ≠ 0 := mt Nat.xor_eq_zero_iff.1 hne
  have hcorr : ¬ correctable s.srcOperand := by simp [herr, heven, hxor]
  obtain ⟨t, ht, hend, hdst, hsyn, hout⟩ := corb_raises hl hp hcorr
  rw [uncorrectableCode, heven] at hend
  rw [herr, heven, outcomeWord_classOf_ne_zero hxor] at hout
  exact ⟨t, ht, hend, hout, hsyn.trans herr, hdst⟩

end Sys2Proof.Machine
end

section
/-! SUPPORT. The Decoder and its commands DECB and DECS: what is delivered, and where an uncorrectable block stops a stream
(R105 to R109, R128, R129). -/

namespace Sys2Proof.Machine

/-! ### Blocks (R105, R106) -/

/-- Settles O42: the data positions of a Code Block hold its data, and address 0 is none of them. -/
theorem decodeUndoesEncode : Obligations.DecodeUndoesEncode := by
  unfold Obligations.DecodeUndoesEncode
  exact fun D hD => ⟨decodeBlock_encodeBlock hD, decodeBlock_bufFlip_zero hD⟩

/-- Settles O41: the body of DECB writes what DecodeBlock returns, which is DSIZE bytes long. -/
theorem decbDeliversTheDataPositions : Obligations.DecbDeliversTheDataPositions := by
  unfold Obligations.DecbDeliversTheDataPositions
  intro s hp hl
  have hexec : exec .decb s = .next (s.beginCommand.writeResult (decodeBlock s.srcOperand s.dsize)).complete :=
    exec_legal ((operandsLegal_iff .decb s.beginCommand).2 hl)
  obtain ⟨-, hbuf, -⟩ := hp
  obtain ⟨-, hsize⟩ := hl
  obtain ⟨t, ht, hend, hframe, hdst⟩ :=
    exec_endsOk_of_writeResult (by decide) (by decide) (by rw [decodeBlock_length]; omega) hexec
  refine ⟨t, _, ht, hend, hframe, hdst, decodeBlock_length _ _, fun n hn => ?_⟩
  rw [bufBit_decodeBlock hn, s.srcOperand_length]

/-! ### Frames (R107) -/

/-- Blocks that can all be corrected are decoded in order, and the class of the last one stays. -/
theorem decodeBlocks_of_correctable {d : Nat} {Bs : List (List Byte)} (h : ∀ B ∈ Bs, correctable B) (s : State) :
    decodeBlocks d Bs s =
      .ok (Bs.flatMap fun B => decodeBlock (corrected B) d) (Bs.getLast?.elim s s.classify) := by
  induction Bs generalizing s with
  | nil => rfl
  | cons B Bs ih =>
    obtain ⟨hB, hBs⟩ := List.forall_mem_cons.1 h
    rw [decodeBlocks, correctBlock_of_correctable hB, Res.bind_ok, ih hBs, Res.bind_ok, List.getLast?_cons]
    cases Bs.getLast? <;> rfl

/-- The first block that cannot be corrected stops the frame, and its class stays. -/
theorem decodeBlocks_of_uncorrectable {d : Nat} {Bs : List (List Byte)} {i : Nat} {B : List Byte} (hi : Bs[i]? = some B)
    (hbefore : ∀ j < i, ∀ C, Bs[j]? = some C → correctable C) (hB : ¬ correctable B) (s : State) :
    decodeBlocks d Bs s = .raised (uncorrectableCode B) (s.classify B) := by
  induction Bs generalizing i s with
  | nil => simp at hi
  | cons A Bs ih =>
    rw [decodeBlocks]
    cases i with
    | zero =>
      cases hi
      rw [correctBlock_of_not_correctable hB, Res.bind_raised]
    | succ i =>
      have hA := hbefore 0 (Nat.succ_pos i) A rfl
      rw [correctBlock_of_correctable hA, Res.bind_ok, ih hi fun j hj => hbefore (j + 1) (Nat.succ_lt_succ hj),
        Res.bind_raised, State.classify_classify]

/-- The k-th whole frame of a stream is decoded block by block (R108). -/
theorem decodeUnit_slice {x : List Byte} {d g k : Nat} (h : (k + 1) * frameSize d g ≤ x.length) (s : State) :
    decodeUnit d g (slice x (k * frameSize d g) (frameSize d g)) s = decodeBlocks d (streamBlocks x d g k) s := by
  rw [Nat.succ_mul] at h
  rw [decodeUnit, if_neg (by rw [slice_length]; omega), decodeFrame, streamBlocks]

/-- The blocks of a stream with legal operands have addresses below 2^31 (R8). -/
theorem eight_mul_streamBlock_length_le {s : State} (hp : s.params.wf) (hl : LegalOperands .decs s) {x B : List Byte}
    {k : Nat} (hB : B ∈ streamBlocks x s.dpb s.groups k) : 8 * B.length ≤ 2 ^ 31 := by
  have hsize := eight_mul_codeSize_le_of_legal hp ((codecStreamOperandsLegal_iff s).2 hl)
  have := length_le_of_mem_frameBlocks hB
  omega

/-! ### Runs on the first bytes of IN -/

/-- Where a stream command ends OK on X alone, the first k units of IN, those units can be done from s, with the rest of IN
left. -/
theorem unitsDone_of_exec_ok_on {i : Instr} (hi : isStream i) {s u : State} (hl : LegalOperands i s) (hq : s.ioQuiet)
    {X Y : List Byte} (hin : s.inRest = X ++ Y) {k : Nat} (hX : X.length = k * unitSize i s)
    (hu : exec i { s with inRest := X } = .next u) (hok : u.code = 0x00#8) :
    ∃ m, UnitsDone (unitSize i s) (unitWork i s) k s.beginCommand m ∧ m.inRest = Y ∧
      u = (m.withHost [] [] []).countInCall.complete := by
  have hpos := unitSize_pos hi hl
  have htake : s.inRest.take (k * unitSize i s) = X := by rw [← hX, hin, List.take_left]
  obtain ⟨hfi, hfo⟩ := hq
  change exec i (s.withHost X s.failIn s.failOut) = _ at hu
  rw [hfi, hfo, ← htake] at hu
  obtain ⟨m, hm, hend⟩ := unitsDone_of_exec_ok hi hl (by rw [hin, List.length_append]; omega) hu hok
  have hrest := (hm.frame (unitWork_ignoresIo i s)).1
  rw [← hX, State.beginCommand_inRest, hin, List.drop_left] at hrest
  exact ⟨m, hm, hrest, hend⟩

/-! ### Streams of whole frames (R108) -/

@[simp] theorem State.withHost_outcome (s : State) (rest : List Byte) (fi fo : List Nat) :
    (s.withHost rest fi fo).outcome = s.outcome := rfl

@[simp] theorem State.withHost_syndrome (s : State) (rest : List Byte) (fi fo : List Nat) :
    (s.withHost rest fi fo).syndrome = s.syndrome := rfl

/-- The last of the units of a stream command that ends OK leaves its class (R102). -/
theorem exec_stream_lastUnit {i : Instr} (hi : isStream i) {s t : State} (hl : LegalOperands i s) (hq : s.ioQuiet)
    {k : Nat} (hlen : s.inRest.length = (k + 1) * unitSize i s) (ht : exec i s = .next t) (hok : t.code = 0x00#8) :
    ∃ m u Y, unitWork i s (slice s.inRest (k * unitSize i s) (unitSize i s)) m = .ok Y u ∧ keepsClass u t := by
  obtain ⟨m, hm, -, rfl⟩ := unitsDone_of_exec_ok_on hi hl hq (List.append_nil _).symm hlen ht hok
  obtain ⟨l, u, Y, hunits, -, hwork, rfl⟩ := hm.succ_inv
  rw [(hunits.frame (unitWork_ignoresIo i s)).1] at hwork
  exact ⟨_, u, Y, hwork, by simp, by simp⟩

/-- Settles O43: every frame is a unit whose blocks are corrected and decoded, and the last block of the last frame leaves its
class. -/
theorem decsDecodesWholeFrames : Obligations.DecsDecodesWholeFrames := by
  unfold Obligations.DecsDecodesWholeFrames
  intro s hp hl hq hmod hcorr
  have hpos : 1 ≤ frameSize s.dpb s.groups := unitSize_pos (i := .decs) (by decide) hl
  have hlen : s.inRest.length / frameSize s.dpb s.groups * unitSize .decs s = s.inRest.length :=
    Nat.div_mul_cancel (Nat.dvd_of_mod_eq_zero hmod)
  generalize hK : s.inRest.length / frameSize s.dpb s.groups = K at *
  have hunit : ∀ k < K, ∀ t, unitWork .decs s (slice s.inRest (k * unitSize .decs s) (unitSize .decs s)) t =
      .ok ((streamBlocks s.inRest s.dpb s.groups k).flatMap fun B => decodeBlock (corrected B) s.dpb)
        ((streamBlocks s.inRest s.dpb s.groups k).getLast?.elim t t.classify) := fun k hk t =>
    (decodeUnit_slice (hlen ▸ Nat.mul_le_mul_right _ hk) t).trans (decodeBlocks_of_correctable (hcorr k hk) t)
  obtain ⟨t, ht, hend, hreads, hout, hunits, hflips⟩ := exec_stream_units (i := .decs) (by decide) hl hq
    (fun k hk => hlen ▸ Nat.mul_lt_mul_of_pos_right hk hpos) hlen.ge (fun k hk t => ⟨_, hunit k hk t⟩)
  obtain ⟨xs, ys, hdone, -, hout', hin, hby⟩ := exec_streamed ht
  obtain rfl := List.append_cancel_left (hout'.symm.trans hout)
  obtain rfl := List.append_cancel_left (hdone.symm.trans hreads.1)
  refine ⟨t, _, ht, hend, commandsKeepTheHostsState _ _ _ ht, hreads,
    faultsAndStreamsLeaveNoResult _ _ _ ht (.inr (by decide)), hout, rfl, fun hnil => ?_, fun B hne hlast => ?_, ?_⟩
  · refine decs_keepsClass ht fun ⟨_, _, hframe⟩ => ?_
    rw [hnil, List.length_nil] at hframe
    omega
  · obtain _ | k := K
    · exact absurd (List.length_eq_zero_iff.1 (hlen.symm.trans (Nat.zero_mul _))) hne
    · obtain ⟨m, u, Y, hwork, hout, hsyn⟩ := exec_stream_lastUnit (by decide) hl hq hlen.symm ht hend.1
      rw [Nat.add_sub_cancel] at hlast
      rw [hunit k (Nat.lt_succ_self k), hlast] at hwork
      cases hwork
      rw [hout, hsyn]
      exact records_classify m (eight_mul_streamBlock_length_le hp hl (List.mem_of_getLast? hlast))
  · rw [← hunits, ← hin, ← hby]
    exact congrArg (fun f => ({ t.cnt with flips := f } : Counters)) (hflips (by decide))

/-! ### ENCS and DECS (R109) -/

/-- The k-th unit of n bytes of a stream, a short one padded with zeros, as ENCS encodes it (R90). -/
def paddedUnit (x : List Byte) (n k : Nat) : List Byte :=
  slice x (k * n) n ++ zeros (n - (slice x (k * n) n).length)

/-- A unit as ENCS wrote it is decoded to what was read, padded with zeros. -/
theorem decodeUnit_encodeUnit {d g : Nat} {X : List Byte} (hd : admittedSize d) (hX : X.length ≤ d * g) (s : State) :
    ∃ u, decodeUnit d g (encodeUnit d g X) s = .ok (X ++ zeros (d * g - X.length)) u := by
  have hpad := length_padded hX
  have hsame : encodeUnit d g (X ++ zeros (d * g - X.length)) = encodeUnit d g X := by
    rw [encodeUnit, hpad, Nat.sub_self, show zeros 0 = [] from rfl, List.append_nil, encodeUnit]
  exact decodeUnit_of_oneFlip hd hpad (encodeUnit_length hX)
    (fun i _ a _ b _ hne => absurd (by rw [hsame]) hne) s

/-- The padding of the last unit reaches the next multiple of its size (R90). -/
theorem ceilDiv_padding {n : Nat} (hn : 1 ≤ n) (a : Nat) : ceilDiv a n * n - a = (n - a % n) % n := by
  obtain ⟨hall, hread⟩ := ceilDiv_bounds hn a
  have hlt : ceilDiv a n * n - a < n := by
    rcases Nat.eq_zero_or_pos (ceilDiv a n) with h0 | hpos
    · rw [h0, Nat.zero_mul, Nat.zero_sub]
      exact hn
    · have := hread (ceilDiv a n - 1) (by omega)
      rw [Nat.sub_mul] at this
      omega
  have hsum : (a % n + (ceilDiv a n * n - a)) % n = 0 := by
    rw [Nat.mod_add_mod, Nat.add_sub_cancel' hall, Nat.mul_mod_left]
  have hmod := Nat.mod_lt a hn
  rcases Nat.eq_zero_or_pos (a % n) with h0 | hpos
  · rw [h0, Nat.zero_add, Nat.mod_eq_of_lt hlt] at hsum
    rw [hsum, h0, Nat.sub_zero, Nat.mod_self]
  · have hge : n ≤ a % n + (ceilDiv a n * n - a) := by
      by_contra hsmall
      rw [Nat.mod_eq_of_lt (by omega)] at hsum
      omega
    rw [Nat.mod_eq_sub_mod hge, Nat.mod_eq_of_lt (by omega)] at hsum
    rw [Nat.mod_eq_of_lt (by omega)]
    omega

/-- The units that ENCS reads, each padded with zeros, are the padded input (R90). -/
theorem flatMap_paddedUnits {n : Nat} (hn : 1 ≤ n) (x : List Byte) :
    (List.range (ceilDiv x.length n)).flatMap (paddedUnit x n) = x ++ zeros ((n - x.length % n) % n) := by
  obtain ⟨hall, hread⟩ := ceilDiv_bounds hn x.length
  have hparts : ∀ k ∈ List.range (ceilDiv x.length n), paddedUnit x n k = slice (x ++ zeros n) (k * n) n := fun k hk =>
    (slice_append_zeros (hread k (List.mem_range.1 hk)).le n).symm
  have hpad := ceilDiv_padding hn x.length
  have hlt := Nat.mod_lt (n - x.length % n) hn
  rw [List.flatMap_congr hparts, flatMap_slices, List.take_append, List.take_of_length_le hall, hpad, zeros,
    List.take_replicate, Nat.min_eq_left hlt.le, zeros]

/-- Settles O44: each frame that ENCS wrote decodes to its padded unit. -/
theorem decsUndoesEncs : Obligations.DecsUndoesEncs := by
  unfold Obligations.DecsUndoesEncs
  intro s t u ys hl hq ht hys hlu hqu hd hg hin
  obtain ⟨t', ht', -, -, hout, -⟩ := exec_encs hl hq
  obtain rfl := Host.Outcome.next.inj (ht.symm.trans ht')
  obtain rfl := List.append_cancel_left (hys.symm.trans hout)
  have hn : 1 ≤ s.dpb * s.groups := unitSize_pos (i := .encs) (by decide) hl
  have hpos := unitSize_pos (i := .decs) (by decide) hlu
  have hsize : unitSize .decs u = frameSize s.dpb s.groups := by rw [unitSize, hd, hg]
  have hlen : u.inRest.length = ceilDiv s.inRest.length (s.dpb * s.groups) * unitSize .decs u := by
    rw [hin, framesOf_length, hsize]
  have hwork : ∀ k < ceilDiv s.inRest.length (s.dpb * s.groups), ∀ v, ∃ w,
      unitWork .decs u (slice u.inRest (k * unitSize .decs u) (unitSize .decs u)) v =
        .ok (paddedUnit s.inRest (s.dpb * s.groups) k) w := fun k hk v => by
    rw [hin, hsize, framesOf, slice_flatMap_range (fun k _ => encodeUnit_slice_length _ _ _ k) hk, unitWork, hd, hg]
    exact decodeUnit_encodeUnit hl.1 (length_slice_le _ _ _) v
  obtain ⟨v, hv, hend, hreads, hvout, -⟩ := exec_stream_units (i := .decs) (by decide) hlu hqu
    (fun k hk => hlen ▸ Nat.mul_lt_mul_of_pos_right hk hpos) hlen.le hwork
  rw [flatMap_paddedUnits hn, ← List.append_assoc] at hvout
  refine ⟨v, hv, hend, hreads, hvout, ?_⟩
  rw [hvout, List.append_right_eq_self, ← List.length_eq_zero_iff, zeros_length]
  have hmod := Nat.mod_lt s.inRest.length hn
  constructor
  · intro h0
    by_contra hne
    rw [Nat.mod_eq_of_lt (by omega)] at h0
    omega
  · intro h0
    rw [h0, Nat.sub_zero, Nat.mod_self]

/-! ### A block that cannot be corrected (R107, R128, R129) -/

/-- A pass whose work on the unit raises ends the loop there. -/
theorem streamLoop_raisedWork {n : Nat} {tr : List Byte → State → Res (List Byte)} {s v : State} {c : Code}
    (hin : s.inCalls + 1 ∉ s.failIn) (hread : s.inRest.take n ≠ [])
    (hwork : tr (s.inRest.take n) (s.countInCall.consume n) = .raised c v) (g : Nat) :
    streamLoop n tr (g + 1) s = .raised c v := by
  rw [streamLoop_read hin, if_neg hread, hwork, Res.bind_raised]

/-- A stream command without planned failures ends with the fault that the work on the unit after k units raises. -/
theorem exec_stream_raisedWork {i : Instr} (hi : isStream i) {s m v : State} (hl : LegalOperands i s) (hq : s.ioQuiet)
    {k : Nat} {c : Code} (hm : UnitsDone (unitSize i s) (unitWork i s) k s.beginCommand m)
    (hread : m.inRest.take (unitSize i s) ≠ [])
    (hwork : unitWork i s (m.inRest.take (unitSize i s)) (m.countInCall.consume (unitSize i s)) = .raised c v) :
    exec i s = .next (v.raise c) ∧ endsRaised c.byte s (v.raise c) := by
  obtain ⟨hfi, hfo⟩ := hq
  have htr := unitWork_ignoresIo i s
  obtain ⟨-, hfailIn, -⟩ := hm.frame htr
  have hin : m.inCalls + 1 ∉ m.failIn := by
    rw [hfailIn, State.beginCommand_failIn, hfi]
    exact List.not_mem_nil
  have hrun : runStream (unitSize i s) (unitWork i s) s.beginCommand = .raised c v := by
    rw [hm.runStream_eq (unitSize_pos hi hl) htr (by simp [hfi]) (by simp [hfo]), streamLoop_raisedWork hin hread hwork]
  have hexec : exec i s = .next (v.raise c) :=
    (exec_stream hi hl s.inRest s.failIn s.failOut).trans (congrArg finish hrun)
  obtain ⟨-, -, hreserved⟩ := exec_recordsCode hexec
  exact ⟨hexec, statusCode_statusRaised _ _, statusSticky_statusRaised _ _, hreserved⟩

/-- Settles O47: the frames before are done as u does them, and the next frame is read before its block i raises. -/
theorem decsAbortsAtAnUncorrectableBlock : Obligations.DecsAbortsAtAnUncorrectableBlock := by
  unfold Obligations.DecsAbortsAtAnUncorrectableBlock
  intro s u X Y B i hp hl hq hin hmod hY hu hok hi hbefore hB
  have hpos : 1 ≤ frameSize s.dpb s.groups := unitSize_pos (i := .decs) (by decide) hl
  obtain ⟨m, hm, hrest, rfl⟩ := unitsDone_of_exec_ok_on (by decide) hl hq hin
    (Nat.div_mul_cancel (Nat.dvd_of_mod_eq_zero hmod)).symm hu hok
  have hread : m.inRest.take (unitSize .decs s) ≠ [] := by
    refine List.length_pos_iff.1 ?_
    rw [hrest, List.length_take]
    exact Nat.lt_min.2 ⟨hpos, lt_of_lt_of_le hpos hY⟩
  have hwork : unitWork .decs s (m.inRest.take (unitSize .decs s)) (m.countInCall.consume (unitSize .decs s)) =
      .raised (uncorrectableCode B) ((m.countInCall.consume (unitSize .decs s)).classify B) := by
    have hframe := decodeUnit_slice (x := Y) (d := s.dpb) (g := s.groups) (k := 0) (by omega)
      (m.countInCall.consume (unitSize .decs s))
    rw [Nat.zero_mul] at hframe
    rw [hrest]
    exact hframe.trans (decodeBlocks_of_uncorrectable hi hbefore hB _)
  obtain ⟨hexec, hend⟩ := exec_stream_raisedWork (by decide) hl hq hm hread hwork
  rw [uncorrectableCode_byte] at hend
  obtain ⟨xs, -, -, hxs, -, hbytes, -⟩ := exec_streamed hexec
  have hleft : (((m.countInCall.consume (unitSize .decs s)).classify B).raise (uncorrectableCode B)).inRest =
      Y.drop (frameSize s.dpb s.groups) := congrArg (List.drop _) hrest
  have hconsumed : xs.length = X.length + frameSize s.dpb s.groups := by
    have := congrArg List.length hxs
    rw [hleft, hin, List.length_append, List.length_append, List.length_drop] at this
    omega
  obtain ⟨hsyn, hout⟩ := records_classify (m.countInCall.consume (unitSize .decs s))
    (eight_mul_streamBlock_length_le hp hl (List.mem_of_getElem? hi))
  rw [outcomeWord_classOf_ne_zero fun he => hB (.inl he)] at hout
  refine ⟨_, hexec, hend, commandsKeepTheHostsState _ _ _ hexec, rfl, hleft, hsyn, hout, ?_⟩
  rw [← hconsumed, ← hbytes]
  rfl

end Sys2Proof.Machine
end

section
/-! SUPPORT. A noise command that ends OK: what it leaves is the same for both policies but for the bits it inverted (R112,
R118), and it ends OK where the work on each buffer goes on. -/

namespace Sys2Proof.Machine

/-! ### What a noise command that ends OK has done -/

/-- From s to t the noise command i ran to its end and wrote ys, as many bytes as it read (R112, R118, R36). -/
structure NoiseRun (i : Instr) (s t : State) (ys : List Byte) : Prop where
  exec : exec i s = .next t
  endsOk : endsOk s t
  keepsHost : keepsHost s t
  keepsClass : keepsClass s t
  readsAll : readsAll s t
  noResult : dstHolds t []
  out : t.out = s.out ++ ys
  length : ys.length = s.inRest.length
  cnt : t.cnt = { flips := BitVec.ofNat 64 (differingBits s.inRest.length s.inRest ys)
                  units := BitVec.ofNat 64 (ceilDiv s.inRest.length s.bufSize)
                  bytesIn := BitVec.ofNat 64 s.inRest.length, bytesOut := BitVec.ofNat 64 s.inRest.length }

theorem Counters.eq_mk {c : Counters} {f n i o : DWord} (hf : c.flips = f) (hn : c.units = n) (hi : c.bytesIn = i)
    (ho : c.bytesOut = o) : c = { flips := f, units := n, bytesIn := i, bytesOut := o } := by
  subst hf hn hi ho
  rfl

theorem isStream_of_isNoise {i : Instr} (hi : isNoise i) : isStream i := .inr (.inr hi)

theorem not_classifies_of_isNoise {i : Instr} (hi : isNoise i) : ¬ classifies i := by
  rcases hi with rfl | rfl <;> decide

/-- Both noise commands read BUFSIZE bytes at most (R112). -/
theorem unitSize_noise {i : Instr} (hi : isNoise i) (s : State) : unitSize i s = s.bufSize := by
  rcases hi with rfl | rfl <;> rfl

theorem unitWork_noise_counts {i : Instr} (hi : isNoise i) (s : State) : CountsDifferingBits (unitWork i s) := by
  rcases hi with rfl | rfl
  · exact jamBitsBuffer_counts
  · exact jamBurstBuffer_counts

/-- Only the last of the units that the bytes need is a short one (R9). -/
theorem ceilDiv_mul_lt {n : Nat} (hn : 1 ≤ n) (a : Nat) : ceilDiv a n * n < a + n := by
  have hlast := (ceilDiv_bounds hn a).2 (ceilDiv a n - 1)
  rcases Nat.eq_zero_or_pos (ceilDiv a n) with h0 | hpos
  · rw [h0]
    omega
  · have := hlast (by omega)
    rw [Nat.sub_mul] at this
    omega

/-- The body of a stream command that goes on to its end has read all of IN, in as many units as IN needs. -/
theorem stream_commandBody_units {i : Instr} (hi : isStream i) {s u : State} (hl : LegalOperands i s)
    (h : commandBody i s = .ok () u) :
    u.inRest = [] ∧ u.cnt.units = s.cnt.units + BitVec.ofNat 64 (ceilDiv s.inRest.length (unitSize i s)) := by
  rw [commandBody_stream hi] at h
  have hn := unitSize_pos hi hl
  have htr := unitWork_ignoresIo i s
  obtain ⟨m, hm, hrest, rfl⟩ := streamLoop_ok_eq_units hn htr (ceilDiv_mul_lt hn _) (ceilDiv_bounds hn _).1
    (Nat.lt_succ_self _) h
  obtain ⟨-, -, -, -, -, hunits⟩ := hm.frame htr
  exact ⟨by simp [hrest], hunits⟩

/-- Every noise command that ends OK ran to its end. -/
theorem noiseRun_of_exec {i : Instr} (hi : isNoise i) {s t : State} (ht : exec i s = .next t) (hok : t.code = 0x00#8) :
    ∃ ys, NoiseRun i s t ys := by
  have hstream := isStream_of_isNoise hi
  rcases exec_eq_next ht with ⟨hl, u, hu, rfl⟩ | ⟨c, u, hc, -, rfl⟩
  · obtain ⟨hrest, hunits⟩ := stream_commandBody_units hstream ((operandsLegal_iff i _).1 hl) hu
    obtain ⟨ys, hout, hlen, hflips⟩ := noise_commandBody_counts hi hl hu
    obtain ⟨xs, ys', hdone, hin, hout', hbytesIn, hbytesOut⟩ := exec_streamed ht
    obtain rfl : ys' = ys := List.append_cancel_left (hout'.symm.trans hout)
    obtain rfl : s.inRest = xs := hin.trans (by simp [hrest])
    refine ⟨ys', ht, endsOk_of_exec ht hok, commandsKeepTheHostsState i s _ ht,
      onlyTheCorrectorWritesTheClass i s _ (not_classifies_of_isNoise hi) ht, ⟨hdone, hrest⟩,
      faultsAndStreamsLeaveNoResult i s _ ht (.inr hstream), hout, hlen, ?_⟩
    rw [unitSize_noise hi] at hunits
    rw [show ys'.length = s.inRest.length from hlen] at hbytesOut
    exact Counters.eq_mk (hflips.trans (BitVec.zero_add _)) (hunits.trans (BitVec.zero_add _)) hbytesIn hbytesOut
  · exact absurd hok (code_raise_ne_zero hc u)

/-- Settles O53: a noise command that ends OK ran to its end. -/
theorem noiseKeepsTheLength : Obligations.NoiseKeepsTheLength := by
  unfold Obligations.NoiseKeepsTheLength
  intro i s t hi ht hok
  obtain ⟨ys, hrun⟩ := noiseRun_of_exec hi ht hok
  exact ⟨hrun.readsAll, ys, hrun.out, hrun.length⟩

/-! ### Buffer by buffer -/

/-- The parts of a buffer made of K parts stay where more follows. -/
theorem slice_append_of_lt {B : List Byte} {n K k : Nat} (hB : B.length = K * n) (C : List Byte) (hk : k < K) :
    slice (B ++ C) (k * n) n = slice B (k * n) n := by
  have : (k + 1) * n ≤ K * n := Nat.mul_le_mul_right n hk
  rw [Nat.succ_mul] at this
  exact slice_append_left (by omega) C

/-- Where P holds before the first unit, and the work on a unit, from a state of which P holds, goes on with bytes of which Q
holds to a state of which P holds for the next unit, the units can be done, and OUT has their output unit by unit. -/
theorem unitsDone_of_invariant {n : Nat} (hn : 1 ≤ n) {tr : List Byte → State → Res (List Byte)} (htr : IgnoresIo tr)
    (hlen : CountsDifferingBits tr) {P : Nat → State → Prop} {Q : Nat → List Byte → Prop}
    (hio : ∀ k t io, P k t → P k (t.withIo io)) {s : State} {K : Nat} (hread : ∀ k < K, k * n < s.inRest.length)
    (h0 : P 0 s) (hwork : ∀ k < K, ∀ t, P k t → ∃ Z u, tr (slice s.inRest (k * n) n) t = .ok Z u ∧ Q k Z ∧ P (k + 1) u) :
    ∃ m ys, UnitsDone n tr K s m ∧ P K m ∧ m.out = s.out ++ ys ∧ ys.length = min (K * n) s.inRest.length ∧
      ∀ k < K, Q k (slice ys (k * n) n) := by
  induction K with
  | zero => exact ⟨s, [], .none s, h0, by simp, by simp, by simp⟩
  | succ K ih =>
    obtain ⟨m, ys, hm, hP, hout, hys, hQ⟩ := ih (fun k hk => hread k (by omega)) fun k hk => hwork k (by omega)
    have hpos := hread K (Nat.lt_succ_self K)
    have hunit : m.inRest.take n = slice s.inRest (K * n) n := by rw [(hm.frame htr).1, slice]
    obtain ⟨Z, u, hu, hQZ, hPu⟩ := hwork K (Nat.lt_succ_self K) (m.countInCall.consume n) 
      (hio K m (m.countInCall.consume n) hP)
    obtain ⟨hZ, -⟩ := hlen _ _ _ _ hu
    rw [slice_length] at hZ
    rw [← hunit] at hu
    have hne : m.inRest.take n ≠ [] := by
      rw [hunit]
      exact List.length_pos_iff.1 (by rw [slice_length]; omega)
    have hkept : u.out = m.out := by rw [← htr.frame hu]; rfl
    have hysK : ys.length = K * n := by omega
    refine ⟨_, ys ++ Z, hm.unit hne hu, hio (K + 1) u (u.countOutCall.emit Z).countUnit hPu, ?_, ?_, fun k hk => ?_⟩
    · rw [State.countUnit_out, State.emit_out, State.countOutCall_out, hkept, hout, List.append_assoc]
    · rw [List.length_append, hysK, hZ, Nat.succ_mul]
      omega
    · rcases Nat.lt_succ_iff_lt_or_eq.1 hk with hlt | rfl
      · rw [slice_append_of_lt hysK Z hlt]
        exact hQ k hlt
      · rwa [slice, ← hysK, List.drop_left, List.take_of_length_le (by omega)]

/-- A stream command without planned failures ends OK after the units that IN has. -/
theorem exec_of_allUnits {i : Instr} (hi : isStream i) {s m : State} (hl : LegalOperands i s) (hq : s.ioQuiet) {K : Nat}
    (hall : s.inRest.length ≤ K * unitSize i s) (hm : UnitsDone (unitSize i s) (unitWork i s) K s.beginCommand m) :
    exec i s = .next (m.withHost [] [] []).countInCall.complete := by
  obtain ⟨hfi, hfo⟩ := hq
  have hself : s.withHost (s.inRest.take (K * unitSize i s)) [] [] = s := by
    cases s
    cases hfi
    cases hfo
    simp [State.withHost, List.take_of_length_le hall]
  have hexec := exec_of_unitsDone hi hl hm
  rwa [hself] at hexec

/-- A noise command without planned failures whose work goes on in every buffer runs to its end, and what Q says of the work
on a buffer holds of the bytes written for it. -/
theorem noiseRun_of_invariant {i : Instr} (hi : isNoise i) {s : State} (hl : LegalOperands i s) (hq : s.ioQuiet)
    {P : Nat → State → Prop} {Q : Nat → List Byte → Prop} (hio : ∀ k t io, P k t → P k (t.withIo io))
    (h0 : P 0 s.beginCommand)
    (hwork : ∀ k < ceilDiv s.inRest.length s.bufSize, ∀ t, P k t →
      ∃ Z u, unitWork i s (slice s.inRest (k * s.bufSize) s.bufSize) t = .ok Z u ∧ Q k Z ∧ P (k + 1) u) :
    ∃ t ys, NoiseRun i s t ys ∧
      ∀ k < ceilDiv s.inRest.length s.bufSize, Q k (slice ys (k * s.bufSize) s.bufSize) := by
  have hn := unitSize_pos (isStream_of_isNoise hi) hl
  rw [← unitSize_noise hi s] at hwork ⊢
  obtain ⟨hall, hread⟩ := ceilDiv_bounds hn s.inRest.length
  obtain ⟨m, ys, hm, -, hout, -, hQ⟩ := unitsDone_of_invariant (s := s.beginCommand) hn (unitWork_ignoresIo i s)
    (unitWork_noise_counts hi s) hio hread h0 hwork
  have hexec := exec_of_allUnits (isStream_of_isNoise hi) hl hq hall hm
  obtain ⟨ys', hrun⟩ := noiseRun_of_exec hi hexec (code_complete _)
  obtain rfl : ys' = ys := List.append_cancel_left (hrun.out.symm.trans hout)
  exact ⟨_, ys', hrun, hQ⟩

/-- In a buffer with some of its addresses flipped exactly those bits differ (R49). -/
theorem bufBit_flipAll_ne_iff {B : List Byte} {A : List Nat} (hA : A.Sublist (addrs 0 (8 * B.length))) (a : Nat) :
    bufBit (flipAll B A) a ≠ bufBit B a ↔ a ∈ A := by
  rw [bufBit_flipAll ((addrs_nodup _ _).sublist hA) fun b hb => (mem_addrs.1 (hA.subset hb)).2]
  by_cases ha : a ∈ A <;> simp [ha]

/-- Where exactly the addresses of A, which are different, name bits that differ. -/
theorem differingBits_eq_length {n : Nat} {B C : List Byte} {A : List Nat} (hA : A.Sublist (addrs 0 (8 * n)))
    (h : ∀ a < 8 * n, (bufBit C a ≠ bufBit B a ↔ a ∈ A)) : differingBits n B C = A.length := by
  refine List.Perm.length_eq ((List.perm_ext_iff_of_nodup ((addrs_nodup _ _).filter _)
    ((addrs_nodup _ _).sublist hA)).2 fun a => ?_)
  rw [List.mem_filter, bne_iff_ne, ne_comm]
  constructor
  · rintro ⟨ha, hne⟩
    exact (h a (mem_addrs.1 ha).2).1 hne
  · intro ha
    exact ⟨hA.subset ha, (h a (mem_addrs.1 (hA.subset ha)).2).2 ha⟩

/-- The bits of the k-th buffer are those of its bytes (R112). -/
theorem State.bufferBits_eq (s : State) (k : Nat) :
    8 * (slice s.inRest (k * s.bufSize) s.bufSize).length = s.bufferBits k := by
  rw [slice_length, State.bufferBits]

theorem State.bufferBits_le (s : State) (k : Nat) : s.bufferBits k ≤ 8 * s.bufSize :=
  Nat.mul_le_mul_left 8 (Nat.min_le_left _ _)

end Sys2Proof.Machine
end

section
/-! SUPPORT. JAMB: one draw for each bit in stream order, and the bits whose draw is below p inverted (R111 to R114). -/

namespace Sys2Proof.Machine

/-! ### One buffer (R113) -/

/-- The addresses whose draw is below p, the draws given to the addresses in order. -/
def addrsBelowP (s : State) (as : List Nat) (us : List Word) : List Nat :=
  ((as.zip us).filter fun p => flipTest s p.2).map Prod.fst

/-- The loop of R113 with a draw for every address flips those whose draw is below p. -/
theorem jamBits_answered {as : List Nat} (Y : List Byte) {s : State} (h : as.length ≤ s.drawsU.length) :
    ∃ u, jamBits as Y s = .ok (flipAll Y (addrsBelowP s as s.drawsU)) u ∧ u.ops = s.ops ∧
      u.drawsU = s.drawsU.drop as.length := by
  induction as generalizing Y s with
  | nil => exact ⟨s, rfl, rfl, rfl⟩
  | cons a as ih =>
    rcases drawU32_cases s with ⟨hnil, -⟩ | ⟨u, us, hu, hd⟩
    · rw [hnil] at h
      cases h
    · rw [hu, List.length_cons, List.length_cons, Nat.succ_le_succ_iff] at h
      rw [jamBits, hd, Res.bind_ok, hu, List.length_cons, List.drop_succ_cons]
      by_cases ht : flipTest s u = true
      · obtain ⟨v, hv, hops, hdraws⟩ := ih (bufFlip Y a) (s := ({ s with drawsU := us } : State).countFlip) h
        refine ⟨v, (if_pos ht).trans (hv.trans ?_), hops, hdraws⟩
        simp only [addrsBelowP, List.zip_cons_cons, List.filter_cons, ht, if_true, List.map_cons]
        rfl
      · obtain ⟨v, hv, hops, hdraws⟩ := ih Y (s := { s with drawsU := us }) h
        refine ⟨v, (if_neg ht).trans (hv.trans ?_), hops, hdraws⟩
        simp only [addrsBelowP, List.zip_cons_cons, List.filter_cons, ht]
        rfl

theorem addrsBelowP_sublist {s : State} {as : List Nat} {us : List Word} (h : as.length ≤ us.length) :
    (addrsBelowP s as us).Sublist as := by
  have hmap := (List.filter_sublist (l := as.zip us) (p := fun p => flipTest s p.2)).map Prod.fst
  rwa [List.map_fst_zip h] at hmap

/-- Address a of a buffer is flipped exactly where draw a is below p. -/
theorem mem_addrsBelowP {s : State} {N a : Nat} {us : List Word} {u : Word} (ha : a < N) (hu : us[a]? = some u) :
    a ∈ addrsBelowP s (addrs 0 N) us ↔ u.toNat * s.pDen < s.pNum * 2 ^ 32 := by
  have hpair (v : Word) : (a, v) ∈ (addrs 0 N).zip us ↔ v = u := by
    have haddr (i : Nat) : (addrs 0 N)[i]? = some a ↔ i = a := by
      simpa [addrs, List.getElem?_eq_some_iff] using fun h : i = a => h ▸ ha
    simp only [List.mem_iff_getElem?, List.getElem?_zip_eq_some, haddr, exists_eq_left, hu, Option.some.injEq]
    exact eq_comm
  simp only [addrsBelowP, List.mem_map, List.mem_filter, Prod.exists, exists_and_right, exists_eq_right, hpair,
    exists_eq_left, flipTest, decide_eq_true_eq]

/-! ### The whole stream (R112, R114) -/

/-- Before its k-th buffer JAMB has taken one draw for each bit of the buffers before. -/
def JambReady (s : State) (k : Nat) (t : State) : Prop :=
  t.ops = s.ops ∧ t.drawsU = s.drawsU.drop (8 * min (k * s.bufSize) s.inRest.length)

/-- Exactly the bits of the k-th buffer whose draw is below p are inverted in Z. -/
def JambFlips (s : State) (k : Nat) (Z : List Byte) : Prop :=
  ∀ a u, a < s.bufferBits k → s.drawsU[8 * (k * s.bufSize) + a]? = some u →
    (bufBit Z a ≠ bufBit (slice s.inRest (k * s.bufSize) s.bufSize) a ↔ u.toNat * s.pDen < s.pNum * 2 ^ 32)

/-- JAMB's work on the k-th buffer. -/
theorem jambBuffer_of_ready {s t : State} {k : Nat} (hdraws : 8 * s.inRest.length ≤ s.drawsU.length)
    (hk : k * s.bufSize < s.inRest.length) (h : JambReady s k t) :
    ∃ Z u, jamBitsBuffer (slice s.inRest (k * s.bufSize) s.bufSize) t = .ok Z u ∧ JambFlips s k Z ∧
      JambReady s (k + 1) u := by
  obtain ⟨hops, hus⟩ := h
  rw [Nat.min_eq_left hk.le] at hus
  have hlen := slice_length s.inRest (k * s.bufSize) s.bufSize
  have hbits : (addrs 0 (8 * (slice s.inRest (k * s.bufSize) s.bufSize).length)).length ≤ t.drawsU.length := by
    rw [addrs_length, hus, List.length_drop]
    omega
  obtain ⟨u, hu, hops', hus'⟩ := jamBits_answered (slice s.inRest (k * s.bufSize) s.bufSize) hbits
  refine ⟨_, u, hu, fun a v ha hv => ?_, hops'.trans hops, ?_⟩
  · rw [← State.bufferBits_eq] at ha
    have hdraw : t.drawsU[a]? = some v := by rw [hus, List.getElem?_drop, hv]
    rw [bufBit_flipAll_ne_iff (addrsBelowP_sublist hbits), mem_addrsBelowP ha hdraw, State.pDen, State.pNum, hops]
    rfl
  · rw [hus', hus, List.drop_drop, addrs_length, hlen, Nat.add_one_mul k]
    exact congrArg (s.drawsU.drop ·) (by omega)

/-- The place of a bit of IN: its buffer, which JAMB reads, and its address there. -/
theorem exists_bufferBit {s : State} {a : Nat} (hn : 1 ≤ s.bufSize) (ha : a < 8 * s.inRest.length) :
    ∃ k b, k < ceilDiv s.inRest.length s.bufSize ∧ b < s.bufferBits k ∧ a = 8 * (k * s.bufSize) + b := by
  have hdiv := Nat.div_add_mod' a (8 * s.bufSize)
  have hmod := Nat.mod_lt a (show 0 < 8 * s.bufSize by omega)
  have hplace : a / (8 * s.bufSize) * (8 * s.bufSize) = 8 * (a / (8 * s.bufSize) * s.bufSize) := Nat.mul_left_comm ..
  refine ⟨a / (8 * s.bufSize), a % (8 * s.bufSize), ?_, ?_, by omega⟩
  · by_contra hge
    have hall := (ceilDiv_bounds hn s.inRest.length).1
    have := Nat.mul_le_mul_right s.bufSize (Nat.le_of_not_lt hge)
    omega
  · unfold State.bufferBits
    omega

/-- Settles O51: each buffer takes its draws where the one before left them. -/
theorem jambFlipsWhereTheDrawIsBelowP : Obligations.JambFlipsWhereTheDrawIsBelowP := by
  unfold Obligations.JambFlipsWhereTheDrawIsBelowP
  intro s hl hq hdraws
  have hn : 1 ≤ s.bufSize := unitSize_pos (i := .jamb) (by decide) hl
  obtain ⟨t, ys, hrun, hflips⟩ := noiseRun_of_invariant (i := .jamb) (P := JambReady s) (Q := JambFlips s) (.inl rfl) hl hq
    (fun _ _ _ h => h) ⟨rfl, by simp⟩ fun k hk t => jambBuffer_of_ready hdraws ((ceilDiv_bounds hn _).2 k hk)
  refine ⟨t, ys, hrun.exec, hrun.endsOk, hrun.keepsHost, hrun.keepsClass, hrun.readsAll, hrun.noResult, hrun.out,
    hrun.length, fun a u ha hu => ?_, hrun.cnt⟩
  obtain ⟨k, b, hk, hb, rfl⟩ := exists_bufferBit hn ha
  have hlt := lt_of_lt_of_le hb (s.bufferBits_le k)
  rw [← bufBit_slice hlt, ← bufBit_slice hlt]
  exact hflips k hk b u hb hu

/-! ### Certainty -/

theorem differingBits_self (n : Nat) (B : List Byte) : differingBits n B B = 0 := by simp [differingBits]

theorem bufBit_map_not {B : List Byte} {a : Nat} (ha : a < 8 * B.length) : bufBit (B.map (~~~·)) a = !bufBit B a := by
  have hbyte : a / 8 < B.length := by omega
  simp [bufBit, List.getD_eq_getElem?_getD, hbyte, bitInByte_lt]

/-- Settles O52: as a fraction of 2^32 every draw is below 1. -/
theorem jambWithCertaintyInvertsEveryByte : Obligations.JambWithCertaintyInvertsEveryByte := by
  unfold Obligations.JambWithCertaintyInvertsEveryByte
  intro s hl hq hdraws hp
  obtain ⟨t, ys, hexec, hend, -, -, -, -, hout, hlen, hbits, hcnt⟩ := jambFlipsWhereTheDrawIsBelowP s hl hq hdraws
  obtain ⟨hpos, -⟩ := hl
  have hne : ∀ a < 8 * s.inRest.length, bufBit ys a ≠ bufBit s.inRest a := by
    intro a ha
    have hu := List.getElem?_eq_getElem (l := s.drawsU) (i := a) (by omega)
    rw [hbits a _ ha hu, ← hp, Nat.mul_comm]
    exact Nat.mul_lt_mul_of_pos_left (BitVec.isLt _) hpos
  have hys : ys = s.inRest.map (~~~·) := by
    refine buf_ext (by rw [hlen, List.length_map]) fun a ha => ?_
    rw [hlen] at ha
    rw [bufBit_map_not ha]
    exact Bool.eq_not_of_ne (hne a ha)
  refine ⟨t, hexec, hend, hys ▸ hout, ?_⟩
  rw [hcnt, differingBits_eq_length (List.Sublist.refl _) fun a ha =>
    iff_of_true (hne a ha) (mem_addrs.2 ⟨Nat.zero_le a, ha⟩), addrs_length, Nat.sub_zero]

end Sys2Proof.Machine
end

section
/-! SUPPORT. JAMR: the scan of R116 follows the burst plans of its draws, and where every draw is answered in range it goes on
to its end (R115 to R117). -/

namespace Sys2Proof.Machine

/-! ### The scan under a plan (R116) -/

/-- The first answer to DrawU32, where it is known whether it triggers. -/
theorem State.triggers_eq_cons {s : State} {b : Bool} {bs : List Bool} (h : s.triggers = b :: bs) :
    ∃ u us, s.drawsU = u :: us ∧ trigger s u = b ∧ ({ s with drawsU := us } : State).triggers = bs :=
  List.map_eq_cons_iff.1 h

/-- At the end of the buffer the scan draws nothing. -/
theorem jamBurst_end {N f c : Nat} (hc : N ≤ c) (Y : List Byte) (s : State) : jamBurst N f c Y s = .ok Y s := by
  rw [jamBurst_fuel Y s (g := 0) (by omega) (by omega), jamBurst]

/-- Draws that do not trigger move the cursor on by their number. -/
theorem jamBurst_skips {N c j : Nat} (hj : j ≤ N - c) (Y : List Byte) {s : State} {bs : List Bool}
    (h : s.triggers = List.replicate j false ++ bs) :
    ∃ t, jamBurst N N c Y s = jamBurst N N (c + j) Y t ∧ t.ops = s.ops ∧ t.triggers = bs ∧ t.drawsL = s.drawsL := by
  induction j generalizing c s with
  | zero => exact ⟨s, rfl, rfl, h, rfl⟩
  | succ j ih =>
    obtain ⟨u, us, hu, ht, hrest⟩ := State.triggers_eq_cons h
    obtain ⟨t, hscan, hops, hbs, hls⟩ := ih (c := c + 1) (by omega) hrest
    refine ⟨t, ?_, hops, hbs, hls⟩
    rw [jamBurst_fuel Y s (g := N + 1) (by omega) (by omega), jamBurst_skip Y (by omega) hu ht, hscan, Nat.add_right_comm,
      Nat.add_assoc]

/-- A draw that triggers inverts the burst drawn and moves the cursor past it. -/
theorem jamBurst_triggered {N c L : Nat} (hc : c < N) (Y : List Byte) {s : State} {bs : List Bool} {ls : List Nat}
    (h : s.triggers = true :: bs) (hl : s.drawsL = L :: ls) (hL : L < s.maxBurst) :
    ∃ t, jamBurst N N c Y s = jamBurst N N (c + max L 1) (flipAll Y (addrs c (min (c + L) N))) t ∧ t.ops = s.ops ∧
      t.triggers = bs ∧ t.drawsL = ls := by
  obtain ⟨u, us, hu, ht, hrest⟩ := State.triggers_eq_cons h
  rw [jamBurst_fuel Y s (g := N + 1) (by omega) (by omega), jamBurst_burst Y hc hu ht hl hL, flipRun_eq]
  exact ⟨_, rfl, rfl, hrest, rfl⟩

theorem State.maxBurst_of_ops {s t : State} (h : t.ops = s.ops) : t.maxBurst = s.maxBurst := congrArg (·.maxBurst.toNat) h

/-- The addresses of the bursts of a plan, for a scan that goes on from cursor c, each burst cut at the end of the buffer. -/
def burstAddrs (N c : Nat) (ps : BurstPlan) : List Nat :=
  (burstsFrom c ps).flatMap fun b => addrs b.1 (min (b.1 + b.2) N)

theorem burstAddrs_cons (N c : Nat) (p : Nat × Nat) (ps : BurstPlan) :
    burstAddrs N c (p :: ps) = addrs (c + p.1) (min (c + p.1 + p.2) N) ++ burstAddrs N (c + p.1 + max p.2 1) ps := rfl

theorem mem_burstAddrs {N c a : Nat} {ps : BurstPlan} (ha : a < N) :
    a ∈ burstAddrs N c ps ↔ ∃ b ∈ burstsFrom c ps, b.1 ≤ a ∧ a < b.1 + b.2 := by
  simp only [burstAddrs, List.mem_flatMap, mem_addrs, lt_min_iff, ha, and_true]

/-- The bursts of a plan do not overlap: the cursor moves past each. -/
theorem burstAddrs_sublist {N c : Nat} {ps : BurstPlan} (h : ∀ b ∈ burstsFrom c ps, b.1 < N) :
    (burstAddrs N c ps).Sublist (addrs c N) := by
  induction ps generalizing c with
  | nil => exact List.nil_sublist _
  | cons p ps ih =>
    obtain ⟨hp, hps⟩ := List.forall_mem_cons.1 h
    rw [burstAddrs_cons]
    exact ((ih hps).append_left _).trans ((burst_append_sublist hp p.2).trans (addrs_sublist (Nat.le_add_right c p.1)))

/-- The scan whose draws follow a plan, and after its last burst do not trigger, inverts the bursts of the plan. -/
theorem jamBurst_plan {N c : Nat} {ps : BurstPlan} (Y : List Byte) {s : State} {bs : List Bool} {ls : List Nat}
    (hfit : ∀ b ∈ burstsFrom c ps, b.1 < N ∧ b.2 < s.maxBurst)
    (ht : s.triggers = burstTriggers ps ++ (List.replicate (N - cursorAfter c ps) false ++ bs))
    (hl : s.drawsL = ps.map Prod.snd ++ ls) :
    ∃ u, jamBurst N N c Y s = .ok (flipAll Y (burstAddrs N c ps)) u ∧ u.ops = s.ops ∧ u.triggers = bs ∧ u.drawsL = ls := by
  induction ps generalizing c Y s with
  | nil =>
    obtain ⟨t, hscan, hops, hbs, hls⟩ := jamBurst_skips le_rfl Y ht
    exact ⟨t, hscan.trans (jamBurst_end (by omega) Y t), hops, hbs, hls.trans hl⟩
  | cons p ps ih =>
    obtain ⟨⟨hstart, hlen⟩, hfit⟩ := List.forall_mem_cons.1 hfit
    rw [burstTriggers_cons, List.append_assoc, List.cons_append] at ht
    obtain ⟨t, hskips, htops, htbs, htls⟩ := jamBurst_skips (show p.1 ≤ N - c by omega) Y ht
    obtain ⟨v, hburst, hvops, hvbs, hvls⟩ := jamBurst_triggered hstart Y htbs (htls.trans hl)
      (State.maxBurst_of_ops htops ▸ hlen)
    have hvs := hvops.trans htops
    obtain ⟨u, hu, hops, hbs, hls⟩ := ih (flipAll Y (addrs (c + p.1) (min (c + p.1 + p.2) N)))
      (State.maxBurst_of_ops hvs ▸ hfit) hvbs hvls
    refine ⟨u, ?_, hops.trans hvs, hbs, hls⟩
    rw [hskips, hburst, hu, burstAddrs_cons, flipAll, flipAll, flipAll, List.foldl_append]

/-! ### Plans for every buffer (R112) -/

/-- Before its k-th buffer JAMR has taken the draws of the plans of the buffers before; after those of all plans, us and ls are
left. -/
def JamrReady (s : State) (plans : List BurstPlan) (us : List Bool) (ls : List Nat) (k : Nat) (t : State) : Prop :=
  t.ops = s.ops ∧
    t.triggers = ((plans.zipIdx.drop k).flatMap fun p => planTriggers (s.bufferBits p.2) p.1) ++ us ∧
      t.drawsL = plannedLengths (plans.drop k) ++ ls

/-- Exactly the bits of the bursts planned for the k-th buffer are inverted in Z. -/
def JamrFlips (s : State) (plans : List BurstPlan) (k : Nat) (Z : List Byte) : Prop :=
  ∀ ps a, plans[k]? = some ps → a < s.bufferBits k →
    (bufBit Z a ≠ bufBit (slice s.inRest (k * s.bufSize) s.bufSize) a ↔ ∃ b ∈ burstsFrom 0 ps, b.1 ≤ a ∧ a < b.1 + b.2)

/-- JAMR's work on the k-th buffer. -/
theorem jamrBuffer_of_ready {s t : State} {plans : List BurstPlan} {us : List Bool} {ls : List Nat} {k : Nat}
    (hk : k < plans.length) (hfit : s.planFits k plans[k]) (h : JamrReady s plans us ls k t) :
    ∃ Z u, jamBurstBuffer (slice s.inRest (k * s.bufSize) s.bufSize) t = .ok Z u ∧ JamrFlips s plans k Z ∧
      JamrReady s plans us ls (k + 1) u := by
  obtain ⟨hops, htrig, hlens⟩ := h
  have hbits := s.bufferBits_eq k
  rw [List.drop_eq_getElem_cons (by rwa [List.length_zipIdx]), List.flatMap_cons, List.getElem_zipIdx, planTriggers,
    List.append_assoc, List.append_assoc, Nat.zero_add] at htrig
  rw [List.drop_eq_getElem_cons hk, plannedLengths, List.flatMap_cons, List.append_assoc] at hlens
  obtain ⟨u, hu, hops', htrig', hlens'⟩ := jamBurst_plan (slice s.inRest (k * s.bufSize) s.bufSize) 
    (State.maxBurst_of_ops hops ▸ hfit) htrig hlens
  rw [← hbits] at hu
  refine ⟨_, u, hu, fun ps a hps ha => ?_, hops'.trans hops, htrig', hlens'⟩
  obtain rfl : plans[k] = ps := by rwa [List.getElem?_eq_getElem hk, Option.some.injEq] at hps
  rw [← hbits] at ha
  rw [bufBit_flipAll_ne_iff (burstAddrs_sublist fun b hb => hbits ▸ (hfit b hb).1), mem_burstAddrs ha]

/-- Settles O57: each buffer takes the draws of its plan where the buffer before left them. -/
theorem jamrFollowsTheBurstPlans : Obligations.JamrFollowsTheBurstPlans := by
  unfold Obligations.JamrFollowsTheBurstPlans
  intro s plans us ls hl hq hplans hfit htrig hlens
  obtain ⟨t, ys, hrun, hflips⟩ := noiseRun_of_invariant (i := .jamr) (P := JamrReady s plans us ls)
    (Q := JamrFlips s plans) (.inr rfl) hl hq (fun _ _ _ h => h) ⟨rfl, htrig, hlens⟩ fun k hk t =>
      jamrBuffer_of_ready (hplans ▸ hk) (hfit k _ (List.getElem?_eq_getElem _))
  refine ⟨t, ys, hrun.exec, hrun.endsOk, hrun.keepsHost, hrun.keepsClass, hrun.readsAll, hrun.noResult, hrun.out,
    hrun.length, fun k ps a hps ha => ?_, hrun.cnt⟩
  have hk := hplans ▸ (List.getElem?_eq_some_iff.1 hps).1
  have hlt := lt_of_lt_of_le ha (s.bufferBits_le k)
  rw [← bufBit_slice hlt, ← bufBit_slice hlt]
  exact hflips k hk ps a hps ha

end Sys2Proof.Machine
end

section
/-! SUPPORT. JAMR where every draw is answered in range, and JAMR with one burst (R115 to R117, R38). -/

namespace Sys2Proof.Machine

/-! ### Enough answers (R38) -/

/-- The state t has the operands of s and at least m more answers to each draw, every length in range. -/
structure Answered (s : State) (m : Nat) (t : State) : Prop where
  ops : t.ops = s.ops
  draws : m ≤ t.triggers.length
  lengths : m ≤ t.drawsL.length
  inRange : ∀ l ∈ t.drawsL, l < s.maxBurst

/-- With answers for the bits from its cursor up the scan goes on to its end; a burst of no bits inverts none. -/
theorem jamBurst_answered {N c m : Nat} (Y : List Byte) {s t : State} (h : Answered s (N - c + m) t) :
    ∃ Z u, jamBurst N N c Y t = .ok Z u ∧ (s.maxBurst = 1 → Z = Y) ∧ Answered s m u := by
  induction hd : N - c using Nat.strong_induction_on generalizing c Y t with
  | h d ih =>
    obtain ⟨hops, hdraws, hlens, hrange⟩ := h
    rcases Nat.lt_or_ge c N with hc | hc
    · obtain ⟨b, bs, htrig⟩ := List.exists_cons_of_length_pos (l := t.triggers) (by omega)
      obtain ⟨L, ls, hl⟩ := List.exists_cons_of_length_pos (l := t.drawsL) (by omega)
      rw [htrig, List.length_cons] at hdraws
      cases b with
      | false =>
        obtain ⟨v, hscan, hvops, hvbs, hvls⟩ := jamBurst_skips (j := 1) (show 1 ≤ N - c by omega) Y htrig
        rw [hscan]
        exact ih (N - (c + 1)) (by omega) (c := c + 1) Y
          ⟨hvops.trans hops, by rw [hvbs]; omega, by rw [hvls]; omega, by rwa [hvls]⟩ rfl
      | true =>
        rw [hl] at hlens hrange
        rw [List.length_cons] at hlens
        obtain ⟨hL, hrange⟩ := List.forall_mem_cons.1 hrange
        obtain ⟨v, hscan, hvops, hvbs, hvls⟩ := jamBurst_triggered hc Y htrig hl (State.maxBurst_of_ops hops ▸ hL)
        obtain ⟨Z, u, hu, hZ, hready⟩ := ih (N - (c + max L 1)) (by omega) (c := c + max L 1)
          (flipAll Y (addrs c (min (c + L) N)))
          ⟨hvops.trans hops, by rw [hvbs]; omega, by rw [hvls]; omega, by rwa [hvls]⟩ rfl
        refine ⟨Z, u, hscan.trans hu, fun hone => ?_, hready⟩
        rw [hZ hone, addrs_eq_nil (by omega)]
        rfl
    · exact ⟨Y, t, jamBurst_end hc Y t, fun _ => rfl, hops, by omega, by omega, hrange⟩

/-- Two buffers of one length with the same units are equal. -/
theorem eq_of_slices {B C : List Byte} {n K : Nat} (hB : B.length ≤ K * n) (hlen : C.length = B.length)
    (h : ∀ k < K, slice C (k * n) n = slice B (k * n) n) : C = B := by
  have hflat := List.flatMap_congr (l := List.range K) fun k hk => h k (List.mem_range.1 hk)
  rwa [flatMap_slices, flatMap_slices, List.take_of_length_le hB, List.take_of_length_le (hlen ▸ hB)] at hflat

/-- Settles O55: an answer for every bit is enough for every buffer, which draws once for each of its bits at most. -/
theorem jamrCompletes : Obligations.JamrCompletes := by
  unfold Obligations.JamrCompletes
  intro s hl hq hdraws hlens hrange
  have hn : 1 ≤ s.bufSize := unitSize_pos (i := .jamr) (by decide) hl
  have hstart : Answered s (8 * (s.inRest.length - 0 * s.bufSize)) s.beginCommand :=
    ⟨rfl, by simpa [State.triggers] using hdraws, by simpa using hlens, hrange⟩
  obtain ⟨t, ys, hrun, hsame⟩ := noiseRun_of_invariant (i := .jamr)
    (P := fun k => Answered s (8 * (s.inRest.length - k * s.bufSize)))
    (Q := fun k Z => s.maxBurst = 1 → Z = slice s.inRest (k * s.bufSize) s.bufSize) (.inr rfl) hl hq
    (fun _ _ _ h => ⟨h.ops, h.draws, h.lengths, h.inRange⟩) hstart fun k _ t h => by
      refine jamBurst_answered _ ?_
      rwa [slice_length, Nat.sub_zero, ← Nat.mul_add, Nat.add_one_mul k, ← Nat.sub_sub, Nat.add_comm, Nat.min_comm,
        Nat.sub_add_min_cancel]
  refine ⟨t, ys, hrun.exec, hrun.endsOk, hrun.keepsHost, hrun.keepsClass, hrun.readsAll, hrun.noResult, hrun.out,
    hrun.length, congrArg Counters.units hrun.cnt, fun hone => ?_⟩
  have hys : ys = s.inRest :=
    eq_of_slices (ceilDiv_bounds hn _).1 hrun.length fun k hk => hsame k hk hone
  refine ⟨hys, ?_⟩
  rw [hrun.cnt, hys, differingBits_self]

/-! ### One burst (R116) -/

theorem ceilDiv_eq_one {a n : Nat} (ha : 1 ≤ a) (h : a ≤ n) : ceilDiv a n = 1 :=
  Nat.div_eq_of_lt_le (by omega) (by omega)

/-- A list of bits whose first r are false. -/
theorem eq_replicate_append_drop {bs : List Bool} {r : Nat} (hlen : r ≤ bs.length)
    (h : ∀ n < r, bs[n]? = some false) : bs = List.replicate r false ++ bs.drop r := by
  have htake : bs.take r = List.replicate r false := by
    refine List.eq_replicate_iff.2 ⟨List.length_take_of_le hlen, fun b hb => ?_⟩
    obtain ⟨n, hn, rfl⟩ := List.mem_take_iff_getElem.1 hb
    exact List.getElem_eq_iff _ |>.2 (h n (by omega))
  rw [← htake, List.take_append_drop]

/-- A list of bits of which only the one at place c is true, that one and the r after it split off. -/
theorem eq_replicate_append_true {bs : List Bool} {c r : Nat} (hlen : c + 1 + r ≤ bs.length)
    (h : ∀ n < bs.length, bs[n]? = some (decide (n = c))) :
    bs = List.replicate c false ++ true :: (List.replicate r false ++ bs.drop (c + 1 + r)) := by
  have hbefore := eq_replicate_append_drop (bs := bs) (r := c) (by omega) fun n hn => by
    rw [h n (by omega), decide_eq_false (by omega)]
  have hafter := eq_replicate_append_drop (bs := bs.drop (c + 1)) (r := r) (by rw [List.length_drop]; omega) fun n hn => by
    rw [List.getElem?_drop, h _ (by omega), decide_eq_false (by omega)]
  have hat : bs[c] = true := by
    rw [List.getElem_eq_iff, h c (by omega), decide_eq_true rfl]
  rw [List.drop_drop] at hafter
  rwa [List.drop_eq_getElem_cons (by omega), hat, hafter] at hbefore

section
variable {s : State} {c L : Nat}

/-- Where IN fits one buffer, that buffer has all its bits. -/
theorem State.bufferBits_zero (hfits : s.inRest.length ≤ s.bufSize) : s.bufferBits 0 = 8 * s.inRest.length := by
  rw [State.bufferBits, Nat.zero_mul, Nat.sub_zero, Nat.min_eq_right hfits]

/-- Draws of which only draw c triggers follow the plan of one burst after c draws. -/
theorem triggers_eq_oneBurst (hc : c < s.bufferBits 0) (hdraws : s.bufferBits 0 ≤ s.drawsU.length)
    (honly : ∀ n u, s.drawsU[n]? = some u →
      (u.toNat * s.pDen * (1 + s.maxBurst) < 2 * s.pNum * 2 ^ 32 ↔ n = c)) :
    s.triggers = s.plannedTriggers [[(c, L)]] ++ s.triggers.drop (c + 1 + (s.bufferBits 0 - (c + max L 1))) := by
  have hcount : s.triggers.length = s.drawsU.length := List.length_map _
  have honly' : ∀ n < s.triggers.length, s.triggers[n]? = some (decide (n = c)) := fun n hn => by
    have hu := List.getElem?_eq_getElem (l := s.drawsU) (i := n) (by omega)
    rw [State.triggers, List.getElem?_map, hu, Option.map_some, decide_eq_decide.2 (honly n _ hu)]
  refine (eq_replicate_append_true (r := s.bufferBits 0 - (c + max L 1)) (by omega) honly').trans ?_
  simp [State.plannedTriggers, planTriggers, burstTriggers_cons]

theorem planFits_oneBurst (hc : c < s.bufferBits 0) (hL : L < s.maxBurst) {k : Nat} {ps : BurstPlan}
    (h : [[(c, L)]][k]? = some ps) : s.planFits k ps := by
  obtain ⟨rfl, rfl⟩ : k = 0 ∧ [(c, L)] = ps := by simpa [List.getElem?_singleton] using h
  simpa [State.planFits] using And.intro hc hL

end

/-- Settles O56: the plan has one burst, of L bits after c draws that do not trigger, and the draws after it do not trigger. -/
theorem jamrFlipsTheTriggeredRun : Obligations.JamrFlipsTheTriggeredRun := by
  unfold Obligations.JamrFlipsTheTriggeredRun
  intro s c L ls hl hq hne hfits hdraws hc hlens hL honly
  have hbits := State.bufferBits_zero hfits
  have hbuf : c < s.bufferBits 0 := hbits ▸ hc
  obtain ⟨t, ys, hexec, hend, -, -, hreads, -, hout, hlen, hflips, hcnt⟩ :=
    jamrFollowsTheBurstPlans s [[(c, L)]] _ ls hl hq (ceilDiv_eq_one (List.length_pos_iff.2 hne) hfits).symm
      (fun _ _ => planFits_oneBurst hbuf hL) (triggers_eq_oneBurst hbuf (hbits ▸ hdraws) honly) hlens
  have hrun : ∀ a < 8 * s.inRest.length, (bufBit ys a ≠ bufBit s.inRest a ↔ c ≤ a ∧ a < c + L) := by
    simpa [hbits] using hflips 0 [(c, L)]
  refine ⟨t, ys, hexec, hend, hreads, hout, hlen, hrun, ?_⟩
  have hsub : (addrs c (min (c + L) (8 * s.inRest.length))).Sublist (addrs 0 (8 * s.inRest.length)) :=
    ((List.sublist_append_left _ _).trans (burst_append_sublist hc L)).trans (addrs_sublist (Nat.zero_le c))
  have hmem : ∀ a < 8 * s.inRest.length,
      (bufBit ys a ≠ bufBit s.inRest a ↔ a ∈ addrs c (min (c + L) (8 * s.inRest.length))) := fun a ha => by
    rw [hrun a ha, mem_addrs, lt_min_iff, and_iff_left ha]
  rw [hcnt, differingBits_eq_length hsub hmem, addrs_length]
  exact congrArg (BitVec.ofNat 64) (by omega)

end Sys2Proof.Machine
end

section
/-! SUPPORT. The faults of an illegal word, of illegal operands and of an input that ends inside a frame (R121, R122, R125),
and what the parts of a command raise. -/

namespace Sys2Proof.Machine

/-! ### ILLEGAL_COMMAND (R121) -/

/-- A CMD write of an illegal word raises after the clearing that begins every command, without a look at the operands. -/
theorem writeCmd_illegal {w : Word} (h : ¬ LegalWord w) (s : State) :
    writeCmd w s = .next ((s.issue w).beginCommand.raise .illegalCommand) := by
  unfold writeCmd
  split
  · next i hi => exact absurd ((legalWordsAreTheDecodedOnes w).1.1 ⟨i, hi⟩) h
  · rfl

/-- Settles O9: nothing but CMD, the clearing and STATUS is written. -/
theorem illegalWordRaisesIllegalCommand : Obligations.IllegalWordRaisesIllegalCommand := by
  unfold Obligations.IllegalWordRaisesIllegalCommand
  intro s op rest w h hw hillegal
  have hstep := (step_issuesWord h hw).trans (writeCmd_illegal hillegal _)
  obtain ⟨hend, hdst⟩ :=
    raise_beginCommand (s := s) (u := ({ s with pending := rest } : State).issue w) rfl .illegalCommand
  exact ⟨_, hstep, rfl, hend, rfl, ⟨rfl, rfl⟩, ⟨rfl, rfl, rfl⟩, fun _ => rfl, rfl, hdst, rfl, rfl, rfl⟩

/-! ### What the parts of a command raise (R120) -/

theorem inRead_eq_raised {n : Nat} {s t : State} {c : Code} (h : inRead n s = .raised c t) : c = .ioError := by
  rcases inRead_cases n s with ⟨-, hr⟩ | ⟨-, hr⟩ <;> rw [hr] at h <;> cases h
  rfl

theorem writeUnit_eq_raised {before : DWord} {bs : List Byte} {s t : State} {c : Code}
    (h : writeUnit before bs s = .raised c t) : c = .ioError := by
  rcases writeUnit_cases before bs s with ⟨-, hw⟩ | ⟨-, hw⟩ <;> rw [hw] at h <;> cases h
  rfl

theorem drawU32_ne_raised (s t : State) (c : Code) : drawU32 s ≠ .raised c t := by
  rcases drawU32_cases s with ⟨-, h⟩ | ⟨u, us, -, h⟩ <;> rw [h] <;> nofun

theorem drawLen_ne_raised (m : Nat) (s t : State) (c : Code) : drawLen m s ≠ .raised c t := by
  rcases drawLen_cases m s with ⟨-, h⟩ | ⟨l, ls, -, ⟨-, h⟩ | ⟨-, h⟩⟩ <;> rw [h] <;> nofun

/-- The noise commands raise nothing in their work on a buffer: a draw is answered or nothing happens any more (R143). -/
theorem jamBits_ne_raised (as : List Nat) (Y : List Byte) (s t : State) (c : Code) : jamBits as Y s ≠ .raised c t := by
  induction as generalizing Y s with
  | nil => nofun
  | cons a as ih =>
    rw [jamBits]
    intro h
    rcases Res.bind_eq_raised h with hu | ⟨u, v, -, h⟩
    · exact drawU32_ne_raised _ _ _ hu
    · split at h <;> exact ih _ _ h

theorem jamBurst_ne_raised (N fuel c : Nat) (Y : List Byte) (s t : State) (e : Code) :
    jamBurst N fuel c Y s ≠ .raised e t := by
  induction fuel generalizing c Y s with
  | zero => nofun
  | succ fuel ih =>
    rw [jamBurst]
    split
    · intro h
      rcases Res.bind_eq_raised h with hu | ⟨u, v, -, h⟩
      · exact drawU32_ne_raised _ _ _ hu
      · split at h
        · rcases Res.bind_eq_raised h with hL | ⟨L, w, -, h⟩
          · exact drawLen_ne_raised _ _ _ _ hL
          · exact ih _ _ _ h
        · exact ih _ _ _ h
    · nofun

theorem correctBlock_eq_raised {B : List Byte} {s t : State} {c : Code} (h : correctBlock B s = .raised c t) :
    c = uncorrectableCode B := by
  by_cases hB : correctable B
  · rw [correctBlock_of_correctable hB] at h
    cases h
  · rw [correctBlock_of_not_correctable hB] at h
    cases h
    rfl

/-- A frame raises the fault of one of its blocks (R107). -/
theorem decodeBlocks_eq_raised {d : Nat} {Bs : List (List Byte)} {s t : State} {c : Code}
    (h : decodeBlocks d Bs s = .raised c t) : ∃ B ∈ Bs, c = uncorrectableCode B := by
  induction Bs generalizing s with
  | nil => cases h
  | cons B Bs ih =>
    rw [decodeBlocks] at h
    rcases Res.bind_eq_raised h with hB | ⟨C, u, -, h⟩
    · exact ⟨B, List.mem_cons_self, correctBlock_eq_raised hB⟩
    · rcases Res.bind_eq_raised h with hBs | ⟨_, _, -, h⟩
      · obtain ⟨A, hA, hc⟩ := ih hBs
        exact ⟨A, List.mem_cons_of_mem B hA, hc⟩
      · cases h

/-- The stream loop raises IO_ERROR, or what the work on one of its units raises (R57). -/
theorem streamLoop_eq_raised {n : Nat} {tr : List Byte → State → Res (List Byte)} {fuel : Nat} {s t : State} {c : Code}
    (h : streamLoop n tr fuel s = .raised c t) : c = .ioError ∨ ∃ X u v, tr X u = .raised c v := by
  induction fuel generalizing s with
  | zero => cases h
  | succ fuel ih =>
    rw [streamLoop] at h
    rcases Res.bind_eq_raised h with hr | ⟨X, u, -, h⟩
    · exact .inl (inRead_eq_raised hr)
    · split at h
      · cases h
      · rcases Res.bind_eq_raised h with htr | ⟨Y, v, -, h⟩
        · exact .inr ⟨X, u, t, htr⟩
        · rcases Res.bind_eq_raised h with hw | ⟨_, w, -, h⟩
          · exact .inl (writeUnit_eq_raised hw)
          · exact ih h

/-- The faults that a command can raise after its operand check (R123 to R126). -/
def bodyFaults : List Code := [.doubleError, .malformedInput, .truncatedFrame, .ioError]

theorem uncorrectableCode_mem_bodyFaults (B : List Byte) : uncorrectableCode B ∈ bodyFaults := by
  rw [uncorrectableCode]
  split <;> decide

theorem decodeUnit_eq_raised {d g : Nat} {X : List Byte} {s t : State} {c : Code}
    (h : decodeUnit d g X s = .raised c t) : c ∈ bodyFaults := by
  unfold decodeUnit at h
  split at h
  · cases h
    decide
  · obtain ⟨B, -, rfl⟩ := decodeBlocks_eq_raised h
    exact uncorrectableCode_mem_bodyFaults B

theorem unitWork_eq_raised {i : Instr} {s t u : State} {X : List Byte} {c : Code}
    (h : unitWork i s X t = .raised c u) : c ∈ bodyFaults := by
  cases i with
  | decs => exact decodeUnit_eq_raised h
  | jamb => exact absurd h (jamBits_ne_raised _ X t u c)
  | jamr => exact absurd h (jamBurst_ne_raised _ _ 0 X t u c)
  | encs | encb | ilv | corb | decb => cases h

theorem commandBody_eq_raised {i : Instr} {s t : State} {c : Code} (h : commandBody i s = .raised c t) :
    c ∈ bodyFaults := by
  by_cases hi : isStream i
  · rw [commandBody_stream hi] at h
    rcases streamLoop_eq_raised h with rfl | ⟨X, u, v, htr⟩
    · decide
    · exact unitWork_eq_raised htr
  · cases i with
    | encb | ilv | decb => cases h
    | corb =>
      rcases Res.bind_eq_raised h with hB | ⟨C, u, -, h⟩
      · rw [correctBlock_eq_raised hB]
        exact uncorrectableCode_mem_bodyFaults _
      · cases h
    | encs | decs | jamb | jamr => exact absurd (by decide) hi

/-! ### CONFIG_ERROR (R122) -/

/-- The operand check comes after the clearing, which leaves every operand (R70). -/
theorem operandsLegal_beginCommand_iff (i : Instr) (s : State) :
    operandsLegal i s.beginCommand = true ↔ LegalOperands i s := by
  rw [operandsLegal_iff]
  cases i <;> exact Iff.rfl

/-- Settles O24: the operand check precedes the body, and no body raises CONFIG_ERROR. -/
theorem configErrorExactlyOnIllegalOperands : Obligations.ConfigErrorExactlyOnIllegalOperands := by
  unfold Obligations.ConfigErrorExactlyOnIllegalOperands
  refine ⟨fun i s hl => ?_, fun i s t hl ht => ?_⟩
  · have hexec := exec_illegal (Bool.eq_false_iff.2 (mt (operandsLegal_beginCommand_iff i s).1 hl))
    obtain ⟨hend, hdst⟩ := raise_beginCommand (s := s) (u := s) rfl .configError
    exact ⟨_, hexec, hend, ⟨commandsKeepTheHostsState i s _ hexec, ⟨rfl, rfl⟩, ⟨rfl, rfl, rfl⟩, rfl⟩, hdst⟩
  · have hlegal := (operandsLegal_beginCommand_iff i s).2 hl
    rw [exec_eq_runCommand] at ht
    rcases runCommand_eq_next ht with ⟨hillegal, -⟩ | ⟨-, ⟨u, -, rfl⟩ | ⟨c, u, hu, rfl⟩⟩
    · exact absurd hlegal (Bool.eq_false_iff.1 hillegal)
    · rw [code_complete]
      decide
    · have hbyte : ∀ c ∈ bodyFaults, c.byte ≠ 0x02#8 := by decide
      exact ne_of_eq_of_ne (statusCode_statusRaised _ _) (hbyte c (commandBody_eq_raised hu))

/-! ### TRUNCATED_FRAME (R125) -/

/-- Settles O46: the whole frames are done as u does them, and the InRead after them returns the bytes that are left. -/
theorem truncatedFrameAfterTheWholeOnes : Obligations.TruncatedFrameAfterTheWholeOnes := by
  unfold Obligations.TruncatedFrameAfterTheWholeOnes
  intro s u X Y hl hq hin hmod hpos hshort hu hok
  obtain ⟨m, hm, hrest, rfl⟩ := unitsDone_of_exec_ok_on (by decide) hl hq hin
    (Nat.div_mul_cancel (Nat.dvd_of_mod_eq_zero hmod)).symm hu hok
  have hread : m.inRest.take (unitSize .decs s) = Y :=
    (congrArg (List.take _) hrest).trans (List.take_of_length_le hshort.le)
  have hwork : unitWork .decs s (m.inRest.take (unitSize .decs s)) (m.countInCall.consume (unitSize .decs s)) =
      .raised .truncatedFrame (m.countInCall.consume (unitSize .decs s)) := by
    rw [hread]
    exact if_pos hshort
  obtain ⟨hexec, hend⟩ := exec_stream_raisedWork (by decide) hl hq hm (hread ▸ List.length_pos_iff.1 hpos) hwork
  have hleft : ((m.countInCall.consume (unitSize .decs s)).raise .truncatedFrame).inRest = [] :=
    (congrArg (List.drop _) hrest).trans (List.drop_of_length_le hshort.le)
  obtain ⟨xs, -, hdone, hxs, -, hbytes, -⟩ := exec_streamed hexec
  rw [hleft, List.append_nil] at hxs
  subst hxs
  refine ⟨_, hexec, hend, commandsKeepTheHostsState _ _ _ hexec, ⟨hdone, hleft⟩, rfl, rfl, rfl,
    faultsAndStreamsLeaveNoResult _ _ _ hexec (.inr (by decide)), ?_⟩
  rw [← List.length_append, ← hin, ← hbytes]
  rfl

end Sys2Proof.Machine
end

section
/-! SUPPORT. Reset, the commands right after it, and the CORE that waits (R140 to R142). -/

namespace Sys2Proof.Machine

/-- Where every register reads 0, every offset does: an offset without a register reads 0 anyway (R40). -/
theorem readOffset_eq_zero {s : State} (h : ∀ r, s.readReg r = 0#32) (off : Nat) : s.readOffset off = 0#32 := by
  cases hoff : regAt off with
  | none => exact s.readOffset_unmapped hoff
  | some r =>
    obtain rfl := regAt_eq_some_iff.1 hoff
    rw [State.readOffset_mapped, h]

/-- After reset every register is 0 (R42). -/
theorem readReg_reset (r : Reg) : State.reset.readReg r = 0#32 := by cases r <;> decide

/-- Reset puts every register to its reset value (R140). -/
theorem readReg_hostReset (s : State) (r : Reg) : s.hostReset.readReg r = 0#32 := by
  rw [← readReg_reset r]
  cases r <;> rfl

/-- With DST_LEN = 0 the host reads 0 at every index of DST (R51). -/
theorem readDst_of_dstLen_zero {s : State} (h : s.dstLen = 0#32) (i : Nat) : s.readDst i = 0#8 := by
  rw [State.readDst, h]
  exact if_neg (Nat.not_lt_zero i)

/-- Settles O1: the step performs the reset, and the remaining operations follow. -/
theorem resetClearsEveryRegister : Obligations.ResetClearsEveryRegister := by
  unfold Obligations.ResetClearsEveryRegister
  intro s rest h
  have hsticky : statusSticky 0 = false := by decide
  exact ⟨_, step_pending h, readOffset_eq_zero (readReg_hostReset _), hsticky, rfl, rfl, readDst_of_dstLen_zero rfl,
    ⟨rfl, rfl, rfl⟩, rfl, rfl⟩

/-- The operands of six commands are illegal while their registers are 0 (R142). -/
theorem not_legalOperands_reset {i : Instr}
    (hi : i = .encb ∨ i = .encs ∨ i = .ilv ∨ i = .decs ∨ i = .jamb ∨ i = .jamr) : ¬ LegalOperands i State.reset := by
  rw [← operandsLegal_iff]
  rcases hi with rfl | rfl | rfl | rfl | rfl | rfl <;> decide

/-- Settles O2: illegal operands raise CONFIG_ERROR, and with SRC_LEN = 0 the operand of CORB and DECB is the empty block, which
has no error. -/
theorem bootNeedsOperands : Obligations.BootNeedsOperands := by
  unfold Obligations.BootNeedsOperands
  have hlegal : LegalOperands .corb State.reset := Nat.zero_le _
  have hparams := resetMeetsInvariant.params
  refine ⟨readOffset_eq_zero readReg_reset, fun i hi => ?_, ?_⟩
  · obtain ⟨t, ht, hend, -⟩ := configErrorExactlyOnIllegalOperands.1 i _ (not_legalOperands_reset hi)
    exact ⟨t, ht, hend⟩
  · rintro i (rfl | rfl)
    · obtain ⟨t, ht, hend, -⟩ := corb_corrects hlegal hparams (.inl rfl)
      exact ⟨t, ht, hend⟩
    · obtain ⟨t, O, ht, hend, -⟩ := decbDeliversTheDataPositions State.reset hparams ⟨hlegal, Nat.zero_le _⟩
      exact ⟨t, ht, hend⟩

/-- Settles O10: a step with nothing pending is the first case of the step function. -/
theorem idleCoreWaits : Obligations.IdleCoreWaits := by
  unfold Obligations.IdleCoreWaits
  intro s h
  rw [step, h]

end Sys2Proof.Machine
end

section
/-! SUPPORT. Which faults each part of a command can be stuck with: a draw of the entropy source is the only one that can
(R143, R38). -/

namespace Sys2Proof.Machine

/-! ### The parts of a command -/

/-- A part of a command that is stuck, is stuck with one of these faults. -/
def Res.StopsIn {α : Type} (F : List Fault) (r : Res α) : Prop := ∀ e, r = .stuck e → e ∈ F

theorem Res.stopsIn_ok {α : Type} (F : List Fault) (a : α) (s : State) : (Res.ok a s).StopsIn F := nofun

theorem Res.stopsIn_raised {α : Type} (F : List Fault) (c : Code) (s : State) : (Res.raised c s : Res α).StopsIn F := nofun

theorem Res.stopsIn_stuck {α : Type} {F : List Fault} {e : Fault} (h : e ∈ F) : (Res.stuck e : Res α).StopsIn F := by
  rintro _ ⟨⟩
  exact h

theorem Res.StopsIn.bind {α β : Type} {F : List Fault} {r : Res α} {f : α → State → Res β} (h : r.StopsIn F)
    (hf : ∀ a s, (f a s).StopsIn F) : (r.bind f).StopsIn F := by
  cases r with
  | ok a s => exact hf a s
  | raised c s => exact Res.stopsIn_raised F c s
  | stuck e => exact Res.stopsIn_stuck (h e rfl)

section
variable (F : List Fault)

theorem inRead_stopsIn (n : Nat) (s : State) : (inRead n s).StopsIn F := by
  rcases inRead_cases n s with ⟨-, h⟩ | ⟨-, h⟩ <;> rw [h]
  · exact Res.stopsIn_raised F _ _
  · exact Res.stopsIn_ok F _ _

theorem writeUnit_stopsIn (before : DWord) (bs : List Byte) (s : State) : (writeUnit before bs s).StopsIn F := by
  rcases writeUnit_cases before bs s with ⟨-, h⟩ | ⟨-, h⟩ <;> rw [h]
  · exact Res.stopsIn_raised F _ _
  · exact Res.stopsIn_ok F _ _

theorem correctBlock_stopsIn (B : List Byte) (s : State) : (correctBlock B s).StopsIn F := by
  by_cases hB : correctable B
  · rw [correctBlock_of_correctable hB]
    exact Res.stopsIn_ok F _ _
  · rw [correctBlock_of_not_correctable hB]
    exact Res.stopsIn_raised F _ _

theorem decodeBlocks_stopsIn (d : Nat) (Bs : List (List Byte)) (s : State) : (decodeBlocks d Bs s).StopsIn F := by
  induction Bs generalizing s with
  | nil => exact Res.stopsIn_ok F _ _
  | cons B Bs ih =>
    rw [decodeBlocks]
    exact (correctBlock_stopsIn F B s).bind fun C t => (ih t).bind fun rest u => Res.stopsIn_ok F _ _

theorem decodeUnit_stopsIn (d g : Nat) (X : List Byte) (s : State) : (decodeUnit d g X s).StopsIn F := by
  unfold decodeUnit
  split
  · exact Res.stopsIn_raised F _ _
  · exact decodeBlocks_stopsIn F d _ s

variable {F}

theorem drawU32_stopsIn (hu : .entropyUnanswered ∈ F) (s : State) : (drawU32 s).StopsIn F := by
  rcases drawU32_cases s with ⟨-, h⟩ | ⟨u, us, -, h⟩ <;> rw [h]
  · exact Res.stopsIn_stuck hu
  · exact Res.stopsIn_ok F _ _

theorem drawLen_stopsIn (hu : .entropyUnanswered ∈ F) (hr : .entropyOutOfRange ∈ F) (m : Nat) (s : State) :
    (drawLen m s).StopsIn F := by
  rcases drawLen_cases m s with ⟨-, h⟩ | ⟨l, ls, -, ⟨-, h⟩ | ⟨-, h⟩⟩ <;> rw [h]
  · exact Res.stopsIn_stuck hu
  · exact Res.stopsIn_ok F _ _
  · exact Res.stopsIn_stuck hr

theorem jamBits_stopsIn (hu : .entropyUnanswered ∈ F) (as : List Nat) (Y : List Byte) (s : State) :
    (jamBits as Y s).StopsIn F := by
  induction as generalizing Y s with
  | nil => exact Res.stopsIn_ok F _ _
  | cons a as ih =>
    rw [jamBits]
    refine (drawU32_stopsIn hu s).bind fun u t => ?_
    split <;> exact ih _ _

theorem jamBurst_stopsIn (hu : .entropyUnanswered ∈ F) (hr : .entropyOutOfRange ∈ F) (N fuel c : Nat) (Y : List Byte)
    (s : State) : (jamBurst N fuel c Y s).StopsIn F := by
  induction fuel generalizing c Y s with
  | zero => exact Res.stopsIn_ok F _ _
  | succ fuel ih =>
    rw [jamBurst]
    split
    · refine (drawU32_stopsIn hu s).bind fun u t => ?_
      split
      · exact (drawLen_stopsIn hu hr _ t).bind fun L v => ih _ _ _
      · exact ih _ _ _
    · exact Res.stopsIn_ok F _ _

theorem streamLoop_stopsIn {n : Nat} {tr : List Byte → State → Res (List Byte)} (htr : ∀ X s, (tr X s).StopsIn F)
    (fuel : Nat) (s : State) : (streamLoop n tr fuel s).StopsIn F := by
  induction fuel generalizing s with
  | zero => exact Res.stopsIn_ok F _ _
  | succ fuel ih =>
    rw [streamLoop]
    refine (inRead_stopsIn F n s).bind fun X t => ?_
    split
    · exact Res.stopsIn_ok F _ _
    · exact (htr X t).bind fun Y u => (writeUnit_stopsIn F _ Y u).bind fun _ v => ih _

end

/-! ### Commands -/

/-- The faults that a command can be stuck with: JAMB draws words, JAMR draws lengths too. -/
def entropyFaults : Instr → List Fault
  | .jamb => [.entropyUnanswered]
  | .jamr => [.entropyUnanswered, .entropyOutOfRange]
  | .encb | .encs | .ilv | .corb | .decb | .decs => []

theorem commandBody_stopsIn (i : Instr) (s : State) : (commandBody i s).StopsIn (entropyFaults i) := by
  cases i with
  | encb | ilv | decb => exact Res.stopsIn_ok _ _ _
  | corb => exact (correctBlock_stopsIn _ _ s).bind fun B t => Res.stopsIn_ok _ _ _
  | encs => exact streamLoop_stopsIn (fun _ _ => Res.stopsIn_ok _ _ _) _ s
  | decs => exact streamLoop_stopsIn (decodeUnit_stopsIn _ _ _) _ s
  | jamb => exact streamLoop_stopsIn (fun X => jamBits_stopsIn (by decide) _ X) _ s
  | jamr => exact streamLoop_stopsIn (fun X => jamBurst_stopsIn (by decide) (by decide) _ _ 0 X) _ s

/-- A command ends, or it stops with a fault of its draws. -/
theorem exec_next_or_fault (i : Instr) (s : State) :
    (∃ t, exec i s = .next t) ∨ ∃ e ∈ entropyFaults i, exec i s = .fault e := by
  cases hlegal : operandsLegal i s.beginCommand with
  | false => exact .inl ⟨_, exec_illegal hlegal⟩
  | true =>
    rw [exec_legal hlegal]
    cases hbody : commandBody i s.beginCommand with
    | ok a u => exact .inl ⟨_, rfl⟩
    | raised c u => exact .inl ⟨_, rfl⟩
    | stuck e => exact .inr ⟨e, commandBody_stopsIn i _ e hbody, rfl⟩

/-- Settles O23: the faults that a command can stop with are those of its draws. -/
theorem onlyEntropyCanStopACommand : Obligations.OnlyEntropyCanStopACommand := by
  unfold Obligations.OnlyEntropyCanStopACommand
  refine ⟨fun i s hi => ?_, fun s => ?_, fun s => ?_⟩
  · have hnone : entropyFaults i = [] := by
      cases i with
      | jamb | jamr => exact absurd (by decide) hi
      | encb | encs | ilv | corb | decb | decs => rfl
    simpa [hnone] using exec_next_or_fault i s
  · simpa [entropyFaults] using exec_next_or_fault .jamb s
  · simpa [entropyFaults] using exec_next_or_fault .jamr s

end Sys2Proof.Machine
end

section
/-! SUPPORT. Where JAMB and JAMR stop: at the first buffer whose draws are not answered in range, once the buffers before it are
done (R143, R38). -/

namespace Sys2Proof.Machine

/-! ### A stream command that stops in a unit -/

/-- A pass whose work on the unit is stuck stops the loop there. -/
theorem streamLoop_stuckWork {n : Nat} {tr : List Byte → State → Res (List Byte)} {s : State} {e : Fault}
    (hin : s.inCalls + 1 ∉ s.failIn) (hread : s.inRest.take n ≠ [])
    (hwork : tr (s.inRest.take n) (s.countInCall.consume n) = .stuck e) (g : Nat) :
    streamLoop n tr (g + 1) s = .stuck e := by
  rw [streamLoop_read hin, if_neg hread, hwork, Res.bind_stuck]

/-- A stream command stops with the fault of the work on the unit after k units, where the host fails no call up to there. -/
theorem exec_stream_stuckWork {i : Instr} (hi : isStream i) {s m : State} (hl : LegalOperands i s) {k : Nat} {e : Fault}
    (hin : ∀ j, 0 < j → j ≤ k + 1 → j ∉ s.failIn) (hout : ∀ j, 0 < j → j ≤ k → j ∉ s.failOut)
    (hm : UnitsDone (unitSize i s) (unitWork i s) k s.beginCommand m) (hread : m.inRest.take (unitSize i s) ≠ [])
    (hwork : unitWork i s (m.inRest.take (unitSize i s)) (m.countInCall.consume (unitSize i s)) = .stuck e) :
    exec i s = .fault e := by
  have htr := unitWork_ignoresIo i s
  obtain ⟨-, hfailIn, -, hcalls, -⟩ := hm.frame htr
  have hnext : m.inCalls + 1 ∉ m.failIn := by
    rw [hfailIn, hcalls]
    exact hin _ (Nat.succ_pos _) (by simp)
  have hrun : runStream (unitSize i s) (unitWork i s) s.beginCommand = .stuck e := by
    rw [hm.runStream_eq (unitSize_pos hi hl) htr (fun j hpos hj => hin j hpos (Nat.le_succ_of_le (by simpa using hj)))
      (fun j hpos hj => hout j hpos (by simpa using hj)), streamLoop_stuckWork hnext hread hwork]
  exact (exec_stream hi hl s.inRest s.failIn s.failOut).trans (congrArg finish hrun)

/-- A noise command that is stuck in its first buffer stops, whatever host failures are planned after the first InRead. -/
theorem exec_noise_stuck_first {i : Instr} (hi : isNoise i) {s : State} (hl : LegalOperands i s) (hin : 1 ∉ s.failIn)
    (hne : s.inRest ≠ []) {e : Fault}
    (hstuck : ∀ X, X ≠ [] → unitWork i s X (s.beginCommand.countInCall.consume (unitSize i s)) = .stuck e) :
    exec i s = .fault e := by
  have hstream := isStream_of_isNoise hi
  have hread : s.inRest.take (unitSize i s) ≠ [] := by
    simpa [hne] using Nat.ne_of_gt (unitSize_pos hstream hl)
  refine exec_stream_stuckWork hstream hl (k := 0) (fun j hpos hj => ?_) (by omega) (.none _) hread
    (hstuck _ hread)
  obtain rfl : j = 1 := by omega
  exact hin

/-- A noise command without planned failures, whose work goes on in K buffers and is stuck in the next, stops there. -/
theorem exec_noise_stuck_of_invariant {i : Instr} (hi : isNoise i) {s : State} (hl : LegalOperands i s) (hq : s.ioQuiet)
    {K : Nat} (hK : K * s.bufSize < s.inRest.length) {P : Nat → State → Prop} {e : Fault}
    (hio : ∀ k t io, P k t → P k (t.withIo io)) (h0 : P 0 s.beginCommand)
    (hwork : ∀ k < K, ∀ t, P k t →
      ∃ Z u, unitWork i s (slice s.inRest (k * s.bufSize) s.bufSize) t = .ok Z u ∧ P (k + 1) u)
    (hstuck : ∀ t, P K t → unitWork i s (slice s.inRest (K * s.bufSize) s.bufSize) t = .stuck e) :
    exec i s = .fault e := by
  have hstream := isStream_of_isNoise hi
  have hn := unitSize_pos hstream hl
  have htr := unitWork_ignoresIo i s
  rw [← unitSize_noise hi s] at hK hwork hstuck
  obtain ⟨hfi, hfo⟩ := hq
  obtain ⟨m, -, hm, hP, -⟩ := unitsDone_of_invariant (s := s.beginCommand) (Q := fun _ _ => True) hn htr
    (unitWork_noise_counts hi s) hio (fun k hk => lt_of_le_of_lt (Nat.mul_le_mul_right _ hk.le) hK) h0 fun k hk t ht => by
      obtain ⟨Z, u, hu, hPu⟩ := hwork k hk t ht
      exact ⟨Z, u, hu, True.intro, hPu⟩
  have hunit : m.inRest.take (unitSize i s) = slice s.inRest (K * unitSize i s) (unitSize i s) := by
    rw [(hm.frame htr).1]
    rfl
  have hread : m.inRest.take (unitSize i s) ≠ [] := by
    rw [hunit]
    exact List.length_pos_iff.1 (by rw [slice_length]; omega)
  refine exec_stream_stuckWork hstream hl (by simp [hfi]) (by simp [hfo]) hm hread ?_
  rw [hunit]
  exact hstuck _ (hio K m (m.countInCall.consume _) hP)

/-! ### JAMB (R113) -/

/-- The loop of R113 with fewer draws answered than there are addresses. -/
theorem jamBits_unanswered {as : List Nat} (Y : List Byte) {s : State} (h : s.drawsU.length < as.length) :
    jamBits as Y s = .stuck .entropyUnanswered := by
  induction as generalizing Y s with
  | nil => exact absurd h (Nat.not_lt_zero _)
  | cons a as ih =>
    rcases drawU32_cases s with ⟨-, hd⟩ | ⟨u, us, hu, hd⟩
    · rw [jamBits, hd, Res.bind_stuck]
    · rw [hu, List.length_cons, List.length_cons, Nat.succ_lt_succ_iff] at h
      rw [jamBits, hd, Res.bind_ok]
      split
      · exact ih _ h
      · exact ih _ h

/-- JAMB's work on a buffer with fewer draws answered than it has bits. -/
theorem jamBitsBuffer_unanswered {X : List Byte} {s : State} (h : s.drawsU.length < 8 * X.length) :
    jamBitsBuffer X s = .stuck .entropyUnanswered :=
  jamBits_unanswered X (by rwa [addrs_length])

/-- Before its k-th buffer JAMB has taken an answer for each bit of k whole buffers. -/
def JambDrawn (s : State) (k : Nat) (t : State) : Prop := t.drawsU.length = s.drawsU.length - 8 * (k * s.bufSize)

/-- JAMB's work on a whole buffer with an answer for each bit. -/
theorem jambBuffer_of_drawn {s t : State} {k : Nat} (hbytes : (k + 1) * s.bufSize ≤ s.inRest.length)
    (hdraws : 8 * ((k + 1) * s.bufSize) ≤ s.drawsU.length) (h : JambDrawn s k t) :
    ∃ Z u, jamBitsBuffer (slice s.inRest (k * s.bufSize) s.bufSize) t = .ok Z u ∧ JambDrawn s (k + 1) u := by
  unfold JambDrawn at h ⊢
  rw [Nat.add_one_mul k] at hbytes hdraws ⊢
  have hlen : (slice s.inRest (k * s.bufSize) s.bufSize).length = s.bufSize := by rw [slice_length]; omega
  obtain ⟨u, hu, -, hleft⟩ := jamBits_answered (as := addrs 0 (8 * (slice s.inRest (k * s.bufSize) s.bufSize).length))
    (slice s.inRest (k * s.bufSize) s.bufSize) (s := t) (by rw [addrs_length]; omega)
  refine ⟨_, u, hu, ?_⟩
  rw [hleft, List.length_drop, addrs_length, h, hlen]
  omega

/-- JAMB stops where there are fewer answers than bits: as many whole buffers as there are answers for are done before. -/
theorem exec_jamb_unanswered {s : State} (hl : LegalOperands .jamb s) (hq : s.ioQuiet)
    (h : s.drawsU.length < 8 * s.inRest.length) : exec .jamb s = .fault .entropyUnanswered := by
  have hn : 1 ≤ s.bufSize := unitSize_pos (i := .jamb) (by decide) hl
  have hdiv := Nat.div_add_mod' s.drawsU.length (8 * s.bufSize)
  have hmod := Nat.mod_lt s.drawsU.length (show 0 < 8 * s.bufSize by omega)
  rw [Nat.mul_left_comm] at hdiv
  refine exec_noise_stuck_of_invariant (K := s.drawsU.length / (8 * s.bufSize)) (P := JambDrawn s) (.inl rfl) hl hq
    (by omega) (fun _ _ _ ht => ht) (by simp [JambDrawn]) (fun k hk t => ?_) fun t ht => jamBitsBuffer_unanswered ?_
  · have hbefore := Nat.mul_le_mul_right s.bufSize (Nat.add_one_le_of_lt hk)
    exact jambBuffer_of_drawn (by omega) (by omega)
  · rw [slice_length, ht]
    omega

/-! ### JAMR (R116) -/

/-- A scan of R116 with bits left to scan, these operands, and of the answers only whether each draw triggers and the lengths,
is stuck with e. -/
def ScanStops (ops : OperandRegs) (bs : List Bool) (ls : List Nat) (e : Fault) : Prop :=
  ∀ N c Y t, c < N → t.ops = ops → t.triggers = bs → t.drawsL = ls → jamBurst N N c Y t = .stuck e

/-- No further draw is answered. -/
theorem scanStops_noDraw (ops : OperandRegs) (ls : List Nat) : ScanStops ops [] ls .entropyUnanswered := by
  intro N c Y t hc _ ht _
  rw [jamBurst_fuel Y t (g := N + 1) (by omega) (by omega), jamBurst_unanswered Y hc (List.map_eq_nil_iff.1 ht)]

/-- The next draw triggers, and no length is answered. -/
theorem scanStops_noLength (ops : OperandRegs) (us : List Bool) : ScanStops ops (true :: us) [] .entropyUnanswered := by
  intro N c Y t hc _ ht hlens
  obtain ⟨u, vs, hu, htrig, -⟩ := State.triggers_eq_cons ht
  rw [jamBurst_fuel Y t (g := N + 1) (by omega) (by omega), (jamBurst_stuck Y hc hu htrig).1 hlens]

/-- The next draw triggers, and the length answered is out of range. -/
theorem scanStops_outOfRange {s : State} {l : Nat} (hm : s.maxBurst ≤ l) (us : List Bool) (ls : List Nat) :
    ScanStops s.ops (true :: us) (l :: ls) .entropyOutOfRange := by
  intro N c Y t hc hops ht hlens
  obtain ⟨u, vs, hu, htrig, -⟩ := State.triggers_eq_cons ht
  rw [jamBurst_fuel Y t (g := N + 1) (by omega) (by omega),
    (jamBurst_stuck Y hc hu htrig).2 l ls hlens (State.maxBurst_of_ops hops ▸ hm)]

/-- JAMR stops in its first buffer where a scan from its first draw stops. -/
theorem exec_jamr_stuck_first {s : State} {e : Fault} (hl : LegalOperands .jamr s) (hin : 1 ∉ s.failIn)
    (hne : s.inRest ≠ []) (h : ScanStops s.ops s.triggers s.drawsL e) : exec .jamr s = .fault e := by
  exact exec_noise_stuck_first (.inr rfl) hl hin hne fun X hX =>
    h _ 0 X _ (Nat.mul_pos (by decide) (List.length_pos_iff.2 hX)) rfl rfl rfl

/-- Settles O58: the first buffer with fewer answers than bits stops JAMB, and the first draw of JAMR stops it. -/
theorem missingEntropyStopsTheCommand : Obligations.MissingEntropyStopsTheCommand := by
  unfold Obligations.MissingEntropyStopsTheCommand
  refine ⟨?_, fun s => exec_jamb_unanswered, fun s u us hl hin hne hu htrig => ?_⟩
  · rintro i s (rfl | rfl) hl hin hne hnone
    · refine exec_noise_stuck_first (.inl rfl) hl hin hne fun X hX => jamBitsBuffer_unanswered ?_
      show s.drawsU.length < _
      rw [hnone]
      exact Nat.mul_pos (by decide) (List.length_pos_iff.2 hX)
    · refine exec_jamr_stuck_first hl hin hne ?_
      rw [State.triggers, hnone]
      exact scanStops_noDraw _ _
  · have hfirst : s.triggers = true :: ({ s with drawsU := us } : State).triggers := by
      rw [State.triggers, hu, List.map_cons, decide_eq_true htrig]
      rfl
    refine ⟨fun hnone => exec_jamr_stuck_first hl hin hne ?_, fun l ls hlens hm => exec_jamr_stuck_first hl hin hne ?_⟩
    · rw [hfirst, hnone]
      exact scanStops_noLength _ _
    · rw [hfirst, hlens]
      exact scanStops_outOfRange hm _ _

/-! ### JAMR after some plans (R112, R116) -/

/-- The scan whose draws follow a plan, and then do not trigger j times, comes to the cursor j after the plan. -/
theorem jamBurst_reaches {N c j : Nat} {ps : BurstPlan} (Y : List Byte) {s : State} {bs : List Bool} {ls : List Nat}
    (hfit : ∀ b ∈ burstsFrom c ps, b.1 < N ∧ b.2 < s.maxBurst) (hj : j ≤ N - cursorAfter c ps)
    (ht : s.triggers = burstTriggers ps ++ (List.replicate j false ++ bs)) (hl : s.drawsL = ps.map Prod.snd ++ ls) :
    ∃ Z t, jamBurst N N c Y s = jamBurst N N (cursorAfter c ps + j) Z t ∧ t.ops = s.ops ∧ t.triggers = bs ∧
      t.drawsL = ls := by
  induction ps generalizing c Y s with
  | nil =>
    obtain ⟨t, hscan, hops, hbs, hls⟩ := jamBurst_skips hj Y ht
    exact ⟨Y, t, hscan, hops, hbs, hls.trans hl⟩
  | cons p ps ih =>
    obtain ⟨⟨hstart, hlen⟩, hfit⟩ := List.forall_mem_cons.1 hfit
    rw [burstTriggers_cons, List.append_assoc, List.cons_append] at ht
    obtain ⟨t, hskips, htops, htbs, htls⟩ := jamBurst_skips (show p.1 ≤ N - c by omega) Y ht
    obtain ⟨v, hburst, hvops, hvbs, hvls⟩ := jamBurst_triggered hstart Y htbs (htls.trans hl)
      (State.maxBurst_of_ops htops ▸ hlen)
    have hvs := hvops.trans htops
    obtain ⟨Z, u, hu, hops, hbs, hls⟩ := ih _ (State.maxBurst_of_ops hvs ▸ hfit) hj hvbs hvls
    exact ⟨Z, u, hskips.trans (hburst.trans hu), hops.trans hvs, hbs, hls⟩

section
variable {s : State} {plans : List BurstPlan} {ps : BurstPlan} {j : Nat} (hl : LegalOperands .jamr s) (hq : s.ioQuiet)
  (hbuffer : plans.length < ceilDiv s.inRest.length s.bufSize) (hfit : ∀ k qs, plans[k]? = some qs → s.planFits k qs)
  (hps : s.planFits plans.length ps) (hj : cursorAfter 0 ps + j < s.bufferBits plans.length)
include hl hq hbuffer hfit hps hj

/-- JAMR whose answers follow the plans of some buffers, then a plan in the next, then do not trigger j times, with bits of that
buffer left, stops where a scan with the answers left does. -/
theorem exec_jamr_stuck_after_plans {bs : List Bool} {ls : List Nat} {e : Fault}
    (htrig : s.triggers = s.plannedTriggers plans ++ (burstTriggers ps ++ (List.replicate j false ++ bs)))
    (hlens : s.drawsL = plannedLengths (plans ++ [ps]) ++ ls) (hstop : ScanStops s.ops bs ls e) :
    exec .jamr s = .fault e := by
  have hn : 1 ≤ s.bufSize := unitSize_pos (i := .jamr) (by decide) hl
  have hlens' : s.drawsL = plannedLengths plans ++ (ps.map Prod.snd ++ ls) := by
    rw [hlens, plannedLengths, List.flatMap_append, List.flatMap_singleton, List.append_assoc, plannedLengths]
  refine exec_noise_stuck_of_invariant (.inr rfl) hl hq ((ceilDiv_bounds hn _).2 _ hbuffer)
    (P := JamrReady s plans (burstTriggers ps ++ (List.replicate j false ++ bs)) (ps.map Prod.snd ++ ls))
    (fun _ _ _ h => h) ⟨rfl, htrig, hlens'⟩ (fun k hk t ht => ?_) fun t ht => ?_
  · obtain ⟨Z, u, hu, -, hready⟩ := jamrBuffer_of_ready hk (hfit k _ (List.getElem?_eq_getElem hk)) ht
    exact ⟨Z, u, hu, hready⟩
  · obtain ⟨hops, htrig, hlens⟩ := ht
    rw [List.drop_of_length_le (by rw [List.length_zipIdx]), List.flatMap_nil, List.nil_append] at htrig
    rw [List.drop_length, plannedLengths, List.flatMap_nil, List.nil_append] at hlens
    have hfits : ∀ b ∈ burstsFrom 0 ps, b.1 < s.bufferBits plans.length ∧ b.2 < t.maxBurst :=
      State.maxBurst_of_ops hops ▸ hps
    obtain ⟨Z, u, hscan, huops, hubs, huls⟩ := jamBurst_reaches
      (slice s.inRest (plans.length * s.bufSize) s.bufSize) hfits (by omega) htrig hlens
    rw [← State.bufferBits_eq] at hscan hj
    exact hscan.trans (hstop _ _ Z u hj (huops.trans hops) hubs huls)

end

/-- Settles O59: the scan comes to the cursor reached, with bits left, and there its answers run out. -/
theorem jamrStopsWhereTheAnswersRunOut : Obligations.JamrStopsWhereTheAnswersRunOut := by
  unfold Obligations.JamrStopsWhereTheAnswersRunOut
  intro s plans ps j hl hq hbuffer hfit hps hj
  have hstuck {bs ls e} := exec_jamr_stuck_after_plans (bs := bs) (ls := ls) (e := e) hl hq hbuffer hfit hps hj
  refine ⟨fun ls htrig hlens => ?_, fun us htrig => ⟨fun hlens => ?_, fun l ls hlens hm => ?_⟩⟩
  · exact hstuck (htrig.trans (by simp)) hlens (scanStops_noDraw _ _)
  · exact hstuck (htrig.trans (by simp)) (hlens.trans (by simp)) (scanStops_noLength _ us)
  · exact hstuck (htrig.trans (by simp)) hlens (scanStops_outOfRange hm us ls)

end Sys2Proof.Machine
end
